-- ==== Sys2Proof/Word.lean ====
section
/-! DEFINITION. The two widths of bit data SDSEQ has: a byte of an SDRAM window and a 32-bit register word
(00_scope R9: bit 0 is the least significant bit). -/

namespace Sys2Proof

/-- One byte. -/
abbrev Byte := BitVec 8

/-- One 32-bit register word, or a 32-bit address (00_scope R9, R10). -/
abbrev Word := BitVec 32

end Sys2Proof
end

