-- ==== Sys2Proof/Syntax.lean ====
section
/-! DEFINITION. The vocabulary of the host operations and of the command word, and `Instr`, with one constructor for
each row of spec/opcode_table.json (30_encoding R100, R101, R110). -/

namespace Sys2Proof

/-- The two SDRAM banks of the controller (00_scope R6 P11, R12). -/
inductive Bank where
  | bank1 | bank2
  deriving DecidableEq, Repr

/-- A physical pin name. The spec has an opaque finite type (00_scope R11); the model has 256 names, pin
`16 * port + line` being line `line` of port `port` (DESIGN CHOICE, log 3). -/
abbrev PinId := Fin 256

/-- The 59 signal roles (40 R140). Index 0 of clock-enable and chip-select is Bank1, index 1 is Bank2. -/
inductive Role where
  | a (line : Fin 13) | d (line : Fin 32) | nbl (line : Fin 4) | ba (line : Fin 2)
  | sdcke (bank : Bank) | sdne (bank : Bank)
  | sdnwe | sdclk | sdnras | sdncas
  deriving DecidableEq, Repr

/-- Address-bus variants: 11, 12 or 13 lines (10 R34). -/
inductive AddrVariant where
  | a11 | a12 | a13
  deriving DecidableEq, Repr

/-- Data-bus variants: 8, 16 or 32 lines (10 R34). -/
inductive DataVariant where
  | d8 | d16 | d32
  deriving DecidableEq, Repr

/-- Bank-access variants: 1 or 2 bank-select lines (10 R34). -/
inductive BankAccessVariant where
  | ba1 | ba2
  deriving DecidableEq, Repr

/-- Byte-enable variants: 1, 2 or 4 lines (10 R34). -/
inductive ByteEnableVariant where
  | nbl1 | nbl2 | nbl4
  deriving DecidableEq, Repr

/-- The four single-pin groups: `ClockPin`, `RasPin`, `CasPin`, `WePin` (10 R34). -/
inductive SingleKind where
  | clock | ras | cas | we
  deriving DecidableEq, Repr

/-- How many pins each variant has (10 R34). -/
def AddrVariant.lines : AddrVariant → Nat
  | .a11 => 11 | .a12 => 12 | .a13 => 13

@[inherit_doc AddrVariant.lines]
def DataVariant.lines : DataVariant → Nat
  | .d8 => 8 | .d16 => 16 | .d32 => 32

@[inherit_doc AddrVariant.lines]
def BankAccessVariant.lines : BankAccessVariant → Nat
  | .ba1 => 1 | .ba2 => 2

@[inherit_doc AddrVariant.lines]
def ByteEnableVariant.lines : ByteEnableVariant → Nat
  | .nbl1 => 1 | .nbl2 => 2 | .nbl4 => 4

/-- An address-bus bundle (10 R34). -/
structure AddrBus where
  variant : AddrVariant
  pins : List PinId
  deriving DecidableEq, Repr

/-- A data-bus bundle (10 R34). -/
structure DataBus where
  variant : DataVariant
  pins : List PinId
  deriving DecidableEq, Repr

/-- A bank-access bundle (10 R34). -/
structure BankAccess where
  variant : BankAccessVariant
  pins : List PinId
  deriving DecidableEq, Repr

/-- A byte-enable bundle (10 R34). -/
structure ByteEnable where
  variant : ByteEnableVariant
  pins : List PinId
  deriving DecidableEq, Repr

/-- A clock-enable and chip-select pair; `bank` is the variant, `ForBank1` or `ForBank2` (10 R34). -/
structure CkeCs where
  bank : Bank
  cke : PinId
  cs : PinId
  deriving DecidableEq, Repr

/-- A bundle of any type (10 R34). -/
inductive Bundle where
  | addr (b : AddrBus)
  | data (b : DataBus)
  | bankAccess (b : BankAccess)
  | byteEnable (b : ByteEnable)
  | ckeCs (b : CkeCs)
  | single (kind : SingleKind) (pin : PinId)
  deriving DecidableEq, Repr

/-- The eight members of `Timing` (41 R180; 90_conflicts C1). -/
structure Timing where
  cas : Nat
  tMrd : Nat
  tXsr : Nat
  tRas : Nat
  tRc : Nat
  tWr : Nat
  tRp : Nat
  tRcd : Nat
  deriving DecidableEq, Repr

/-- The nine members of a Configuration (41 R180). -/
structure Configuration where
  addrBus : AddrBus
  dataBus : DataBus
  columnBits : Nat
  rowBits : Nat
  clockDivisor : Nat
  pipelineDelay : Nat
  writeProtection : Bool
  burstRead : Bool
  timing : Timing
  deriving DecidableEq, Repr

/-- The four modes a `Command` may have (42 R210). -/
inductive CmdMode where
  | clockEnable | prechargeAll | autoRefresh | loadModeRegister
  deriving DecidableEq, Repr

/-- A Command (42 R210). The ranges 0..15 and 0..65535 are the types of `nrfs` and `mrd`. -/
structure Command where
  mode : CmdMode
  ctb1 : Bool
  ctb2 : Bool
  nrfs : BitVec 4
  mrd : BitVec 16
  deriving DecidableEq, Repr

/-- The bits of a raw command word other than `MODE` (30 R110); `reserved` is bits [31:25]. -/
structure CmdOperands where
  ctb2 : Bool
  ctb1 : Bool
  nrfs : BitVec 4
  mrd : BitVec 16
  reserved : BitVec 7
  deriving DecidableEq, Repr

/-- One constructor per row of spec/opcode_table.json: the 21 host operations (30 R100) and the eight raw command
words (30 R110). `clockPin`, `rasPin`, `casPin`, `writeEnablePin` of `configure` stand for `ClockPin{p}` and so on. -/
inductive Instr where
  | bindPin (pin : PinId) (role : Role)
  | makeAddrBus (variant : AddrVariant) (pins : List PinId)
  | makeDataBus (variant : DataVariant) (pins : List PinId)
  | makeBankAccess (variant : BankAccessVariant) (pins : List PinId)
  | makeByteEnable (variant : ByteEnableVariant) (pins : List PinId)
  | makeCkecsBank1 (cke : PinId) (cs : PinId)
  | makeCkecsBank2 (cke : PinId) (cs : PinId)
  | makeSingle (kind : SingleKind) (pin : PinId)
  | preparePins (bundle : Bundle)
  | width (bus : DataBus)
  | bankOfPins (sel : CkeCs)
  | makeConfig (cfg : Configuration)
  | configure (cfg : Configuration) (bankAccess : BankAccess) (byteEnable : ByteEnable) (clockPin : PinId)
      (rasPin : PinId) (casPin : PinId) (clockAndChipEnable : CkeCs) (writeEnablePin : PinId)
  | sendCommand (cmd : Command)
  | setWriteProtection (enable : Bool)
  | setAutoRefreshCount (n : Nat)
  | setRefreshInterval (count : Nat)
  | writeProtection
  | bank
  | delay (ticks : Nat)
  | memoryView (elementSize : Nat) (byteLength : Nat)
  | cmdIdle (ops : CmdOperands)
  | cmdClkEnable (ops : CmdOperands)
  | cmdPall (ops : CmdOperands)
  | cmdAutoRefresh (ops : CmdOperands)
  | cmdLoadMode (ops : CmdOperands)
  | cmdSelfRefresh (ops : CmdOperands)
  | cmdPowerDown (ops : CmdOperands)
  | cmdReserved7 (ops : CmdOperands)
  deriving DecidableEq, Repr

/-- What the host hands over as one instruction: a HOSTOP, an op byte and its operand record as bytes (30 R101; the
byte form is DESIGN CHOICE, log 2), or a raw 32-bit command word (30 R110). -/
inductive Packet where
  | hostOp (bytes : List Byte)
  | cmdWord (word : Word)
  deriving DecidableEq, Repr

/-- Why a packet selects no instruction. -/
inductive DecodeError where
  /-- The op number is not one of rule R100 (30 R117). -/
  | noOperation (op : Nat)
  /-- The bytes end before the operand record does. -/
  | truncated
  /-- A byte is no value of its operand's type. -/
  | badOperand
  /-- Bytes other than zero follow the operand record. -/
  | trailing
  deriving DecidableEq, Repr

end Sys2Proof
end

