-- ==== Sys2Proof/Config.lean ====
section
/-! DEFINITION. What an implementation fixes, and the free values. The parameters a run reads (00_scope R6 P1 to P5) are
one structure of plain data, `Platform`, which State carries and no step changes (log 4), so that a statement about
every state is a statement about every platform. The values the spec leaves open are constants without a body. -/

namespace Sys2Proof

/-- Seven register words: the parameter `RESET_REGS` (00_scope R6 P5). -/
structure RegWords where
  sdcr1 : Word
  sdcr2 : Word
  sdtr1 : Word
  sdtr2 : Word
  sdcmr : Word
  sdrtr : Word
  sdsr : Word
  deriving DecidableEq, Repr

/-- The parameters P1 to P5 of 00_scope R6. -/
structure Platform where
  /-- P1 `CAP`: entry `n` lists the pins that can carry role number `n` (40 R141, 30 R122). -/
  cap : List (List PinId)
  /-- P2 `REG_BASE`. -/
  regBase : Word
  /-- P3 `BANK_BASE(Bank1)`. -/
  bankBase1 : Word
  /-- P3 `BANK_BASE(Bank2)`. -/
  bankBase2 : Word
  /-- P4 `BANK_SIZE`, in bytes. -/
  bankSize : Nat
  /-- P5 `RESET_REGS`. -/
  resetRegs : RegWords
  deriving DecidableEq, Repr

/-- Free value, P7: the busy duration of the command issued at draw `n`, as a number of busy polls; `none` is never
(00_scope R6 P7, 42 R215, U16). Log 10. -/
opaque Config.busyDuration : Nat → Option Nat

/-- Free value: byte `i` of draw `n` (10 R50 `mem`, 20 R82 and R83 `draw`, U4, U20). Logs 15 and 16. -/
opaque Config.freeByte : Nat → Nat → Byte

/-- P8 `refresh_cycles_of_field`: how many refresh cycles the controller performs for a field value (42 R221, U17).
Log 19. -/
opaque Config.refreshCyclesOfField : BitVec 4 → Nat

end Sys2Proof
end

