-- ==== Sys2Proof/WellFormed.lean ====
section
/-! DEFINITION. Well-formed instructions: a bundle operand has exactly the pins of its variant (10 R34, 40 R143 "exactly
the pins for that width"). The pin list given to a constructor is not checked here: a wrong length is rejection E3 of
the operation itself (40 R143). -/

namespace Sys2Proof

def AddrBus.wf (b : AddrBus) : Bool := b.pins.length == b.variant.lines
def DataBus.wf (b : DataBus) : Bool := b.pins.length == b.variant.lines
def BankAccess.wf (b : BankAccess) : Bool := b.pins.length == b.variant.lines
def ByteEnable.wf (b : ByteEnable) : Bool := b.pins.length == b.variant.lines

/-- A bundle of any type has the pins of its variant. -/
def Bundle.wf : Bundle → Bool
  | .addr b => b.wf
  | .data b => b.wf
  | .bankAccess b => b.wf
  | .byteEnable b => b.wf
  | .ckeCs _ => true
  | .single _ _ => true

/-- Both buses of a Configuration have the pins of their variants. -/
def Configuration.wf (c : Configuration) : Bool := c.addrBus.wf && c.dataBus.wf

/-- Every bundle operand has the pins of its variant. -/
def Instr.wellFormed : Instr → Bool
  | .bindPin _ _ => true
  | .makeAddrBus _ _ => true
  | .makeDataBus _ _ => true
  | .makeBankAccess _ _ => true
  | .makeByteEnable _ _ => true
  | .makeCkecsBank1 _ _ => true
  | .makeCkecsBank2 _ _ => true
  | .makeSingle _ _ => true
  | .preparePins b => b.wf
  | .width b => b.wf
  | .bankOfPins _ => true
  | .makeConfig c => c.wf
  | .configure c ba nbl _ _ _ _ _ => c.wf && ba.wf && nbl.wf
  | .sendCommand _ => true
  | .setWriteProtection _ => true
  | .setAutoRefreshCount _ => true
  | .setRefreshInterval _ => true
  | .writeProtection => true
  | .bank => true
  | .delay _ => true
  | .memoryView _ _ => true
  | .cmdIdle _ => true
  | .cmdClkEnable _ => true
  | .cmdPall _ => true
  | .cmdAutoRefresh _ => true
  | .cmdLoadMode _ => true
  | .cmdSelfRefresh _ => true
  | .cmdPowerDown _ => true
  | .cmdReserved7 _ => true

end Sys2Proof
end

