-- ==== Sys2Proof/Decode.lean ====
section
/-! DEFINITION. The decoder and the encoder. `decode` is total on every packet and rejects by name; `encode` writes a
packet from the same tables. A HOSTOP packet is the op byte of rule R100 and then its operands in the table's order
(log 2): an enumeration, a pin or a flag is one byte; a natural number is its base-128 digits, the lowest first, each but
the last with 128 added; a list of pins is its length and then its pins; a bundle is its variant and then exactly that
variant's pins; the 16-bit payload is two bytes, the low one first. Zero bytes may follow (padding). -/

namespace Sys2Proof

/-! ### The command word (30 R110, R111, R112) -/

/-- Assemble a command word from its six fields: `MODE` [2:0], `CTB2` [3], `CTB1` [4], `NRFS` [8:5], `MRD` [24:9],
reserved [31:25] (30 R110). -/
def assembleCmd (mode : BitVec 3) (ops : CmdOperands) : Word :=
  (ops.reserved.setWidth 32 <<< 25) ||| (ops.mrd.setWidth 32 <<< 9) ||| (ops.nrfs.setWidth 32 <<< 5) |||
    ((BitVec.ofBool ops.ctb1).setWidth 32 <<< 4) ||| ((BitVec.ofBool ops.ctb2).setWidth 32 <<< 3) ||| mode.setWidth 32

/-- `MODE` of a command word (30 R112). -/
def cmdModeBits (w : Word) : BitVec 3 := w.extractLsb' 0 3

/-- All bits of a command word other than `MODE` (30 R112; the reserved bits are kept so that none is lost). -/
def cmdOperands (w : Word) : CmdOperands :=
  { ctb2 := w.getLsbD 3, ctb1 := w.getLsbD 4, nrfs := w.extractLsb' 5 4, mrd := w.extractLsb' 9 16,
    reserved := w.extractLsb' 25 7 }

/-- The `MODE` number of each mode a `Command` may have (30 R110). -/
def modeCode : CmdMode → BitVec 3
  | .clockEnable => 1
  | .prechargeAll => 2
  | .autoRefresh => 3
  | .loadModeRegister => 4

/-- `encode_cmd` (30 R111): bits [31:25] are 0. -/
def encodeCmd (c : Command) : Word :=
  assembleCmd (modeCode c.mode) { ctb2 := c.ctb2, ctb1 := c.ctb1, nrfs := c.nrfs, mrd := c.mrd, reserved := 0 }

/-- The `Command` a word of mode 1 to 4 issues (30 R112, 42 R213); none for the modes that issue none. -/
def commandOf (w : Word) : Option Command :=
  let ops := cmdOperands w
  let mk (m : CmdMode) : Command := { mode := m, ctb1 := ops.ctb1, ctb2 := ops.ctb2, nrfs := ops.nrfs, mrd := ops.mrd }
  match (cmdModeBits w).toNat with
  | 1 => some (mk .clockEnable)
  | 2 => some (mk .prechargeAll)
  | 3 => some (mk .autoRefresh)
  | 4 => some (mk .loadModeRegister)
  | _ => none

/-- The instruction a raw command word is: the row of its `MODE` (30 R110). -/
def decodeCmdWord (w : Word) : Instr :=
  let ops := cmdOperands w
  match (cmdModeBits w).toNat with
  | 0 => .cmdIdle ops
  | 1 => .cmdClkEnable ops
  | 2 => .cmdPall ops
  | 3 => .cmdAutoRefresh ops
  | 4 => .cmdLoadMode ops
  | 5 => .cmdSelfRefresh ops
  | 6 => .cmdPowerDown ops
  | _ => .cmdReserved7 ops

/-! ### Role numbers (30 R122) -/

/-- The number of a role (30 R122). -/
def roleNumber : Role → Nat
  | .a i => i.val
  | .d i => 13 + i.val
  | .nbl i => 45 + i.val
  | .ba i => 49 + i.val
  | .sdcke .bank1 => 51
  | .sdcke .bank2 => 52
  | .sdne .bank1 => 53
  | .sdne .bank2 => 54
  | .sdnwe => 55
  | .sdclk => 56
  | .sdnras => 57
  | .sdncas => 58

/-- The role of a number (30 R122). -/
def roleOfNumber (n : Nat) : Option Role :=
  if h : n < 13 then some (.a ⟨n, h⟩)
  else if h : n - 13 < 32 then some (.d ⟨n - 13, h⟩)
  else if h : n - 45 < 4 then some (.nbl ⟨n - 45, h⟩)
  else if h : n - 49 < 2 then some (.ba ⟨n - 49, h⟩)
  else match n with
    | 51 => some (.sdcke .bank1)
    | 52 => some (.sdcke .bank2)
    | 53 => some (.sdne .bank1)
    | 54 => some (.sdne .bank2)
    | 55 => some .sdnwe
    | 56 => some .sdclk
    | 57 => some .sdnras
    | 58 => some .sdncas
    | _ => none

/-! ### Numbers of the enumerations (log 2; in the order the spec lists the values) -/

def bankNumber : Bank → Nat
  | .bank1 => 0 | .bank2 => 1

def bankOfNumber : Nat → Option Bank
  | 0 => some .bank1 | 1 => some .bank2 | _ => none

def addrVariantNumber : AddrVariant → Nat
  | .a11 => 0 | .a12 => 1 | .a13 => 2

def addrVariantOfNumber : Nat → Option AddrVariant
  | 0 => some .a11 | 1 => some .a12 | 2 => some .a13 | _ => none

def dataVariantNumber : DataVariant → Nat
  | .d8 => 0 | .d16 => 1 | .d32 => 2

def dataVariantOfNumber : Nat → Option DataVariant
  | 0 => some .d8 | 1 => some .d16 | 2 => some .d32 | _ => none

def bankAccessVariantNumber : BankAccessVariant → Nat
  | .ba1 => 0 | .ba2 => 1

def bankAccessVariantOfNumber : Nat → Option BankAccessVariant
  | 0 => some .ba1 | 1 => some .ba2 | _ => none

def byteEnableVariantNumber : ByteEnableVariant → Nat
  | .nbl1 => 0 | .nbl2 => 1 | .nbl4 => 2

def byteEnableVariantOfNumber : Nat → Option ByteEnableVariant
  | 0 => some .nbl1 | 1 => some .nbl2 | 2 => some .nbl4 | _ => none

def singleKindNumber : SingleKind → Nat
  | .clock => 0 | .ras => 1 | .cas => 2 | .we => 3

def singleKindOfNumber : Nat → Option SingleKind
  | 0 => some .clock | 1 => some .ras | 2 => some .cas | 3 => some .we | _ => none

def cmdModeNumber : CmdMode → Nat
  | .clockEnable => 0 | .prechargeAll => 1 | .autoRefresh => 2 | .loadModeRegister => 3

def cmdModeOfNumber : Nat → Option CmdMode
  | 0 => some .clockEnable | 1 => some .prechargeAll | 2 => some .autoRefresh | 3 => some .loadModeRegister | _ => none

def boolNumber : Bool → Nat
  | false => 0 | true => 1

def boolOfNumber : Nat → Option Bool
  | 0 => some false | 1 => some true | _ => none

def nrfsOfNumber (n : Nat) : Option (BitVec 4) := if n < 16 then some (BitVec.ofNat 4 n) else none

/-! ### Reading operands -/

/-- A reader takes bytes and answers a value and the bytes after it, or why there is none. -/
abbrev Parse (α : Type) : Type := List Byte → Except DecodeError (α × List Byte)

/-- Read nothing. -/
def parseDone {α : Type} (a : α) : Parse α := fun bs => .ok (a, bs)

/-- Read one value and then what depends on it. -/
def parseThen {α β : Type} (p : Parse α) (f : α → Parse β) : Parse β := fun bs =>
  match p bs with
  | .ok (a, rest) => f a rest
  | .error e => .error e

/-- One byte that is the number of a value of some type. -/
def getEnum {α : Type} (f : Nat → Option α) : Parse α
  | [] => .error .truncated
  | b :: bs =>
    match f b.toNat with
    | some a => .ok (a, bs)
    | none => .error .badOperand

def getByte : Parse Byte
  | [] => .error .truncated
  | b :: bs => .ok (b, bs)

def getPin : Parse PinId
  | [] => .error .truncated
  | b :: bs => .ok (⟨b.toNat, b.isLt⟩, bs)

/-- A natural number of any size (43 R261: never wrapped). -/
def getNat : Parse Nat
  | [] => .error .truncated
  | b :: bs =>
    if b.toNat < 128 then .ok (b.toNat, bs)
    else
      match getNat bs with
      | .ok (n, rest) => .ok (b.toNat - 128 + 128 * n, rest)
      | .error e => .error e

/-- Exactly `n` pins. -/
def getPins : Nat → Parse (List PinId)
  | 0 => parseDone []
  | n + 1 => parseThen getPin fun p => parseThen (getPins n) fun ps => parseDone (p :: ps)

/-- A list of pins with its length before it. -/
def getPinList : Parse (List PinId) := parseThen getNat getPins

def getAddrBus : Parse AddrBus :=
  parseThen (getEnum addrVariantOfNumber) fun v => parseThen (getPins v.lines) fun ps => parseDone ⟨v, ps⟩

def getDataBus : Parse DataBus :=
  parseThen (getEnum dataVariantOfNumber) fun v => parseThen (getPins v.lines) fun ps => parseDone ⟨v, ps⟩

def getBankAccess : Parse BankAccess :=
  parseThen (getEnum bankAccessVariantOfNumber) fun v => parseThen (getPins v.lines) fun ps => parseDone ⟨v, ps⟩

def getByteEnable : Parse ByteEnable :=
  parseThen (getEnum byteEnableVariantOfNumber) fun v => parseThen (getPins v.lines) fun ps => parseDone ⟨v, ps⟩

def getCkeCs : Parse CkeCs :=
  parseThen (getEnum bankOfNumber) fun b => parseThen getPin fun cke => parseThen getPin fun cs =>
    parseDone ⟨b, cke, cs⟩

/-- A bundle: a byte for its type (0 to 5), then the bundle. -/
def getBundle : Parse Bundle :=
  parseThen getByte fun t =>
    match t.toNat with
    | 0 => parseThen getAddrBus fun b => parseDone (.addr b)
    | 1 => parseThen getDataBus fun b => parseDone (.data b)
    | 2 => parseThen getBankAccess fun b => parseDone (.bankAccess b)
    | 3 => parseThen getByteEnable fun b => parseDone (.byteEnable b)
    | 4 => parseThen getCkeCs fun b => parseDone (.ckeCs b)
    | 5 => parseThen (getEnum singleKindOfNumber) fun k => parseThen getPin fun p => parseDone (.single k p)
    | _ => fun _ => .error .badOperand

def getTiming : Parse Timing :=
  parseThen getNat fun cas => parseThen getNat fun tMrd => parseThen getNat fun tXsr => parseThen getNat fun tRas =>
  parseThen getNat fun tRc => parseThen getNat fun tWr => parseThen getNat fun tRp => parseThen getNat fun tRcd =>
    parseDone { cas, tMrd, tXsr, tRas, tRc, tWr, tRp, tRcd }

def getConfiguration : Parse Configuration :=
  parseThen getAddrBus fun addrBus => parseThen getDataBus fun dataBus =>
  parseThen getNat fun columnBits => parseThen getNat fun rowBits =>
  parseThen getNat fun clockDivisor => parseThen getNat fun pipelineDelay =>
  parseThen (getEnum boolOfNumber) fun writeProtection => parseThen (getEnum boolOfNumber) fun burstRead =>
  parseThen getTiming fun timing =>
    parseDone { addrBus, dataBus, columnBits, rowBits, clockDivisor, pipelineDelay, writeProtection, burstRead, timing }

def getCommand : Parse Command :=
  parseThen (getEnum cmdModeOfNumber) fun mode =>
  parseThen (getEnum boolOfNumber) fun ctb1 => parseThen (getEnum boolOfNumber) fun ctb2 =>
  parseThen (getEnum nrfsOfNumber) fun nrfs => parseThen getByte fun lo => parseThen getByte fun hi =>
    parseDone { mode, ctb1, ctb2, nrfs, mrd := hi ++ lo }

def getConfigure : Parse Instr :=
  parseThen getConfiguration fun cfg => parseThen getBankAccess fun ba => parseThen getByteEnable fun nbl =>
  parseThen getPin fun clk => parseThen getPin fun ras => parseThen getPin fun cas =>
  parseThen getCkeCs fun sel => parseThen getPin fun we => parseDone (.configure cfg ba nbl clk ras cas sel we)

/-- The operand record of an op number, and the instruction (30 R100); every other number is no operation (30 R117). -/
def getOperands (op : Nat) : Parse Instr :=
  match op with
  | 0x01 => parseThen getPin fun p => parseThen (getEnum roleOfNumber) fun r => parseDone (.bindPin p r)
  | 0x02 => parseThen (getEnum addrVariantOfNumber) fun v => parseThen getPinList fun ps => parseDone (.makeAddrBus v ps)
  | 0x03 => parseThen (getEnum dataVariantOfNumber) fun v => parseThen getPinList fun ps => parseDone (.makeDataBus v ps)
  | 0x04 =>
    parseThen (getEnum bankAccessVariantOfNumber) fun v => parseThen getPinList fun ps =>
      parseDone (.makeBankAccess v ps)
  | 0x05 =>
    parseThen (getEnum byteEnableVariantOfNumber) fun v => parseThen getPinList fun ps =>
      parseDone (.makeByteEnable v ps)
  | 0x06 => parseThen getPin fun cke => parseThen getPin fun cs => parseDone (.makeCkecsBank1 cke cs)
  | 0x07 => parseThen getPin fun cke => parseThen getPin fun cs => parseDone (.makeCkecsBank2 cke cs)
  | 0x08 => parseThen (getEnum singleKindOfNumber) fun k => parseThen getPin fun p => parseDone (.makeSingle k p)
  | 0x09 => parseThen getBundle fun b => parseDone (.preparePins b)
  | 0x0A => parseThen getDataBus fun b => parseDone (.width b)
  | 0x0B => parseThen getCkeCs fun b => parseDone (.bankOfPins b)
  | 0x10 => parseThen getConfiguration fun c => parseDone (.makeConfig c)
  | 0x11 => getConfigure
  | 0x20 => parseThen getCommand fun c => parseDone (.sendCommand c)
  | 0x21 => parseThen (getEnum boolOfNumber) fun e => parseDone (.setWriteProtection e)
  | 0x22 => parseThen getNat fun n => parseDone (.setAutoRefreshCount n)
  | 0x23 => parseThen getNat fun n => parseDone (.setRefreshInterval n)
  | 0x24 => parseDone .writeProtection
  | 0x25 => parseDone .bank
  | 0x26 => parseThen getNat fun n => parseDone (.delay n)
  | 0x30 => parseThen getNat fun e => parseThen getNat fun n => parseDone (.memoryView e n)
  | n => fun _ => .error (.noOperation n)

/-- A HOSTOP: the op byte, its operand record, and nothing but zero bytes after it. -/
def decodeHostOp : List Byte → Except DecodeError Instr
  | [] => .error .truncated
  | op :: bs =>
    match getOperands op.toNat bs with
    | .ok (i, rest) => if rest.all (· == 0) then .ok i else .error .trailing
    | .error e => .error e

/-- The instruction of a packet, or why it selects none. -/
def decode : Packet → Except DecodeError Instr
  | .hostOp bs => decodeHostOp bs
  | .cmdWord w => .ok (decodeCmdWord w)

/-! ### Writing packets -/

def putNum (n : Nat) : List Byte := [BitVec.ofNat 8 n]

/-- A natural number of any size; `fuel` bounds the digits. -/
def putNatFuel : Nat → Nat → List Byte
  | 0, n => putNum n
  | fuel + 1, n => if n < 128 then putNum n else BitVec.ofNat 8 (n % 128 + 128) :: putNatFuel fuel (n / 128)

def putNat (n : Nat) : List Byte := putNatFuel n n

def putPin (p : PinId) : List Byte := putNum p.val

def putPins (ps : List PinId) : List Byte := ps.flatMap putPin

def putPinList (ps : List PinId) : List Byte := putNat ps.length ++ putPins ps

def putAddrBus (b : AddrBus) : List Byte := putNum (addrVariantNumber b.variant) ++ putPins b.pins
def putDataBus (b : DataBus) : List Byte := putNum (dataVariantNumber b.variant) ++ putPins b.pins
def putBankAccess (b : BankAccess) : List Byte := putNum (bankAccessVariantNumber b.variant) ++ putPins b.pins
def putByteEnable (b : ByteEnable) : List Byte := putNum (byteEnableVariantNumber b.variant) ++ putPins b.pins
def putCkeCs (b : CkeCs) : List Byte := putNum (bankNumber b.bank) ++ putPin b.cke ++ putPin b.cs

def putBundle : Bundle → List Byte
  | .addr b => putNum 0 ++ putAddrBus b
  | .data b => putNum 1 ++ putDataBus b
  | .bankAccess b => putNum 2 ++ putBankAccess b
  | .byteEnable b => putNum 3 ++ putByteEnable b
  | .ckeCs b => putNum 4 ++ putCkeCs b
  | .single k p => putNum 5 ++ putNum (singleKindNumber k) ++ putPin p

def putTiming (t : Timing) : List Byte :=
  putNat t.cas ++ putNat t.tMrd ++ putNat t.tXsr ++ putNat t.tRas ++ putNat t.tRc ++ putNat t.tWr ++ putNat t.tRp ++
    putNat t.tRcd

def putConfiguration (c : Configuration) : List Byte :=
  putAddrBus c.addrBus ++ putDataBus c.dataBus ++ putNat c.columnBits ++ putNat c.rowBits ++ putNat c.clockDivisor ++
    putNat c.pipelineDelay ++ putNum (boolNumber c.writeProtection) ++ putNum (boolNumber c.burstRead) ++
    putTiming c.timing

def putCommand (c : Command) : List Byte :=
  putNum (cmdModeNumber c.mode) ++ putNum (boolNumber c.ctb1) ++ putNum (boolNumber c.ctb2) ++ putNum c.nrfs.toNat ++
    [c.mrd.extractLsb' 0 8, c.mrd.extractLsb' 8 8]

/-- The packet of an instruction. -/
def encode : Instr → Packet
  | .bindPin p r => .hostOp (0x01 :: (putPin p ++ putNum (roleNumber r)))
  | .makeAddrBus v ps => .hostOp (0x02 :: (putNum (addrVariantNumber v) ++ putPinList ps))
  | .makeDataBus v ps => .hostOp (0x03 :: (putNum (dataVariantNumber v) ++ putPinList ps))
  | .makeBankAccess v ps => .hostOp (0x04 :: (putNum (bankAccessVariantNumber v) ++ putPinList ps))
  | .makeByteEnable v ps => .hostOp (0x05 :: (putNum (byteEnableVariantNumber v) ++ putPinList ps))
  | .makeCkecsBank1 cke cs => .hostOp (0x06 :: (putPin cke ++ putPin cs))
  | .makeCkecsBank2 cke cs => .hostOp (0x07 :: (putPin cke ++ putPin cs))
  | .makeSingle k p => .hostOp (0x08 :: (putNum (singleKindNumber k) ++ putPin p))
  | .preparePins b => .hostOp (0x09 :: putBundle b)
  | .width b => .hostOp (0x0A :: putDataBus b)
  | .bankOfPins b => .hostOp (0x0B :: putCkeCs b)
  | .makeConfig c => .hostOp (0x10 :: putConfiguration c)
  | .configure c ba nbl clk ras cas sel we =>
    .hostOp (0x11 :: (putConfiguration c ++ putBankAccess ba ++ putByteEnable nbl ++ putPin clk ++ putPin ras ++
      putPin cas ++ putCkeCs sel ++ putPin we))
  | .sendCommand c => .hostOp (0x20 :: putCommand c)
  | .setWriteProtection e => .hostOp (0x21 :: putNum (boolNumber e))
  | .setAutoRefreshCount n => .hostOp (0x22 :: putNat n)
  | .setRefreshInterval n => .hostOp (0x23 :: putNat n)
  | .writeProtection => .hostOp [0x24]
  | .bank => .hostOp [0x25]
  | .delay n => .hostOp (0x26 :: putNat n)
  | .memoryView e n => .hostOp (0x30 :: (putNat e ++ putNat n))
  | .cmdIdle ops => .cmdWord (assembleCmd 0 ops)
  | .cmdClkEnable ops => .cmdWord (assembleCmd 1 ops)
  | .cmdPall ops => .cmdWord (assembleCmd 2 ops)
  | .cmdAutoRefresh ops => .cmdWord (assembleCmd 3 ops)
  | .cmdLoadMode ops => .cmdWord (assembleCmd 4 ops)
  | .cmdSelfRefresh ops => .cmdWord (assembleCmd 5 ops)
  | .cmdPowerDown ops => .cmdWord (assembleCmd 6 ops)
  | .cmdReserved7 ops => .cmdWord (assembleCmd 7 ops)

/-! ### The opcode table's numbering -/

/-- The low `n` bytes of a number, the lowest first. -/
def lowBytes : Nat → Nat → List Byte
  | 0, _ => []
  | n + 1, w => BitVec.ofNat 8 w :: lowBytes n (w / 256)

/-- The packet of a table row's bits: a CMDW row has 32 bits; a HOSTOP row has the op number alone, and its operand
record is zero bytes (48 is more than the longest record of zeros has). -/
def tablePacket (nbits w : Nat) : Packet :=
  if nbits = 32 then .cmdWord (BitVec.ofNat 32 w) else .hostOp (lowBytes (nbits / 8) w ++ List.replicate 48 0)

/-- The instruction the decoder reads from a table row's bits. -/
def decodeTableWord (nbits w : Nat) : Option Instr :=
  match decode (tablePacket nbits w) with
  | .ok i => some i
  | .error _ => none

end Sys2Proof
end

