-- ==== Sys2Proof/Machine/Fields.lean ====
section
/-! DEFINITION. The bit fields of the register words (10_state R23, R26, R28, R29, R30, R31) and the one operation that
replaces fields of a word (20_memory R75, R76). -/

namespace Sys2Proof.Machine

/-- A field of a register word: `width` bits from bit `lo` up. -/
structure Field where
  lo : Nat
  width : Nat
  deriving DecidableEq, Repr

/-! Control word CRW (10 R23). -/
def fNC : Field := ⟨0, 2⟩
def fNR : Field := ⟨2, 2⟩
def fMWID : Field := ⟨4, 2⟩
def fNB : Field := ⟨6, 1⟩
def fCAS : Field := ⟨7, 2⟩
def fWP : Field := ⟨9, 1⟩
def fSDCLK : Field := ⟨10, 2⟩
def fRBURST : Field := ⟨12, 1⟩
def fRPIPE : Field := ⟨13, 2⟩

/-! Timing word TRW (10 R26). -/
def fTMRD : Field := ⟨0, 4⟩
def fTXSR : Field := ⟨4, 4⟩
def fTRAS : Field := ⟨8, 4⟩
def fTRC : Field := ⟨12, 4⟩
def fTWR : Field := ⟨16, 4⟩
def fTRP : Field := ⟨20, 4⟩
def fTRCD : Field := ⟨24, 4⟩

/-! Command word CMDW (10 R28): the two fields that read back. -/
def fNRFS : Field := ⟨5, 4⟩
def fMRD : Field := ⟨9, 16⟩

/-! Refresh-timer word RTW (10 R29). -/
def fCOUNT : Field := ⟨1, 13⟩

/-- `(1 << width) - 1`, at the field's place (20 R75). -/
def fieldMask (f : Field) : Word := BitVec.ofNat 32 (2 ^ f.width - 1) <<< f.lo

/-- The value of a field of a word, an unsigned integer (00 R9). -/
def getField (f : Field) (w : Word) : Nat := (w.toNat >>> f.lo) % 2 ^ f.width

/-- The word with one field replaced (20 R75). The value is below `2 ^ width` wherever the spec forms one. -/
def insertField (w : Word) (f : Field) (v : Nat) : Word :=
  (w &&& ~~~ fieldMask f) ||| (BitVec.ofNat 32 (v % 2 ^ f.width) <<< f.lo)

/-- The word with every listed field replaced, in one word (20 R76). -/
def insertFields (w : Word) (fs : List (Field × Nat)) : Word :=
  fs.foldl (fun acc fv => insertField acc fv.1 fv.2) w

/-! Writable masks (10 R31). -/
def maskCR : Word := 0x00007FFF
def maskTR : Word := 0x0FFFFFFF
def maskCMR : Word := 0x01FFFFE0
def maskRTR : Word := 0x00003FFE

/-- The status word with `BUSY`, bit 5, set (10 R30). -/
def busyWord : Word := 0x00000020

end Sys2Proof.Machine
end

