-- ==== Sys2Proof/Machine/Operands.lean ====
section
/-! DEFINITION. What operands stand for: the position lists of the bundles (40 R144 to R150), the pins of a bundle in
position order, and the codes of configuration values in the register fields (30 R113 to R116). -/

namespace Sys2Proof.Machine

/-! ### Position lists -/

/-- `A0 .. A10`, `A0 .. A11`, `A0 .. A12` (40 R144). -/
def addrRoles (v : AddrVariant) : List Role := ((List.finRange 13).take v.lines).map .a

/-- `D0 .. D7`, `D0 .. D15`, `D0 .. D31` (40 R145). -/
def dataRoles (v : DataVariant) : List Role := ((List.finRange 32).take v.lines).map .d

/-- `BA0`, or `BA0` and `BA1` (40 R146). -/
def bankAccessRoles (v : BankAccessVariant) : List Role := ((List.finRange 2).take v.lines).map .ba

/-- `NBL0`, `NBL0 .. NBL1`, `NBL0 .. NBL3` (40 R147). -/
def byteEnableRoles (v : ByteEnableVariant) : List Role := ((List.finRange 4).take v.lines).map .nbl

/-- The clock-enable and the chip-select of a bank (40 R148, R149). -/
def ckeCsRoles (b : Bank) : List Role := [.sdcke b, .sdne b]

/-- The role of a single-pin group (40 R150). -/
def singleRole : SingleKind → Role
  | .clock => .sdclk
  | .ras => .sdnras
  | .cas => .sdncas
  | .we => .sdnwe

/-- The position list of a bundle. -/
def bundleRoles : Bundle → List Role
  | .addr b => addrRoles b.variant
  | .data b => dataRoles b.variant
  | .bankAccess b => bankAccessRoles b.variant
  | .byteEnable b => byteEnableRoles b.variant
  | .ckeCs b => ckeCsRoles b.bank
  | .single k _ => [singleRole k]

/-- The pins of a bundle, in position order (40 R151). -/
def bundlePins : Bundle → List PinId
  | .addr b => b.pins
  | .data b => b.pins
  | .bankAccess b => b.pins
  | .byteEnable b => b.pins
  | .ckeCs b => [b.cke, b.cs]
  | .single _ p => [p]

/-! ### Codes -/

/-- The data-width code: 8, 16, 32 lines are 0, 1, 2 (30 R116, 40 R152). -/
def widthCode : DataVariant → Nat
  | .d8 => 0
  | .d16 => 1
  | .d32 => 2

/-- `bit` of the pseudocode: 1 if set, else 0. -/
def bit (b : Bool) : Nat := if b then 1 else 0

/-- The `NB` code: `BA1` is 0 (2 internal banks), `BA2` is 1 (4 internal banks) (30 R113). -/
def bankCountCode : BankAccessVariant → Nat
  | .ba1 => 0
  | .ba2 => 1

/-- The control fields that exist once in the controller, with their codes (41 R186, R187; 10 R25). -/
def sharedControlFields (c : Configuration) : List (Field × Nat) :=
  [(fSDCLK, c.clockDivisor), (fRBURST, bit c.burstRead), (fRPIPE, c.pipelineDelay)]

/-- The control fields of one bank, with their codes (41 R186, R187). -/
def bankControlFields (c : Configuration) (ba : BankAccess) : List (Field × Nat) :=
  [(fNC, c.columnBits - 8), (fNR, c.rowBits - 11), (fMWID, widthCode c.dataBus.variant),
   (fNB, bankCountCode ba.variant), (fCAS, c.timing.cas), (fWP, bit c.writeProtection)]

/-- The timing fields that exist once in the controller: the configured value minus one (41 R189; 10 R27). -/
def sharedTimingFields (t : Timing) : List (Field × Nat) :=
  [(fTRC, t.tRc - 1), (fTRP, t.tRp - 1)]

/-- The timing fields of one bank: the configured value minus one (41 R189). -/
def bankTimingFields (t : Timing) : List (Field × Nat) :=
  [(fTMRD, t.tMrd - 1), (fTXSR, t.tXsr - 1), (fTRAS, t.tRas - 1), (fTWR, t.tWr - 1), (fTRCD, t.tRcd - 1)]

/-- All seven timing fields, for the single write of Bank1 (41 R188). -/
def allTimingFields (t : Timing) : List (Field × Nat) :=
  [(fTMRD, t.tMrd - 1), (fTXSR, t.tXsr - 1), (fTRAS, t.tRas - 1), (fTRC, t.tRc - 1), (fTWR, t.tWr - 1),
   (fTRP, t.tRp - 1), (fTRCD, t.tRcd - 1)]

/-- The `n` little-endian bytes of a value (20 R77). -/
def littleEndianBytes : Nat → Nat → List Byte
  | 0, _ => []
  | n + 1, v => BitVec.ofNat 8 v :: littleEndianBytes n (v / 256)

/-- The little-endian value of bytes (20 R77, R82). -/
def littleEndianValue : List Byte → Nat
  | [] => 0
  | b :: bs => b.toNat + 256 * littleEndianValue bs

end Sys2Proof.Machine
end

