-- ==== Sys2Proof/Machine/Defaults.lean ====
section
/-! DEFINITION. The conditions a platform must meet before any run (40 R141, 20 R79, 10 R50) and the default platform of
`State.reset`: the spec's general-knowledge capability table G12, reset words G10 and bank size G15, the document's
window bases (43 R264), and a register base of the model's choice (logs 5, 6, 7). -/

namespace Sys2Proof.Machine

/-- The pins that can carry a role: `CAP(r)` (40 R141). -/
def capOf (p : Platform) (r : Role) : List PinId := p.cap.getD (roleNumber r) []

/-- R141: an entry for each of the 59 roles, none empty, none with a pin twice (a set), and exactly two pins for the
write-enable, the two clock-enables and the two chip-selects (role numbers 51 to 55). -/
def capOk (cap : List (List PinId)) : Bool :=
  cap.length == 59 && cap.all (fun ps => !ps.isEmpty && decide ps.Nodup) &&
    [51, 52, 53, 54, 55].all (fun n => (cap.getD n []).length == 2)

/-- `[a, a + n)` and `[b, b + m)` have no address in common (20 R79). An empty region has none with any: no rule says that
`BANK_SIZE` is not 0, and the model admits 0 (DESIGN CHOICE, log 24). -/
def disjoint (a n b m : Nat) : Bool := decide (n = 0) || decide (m = 0) || decide (a + n ≤ b) || decide (b + m ≤ a)

/-- R79: the register block and the two windows are pairwise disjoint and none wraps past `2^32`. No rule asks that
`REG_BASE` be a multiple of 4, and the model does not (DESIGN CHOICE, log 23). -/
def regionsOk (p : Platform) : Bool :=
  let r := p.regBase.toNat
  let b1 := p.bankBase1.toNat
  let b2 := p.bankBase2.toNat
  decide (r + 0x1C ≤ 2 ^ 32) && decide (b1 + p.bankSize ≤ 2 ^ 32) && decide (b2 + p.bankSize ≤ 2 ^ 32) &&
    disjoint r 0x1C b1 p.bankSize && disjoint r 0x1C b2 p.bankSize && disjoint b1 p.bankSize b2 p.bankSize

/-- R50: no reserved bit is set in `RESET_REGS`, and the status word is 0. -/
def resetRegsOk (r : RegWords) : Bool :=
  r.sdcr1 &&& ~~~ maskCR == 0 && r.sdcr2 &&& ~~~ maskCR == 0 && r.sdtr1 &&& ~~~ maskTR == 0 &&
    r.sdtr2 &&& ~~~ maskTR == 0 && r.sdcmr &&& ~~~ maskCMR == 0 && r.sdrtr &&& ~~~ maskRTR == 0 && r.sdsr == 0

/-- A platform a run may have; any other is refused before any run (20 R79, 60 R277). -/
def platformOk (p : Platform) : Bool := capOk p.cap && regionsOk p && resetRegsOk p.resetRegs

/-- Line `line` of a port; port 0 is `PA`, port 8 is `PI` (log 3). -/
def portPin (port : Nat) (lines : List Nat) : List PinId := lines.map fun l => Fin.ofNat 256 (16 * port + l)

/-- One pin for each of several roles in a row. -/
def onePinEach (ps : List PinId) : List (List PinId) := ps.map fun p => [p]

/-- The default capability table (93 G12), PRESUMED, log 5: roles in the order of 30 R122. -/
def defaultCap : List (List PinId) :=
  -- A0..A12
  onePinEach (portPin 5 [0, 1, 2, 3, 4, 5, 12, 13, 14, 15]) ++ onePinEach (portPin 6 [0, 1, 2]) ++
  -- D0..D15
  onePinEach (portPin 3 [14, 15, 0, 1]) ++ onePinEach (portPin 4 [7, 8, 9, 10, 11, 12, 13, 14, 15]) ++
  onePinEach (portPin 3 [8, 9, 10]) ++
  -- D16..D31
  onePinEach (portPin 7 [8, 9, 10, 11, 12, 13, 14, 15]) ++ onePinEach (portPin 8 [0, 1, 2, 3, 6, 7, 9, 10]) ++
  -- NBL0..NBL3, BA0, BA1
  onePinEach (portPin 4 [0, 1]) ++ onePinEach (portPin 8 [4, 5]) ++ onePinEach (portPin 6 [4, 5]) ++
  -- SDCKE0, SDCKE1, SDNE0, SDNE1, SDNWE
  [portPin 2 [3] ++ portPin 7 [2], portPin 1 [5] ++ portPin 7 [7], portPin 2 [2] ++ portPin 7 [3],
   portPin 1 [6] ++ portPin 7 [6], portPin 2 [0] ++ portPin 7 [5]] ++
  -- SDCLK, SDNRAS, SDNCAS
  onePinEach (portPin 6 [8]) ++ onePinEach (portPin 5 [11]) ++ onePinEach (portPin 6 [15])

/-- The reset words of the vendor part (93 G10, the defaults of R50), PRESUMED, log 6. -/
def defaultResetRegs : RegWords :=
  { sdcr1 := 0x000002D0, sdcr2 := 0x000002D0, sdtr1 := 0x0FFFFFFF, sdtr2 := 0x0FFFFFFF, sdcmr := 0, sdrtr := 0,
    sdsr := 0 }

/-- The platform of `State.reset`. The window bases are the document's (43 R264); `bankSize` is 256 MiB (93 G15,
PRESUMED) and `regBase` a DESIGN CHOICE that keeps the regions disjoint, log 7. -/
def defaultPlatform : Platform :=
  { cap := defaultCap, regBase := 0x40000000, bankBase1 := 0xA0000000, bankBase2 := 0xD0000000,
    bankSize := 0x10000000, resetRegs := defaultResetRegs }

end Sys2Proof.Machine
end

