-- ==== Sys2Proof/Machine/State.lean ====
section
/-! DEFINITION. The machine's state as plain data, the reasons a step stops, and the state after reset
(10_state R20 to R52, R50). The last eight fields are the model's own, not the spec's (INVENTORY.md, "State"). -/

namespace Sys2Proof.Machine

/-- The named faults of 60 R276. -/
inductive Fault where
  /-- A register transaction with the clock gate off (20 R71). Raised by `regRead` and `regWrite`; safe: the machine
  stops where the document defines nothing. -/
  | gateOff
  /-- A write of `SDCMR` while `BUSY` is 1 (20 R73). Raised by `regWrite`; safe: the machine stops where the document
  defines nothing. -/
  | commandWhileBusy
  deriving DecidableEq, Repr

/-- Why a step has no next state (60 R277). -/
inductive Refusal where
  /-- An instruction that has no meaning yet; raised by `exec` alone; safe. -/
  | notModelled (mnemonic : String)
  /-- A packet that selects no instruction (30 R117); raised by `serve`; safe. -/
  | undecodable (e : DecodeError)
  /-- A raw command word of `MODE` 5 (42 R224); raised by its meaning and by `regWrite`; safe. -/
  | selfRefresh
  /-- A raw command word of `MODE` 6 (42 R224); raised by its meaning and by `regWrite`; safe. -/
  | powerDown
  /-- A raw command word of `MODE` 7 (42 R225); raised by its meaning and by `regWrite`; safe. -/
  | reservedMode
  /-- An operand value that does not exist: a bundle or a Configuration the host does not hold (70 R303, 10 R34; log 8),
  a view no MEMORY_VIEW can have returned, or an element beyond a view's count (43 R262; log 22). Raised by the
  operations and accesses that take one; safe. -/
  | noSuchValue
  /-- A register access that is not one aligned 32-bit word (20 R74); raised by a raw access; safe. -/
  | registerAccess
  /-- An access not wholly inside one window (20 R81); raised by window accesses; safe. -/
  | outsideWindows
  /-- A platform the spec does not admit (20 R79, 40 R141, 10 R50); raised by `step`; safe. -/
  | badPlatform
  deriving DecidableEq, Repr

/-- The seven registers (10 R20). -/
inductive Reg where
  | sdcr1 | sdcr2 | sdtr1 | sdtr2 | sdcmr | sdrtr | sdsr
  deriving DecidableEq, Repr

/-- The init phase of a bank (10 R41). -/
inductive Phase where
  | powerUp | clockEnabled | precharged | refreshed | modeLoaded | violated
  deriving DecidableEq, Repr

/-- The binding of a pin (10 R33). -/
inductive Binding where
  | unassigned
  | bound (role : Role)
  deriving DecidableEq, Repr

/-- The record of a pin (10 R33). A false flag means "not known". -/
structure PinState where
  binding : Binding := .unassigned
  inBundle : Bool := false
  slewHigh : Bool := false
  pullupOff : Bool := false
  deriving DecidableEq, Repr

/-- The rejection codes E1 to E9 (60 R270). -/
inductive Rejection where
  | pinRoleRejected | pinNotAvailable | bundleMalformed | bankPinMismatch | timingZero | fieldOutOfRange
  | controllerUnavailable | noHandle | elementSizeZero
  deriving DecidableEq, Repr

/-- The event history's entries (10 R47). -/
inductive Event where
  | gateEnabled
  | pinPrepared (p : PinId)
  | regWritten (r : Reg) (value : Word)
  | regReadEv (r : Reg) (value : Word)
  | cmdIssued (cmd : Command)
  | cmdDone
  | delayed (ticks : Nat)
  | rejected (code : Nat)
  | memReadEv (addr n : Nat) (bytes : List Byte)
  | memWriteEv (addr n : Nat) (bytes : List Byte)
  deriving DecidableEq, Repr

/-- What an operation returns to the host (30 R100 "result"; 60 R270). -/
inductive Result where
  | unit
  | boundPin (p : PinId) (r : Role)
  | bundle (b : Bundle)
  | code (n : Nat)
  | bank (b : Bank)
  | config (c : Configuration)
  | handle (b : Bank)
  | flag (b : Bool)
  | view (base : Word) (count : Nat)
  | word (w : Word)
  | value (n : Nat)
  | rejected (code : Rejection)
  deriving DecidableEq, Repr

/-- The content of one bank (10 R48): `cells` lists (offset, byte) pairs with offsets strictly rising; a byte not listed
is byte `offset` of the free draw `draw`. -/
structure Memory where
  draw : Nat
  cells : List Host.Cell
  deriving DecidableEq, Repr

/-- A Memory View with its stride: base, element count, element size (43 R260, R262). -/
structure View where
  base : Word
  count : Nat
  elementSize : Nat
  deriving DecidableEq, Repr

/-- What the host asks next: an instruction, an access to an element of a Memory View (43 R262; log 22), or an access of
`n` bytes at an address (20 R82, R83, or a raw register access; log 14). -/
inductive Request where
  | packet (p : Packet)
  | read (addr : Word) (n : Nat)
  | write (addr : Word) (n : Nat) (value : Nat)
  | readElement (v : View) (i : Nat)
  | writeElement (v : View) (i : Nat) (value : Nat)
  deriving DecidableEq, Repr

structure State where
  sdcr1 : Word
  sdcr2 : Word
  sdtr1 : Word
  sdtr2 : Word
  sdcmr : Word
  sdrtr : Word
  sdsr : Word
  clkGate : Bool
  pins : Vector PinState 256
  handle : Option Bank
  phase1 : Phase
  phase2 : Phase
  delayOk1 : Bool
  delayOk2 : Bool
  refreshProgrammed : Bool
  inflight : Option Command
  events : List Event
  mem1 : Memory
  mem2 : Memory
  faulted : Option Fault
  platform : Platform
  bundles : List Bundle
  configs : List Configuration
  result : Option Result
  polling : Bool
  busyLeft : Option Nat
  draws : Nat
  queue : List Request
  deriving DecidableEq, Repr

/-- The state after reset of a machine with platform `p` (10 R50, 70 R300). -/
def State.resetOn (p : Platform) : State :=
  { sdcr1 := p.resetRegs.sdcr1, sdcr2 := p.resetRegs.sdcr2, sdtr1 := p.resetRegs.sdtr1, sdtr2 := p.resetRegs.sdtr2,
    sdcmr := p.resetRegs.sdcmr, sdrtr := p.resetRegs.sdrtr, sdsr := 0,
    clkGate := false, pins := Vector.replicate 256 {}, handle := none,
    phase1 := .powerUp, phase2 := .powerUp, delayOk1 := false, delayOk2 := false, refreshProgrammed := false,
    inflight := none, events := [], mem1 := { draw := 0, cells := [] }, mem2 := { draw := 1, cells := [] },
    faulted := none, platform := p, bundles := [], configs := [], result := none, polling := false, busyLeft := none,
    draws := 2, queue := [] }

/-- The machine right after reset, on the default platform. -/
def State.reset : State := State.resetOn defaultPlatform

end Sys2Proof.Machine
end

