-- ==== Sys2Proof/Machine/Flags.lean ====
section
/-! DEFINITION. The one status flag, `SDSR.BUSY` (10_state R30, R46): set with an issued command (42 R213), cleared by
the engine (42 R215), read by the poll loop (42 R214). There are no condition codes. -/

namespace Sys2Proof.Machine

/-- `SDSR.BUSY` (10 R30). -/
def busy (s : State) : Bool := s.sdsr.getLsbD 5

/-- `SDSR.BUSY <- 1` (42 R213). -/
def setBusy (s : State) : State := { s with sdsr := s.sdsr ||| busyWord }

/-- `SDSR.BUSY <- 0` (42 R215). -/
def clearBusy (s : State) : State := { s with sdsr := s.sdsr &&& ~~~ busyWord }

end Sys2Proof.Machine
end

