-- ==== Sys2Proof/Machine/Ops.lean ====
section
/-! DEFINITION. The operations every meaning is written over: events, pins, rejection and fault (what SDSEQ has in place of
exceptions, 60_exceptions R270 to R276; there is nothing to return from, R275), the engine's step, register transactions
(20_memory R71 to R76), command issue and the phase tracker (42 R213, R216), and window accesses (20 R81 to R83). -/

namespace Sys2Proof.Machine

/-! ### What an action answers -/

/-- What a primitive action answers: a value and the state after it; a faulted state (60 R276); a refusal (60 R277). -/
inductive Act (α : Type) where
  | done (a : α) (s : State)
  | halt (s : State)
  | refuse (r : Refusal)

/-- One action and then the next; a fault or a refusal ends the operation. -/
def actThen {α β : Type} (x : Act α) (f : α → State → Act β) : Act β :=
  match x with
  | .done a s => f a s
  | .halt s => .halt s
  | .refuse r => .refuse r

/-- The end of an operation: the value returned to the host is recorded in `result`. -/
def actEnd (x : Act Result) : Host.Outcome State Fault Refusal :=
  match x with
  | .done r s => .next { s with result := some r }
  | .halt s => .next { s with result := none }
  | .refuse r => .refused r

/-! ### Accessors by register, bank and pin -/

/-- `Reg[r]` (00 R10). -/
def regValue (s : State) : Reg → Word
  | .sdcr1 => s.sdcr1
  | .sdcr2 => s.sdcr2
  | .sdtr1 => s.sdtr1
  | .sdtr2 => s.sdtr2
  | .sdcmr => s.sdcmr
  | .sdrtr => s.sdrtr
  | .sdsr => s.sdsr

/-- The control register of a bank (10 R20). -/
def controlReg : Bank → Reg
  | .bank1 => .sdcr1
  | .bank2 => .sdcr2

/-- The timing register of a bank (10 R20). -/
def timingReg : Bank → Reg
  | .bank1 => .sdtr1
  | .bank2 => .sdtr2

/-- `phase[b]` (10 R41). -/
def phaseOf (s : State) : Bank → Phase
  | .bank1 => s.phase1
  | .bank2 => s.phase2

/-- `delay_ok[b]` (10 R42). -/
def delayOkOf (s : State) : Bank → Bool
  | .bank1 => s.delayOk1
  | .bank2 => s.delayOk2

/-- `phase[b], delay_ok[b] <- p, d`. -/
def setTrack (b : Bank) (p : Phase) (d : Bool) (s : State) : State :=
  match b with
  | .bank1 => { s with phase1 := p, delayOk1 := d }
  | .bank2 => { s with phase2 := p, delayOk2 := d }

/-- `mem[b]` (10 R48). -/
def memOf (s : State) : Bank → Memory
  | .bank1 => s.mem1
  | .bank2 => s.mem2

/-- `mem[b] <- m`. -/
def setMem (b : Bank) (m : Memory) (s : State) : State :=
  match b with
  | .bank1 => { s with mem1 := m }
  | .bank2 => { s with mem2 := m }

/-- `BANK_BASE(b)` (43 R264). -/
def bankBase (p : Platform) : Bank → Word
  | .bank1 => p.bankBase1
  | .bank2 => p.bankBase2

/-- `pin[p]` (10 R33). -/
def pinOf (s : State) (p : PinId) : PinState := s.pins[p.val]

/-- `pin[p] <- r`. -/
def setPin (p : PinId) (r : PinState) (s : State) : State := { s with pins := s.pins.set p.val r }

/-- Append an event (10 R47). -/
def emit (e : Event) (s : State) : State := { s with events := s.events ++ [e] }

/-! ### Rejection and fault -/

/-- The number of a rejection code (60 R270). -/
def rejectionNumber : Rejection → Nat
  | .pinRoleRejected => 1
  | .pinNotAvailable => 2
  | .bundleMalformed => 3
  | .bankPinMismatch => 4
  | .timingZero => 5
  | .fieldOutOfRange => 6
  | .controllerUnavailable => 7
  | .noHandle => 8
  | .elementSizeZero => 9

/-- `reject E<n>` (60 R270): no state changes except that `Rejected(n)` is appended, and the host gets the code. -/
def reject (code : Rejection) (s : State) : Host.Outcome State Fault Refusal :=
  .next { emit (.rejected (rejectionNumber code)) s with result := some (.rejected code) }

/-- `fault <name>` (60 R276): the state is marked faulted and the operation ends; `step` then answers the fault
(log 12). -/
def raiseFault {α : Type} (f : Fault) (s : State) : Act α := .halt { s with faulted := some f }

/-! ### The command engine -/

/-- The engine's step (42 R215). -/
def engineStep (s : State) : State :=
  emit .cmdDone { clearBusy s with inflight := none, busyLeft := none }

/-- The engine's chance before a primitive action of the host: it finishes the command in flight when its drawn duration
has run out, else one action of the duration passes; a duration of never does not pass (42 R215; log 10). -/
def engineTurn (s : State) : State :=
  match s.inflight, s.busyLeft with
  | some _, some 0 => engineStep s
  | some _, some (n + 1) => { s with busyLeft := some n }
  | some _, none => s
  | none, _ => s

/-! ### Pins -/

/-- One pin-state update, a primitive action (20 R84). -/
def updatePin (p : PinId) (f : PinState → PinState) (s : State) : State :=
  let t := engineTurn s
  setPin p (f (pinOf t p)) t

/-- The pairwise checks of `take`, in list order: at each position the role, then whether the pin is free (40 R143). -/
def takeChecks (s : State) : List (PinId × Role) → Option Rejection
  | [] => none
  | (p, r) :: rest =>
    if (pinOf s p).binding ≠ .bound r then some .bundleMalformed
    else if (pinOf s p).inBundle then some .pinNotAvailable
    else takeChecks s rest

/-- All the checks of `take`: the length first (40 R143). -/
def takeError (pins : List PinId) (roles : List Role) (s : State) : Option Rejection :=
  if pins.length ≠ roles.length then some .bundleMalformed else takeChecks s (pins.zip roles)

/-- `pin[p].in_bundle <- true` for every pin of a list (40 R143). -/
def markPins (pins : List PinId) (s : State) : State :=
  pins.foldl (fun t p => updatePin p (fun q => { q with inBundle := true }) t) s

/-- A bundle constructor: `take` its pins at its positions and return the bundle (40 R143 to R150). -/
def makeBundle (b : Bundle) (s : State) : Host.Outcome State Fault Refusal :=
  match takeError (bundlePins b) (bundleRoles b) s with
  | some e => reject e s
  | none =>
    let t := markPins (bundlePins b) s
    .next { t with bundles := t.bundles ++ [b], result := some (.bundle b) }

/-- Prepare one pin (40 R151). -/
def preparePin (s : State) (p : PinId) : State :=
  emit (.pinPrepared p) (updatePin p (fun q => { q with slewHigh := true, pullupOff := true }) s)

/-- `PREPARE_PINS` of a bundle (40 R151). -/
def prepareBundle (s : State) (b : Bundle) : State := (bundlePins b).foldl preparePin s

/-- The host holds this bundle: a constructor returned it and nothing has consumed it (10 R34, 70 R303; log 8). -/
def holdsBundle (s : State) (b : Bundle) : Bool := decide (b ∈ s.bundles)

/-! ### The phase tracker -/

/-- `next(phase, delay_ok, mode)` (42 R216). -/
def nextTrack (mode : CmdMode) (p : Phase) (d : Bool) : Phase × Bool :=
  match mode, p, d with
  | .clockEnable, .powerUp, _ => (.clockEnabled, false)
  | .prechargeAll, .clockEnabled, true => (.precharged, true)
  | .autoRefresh, .precharged, d => (.refreshed, d)
  | .loadModeRegister, .refreshed, d => (.modeLoaded, d)
  | _, _, d => (.violated, d)

/-- The tracker step of one targeted bank (42 R213, R216). -/
def stepTrack (mode : CmdMode) (b : Bank) (s : State) : State :=
  let n := nextTrack mode (phaseOf s b) (delayOkOf s b)
  setTrack b n.1 n.2 s

/-- The tracker steps of every targeted bank, Bank1 first (42 R213, R231). -/
def stepTracks (c : Command) (s : State) : State :=
  let t := if c.ctb1 then stepTrack c.mode .bank1 s else s
  if c.ctb2 then stepTrack c.mode .bank2 t else t

/-- `issue` of a command (42 R213); its busy duration is drawn here (00 R6 P7, "drawn per command"). -/
def issueCommand (c : Command) (s : State) : State :=
  stepTracks c (emit (.cmdIssued c)
    { setBusy s with inflight := some c, busyLeft := Config.busyDuration s.draws, draws := s.draws + 1 })

/-- How many refresh cycles an event stands for: those of an issued auto-refresh, `refresh_cycles_of_field` of its count
(42 R221); every other event none. -/
def refreshCycles : Event → Nat
  | .cmdIssued c => if c.mode = .autoRefresh then Config.refreshCyclesOfField c.nrfs else 0
  | _ => 0

/-! ### Register transactions -/

/-- `RegRead(r)` (20 R71, R72). -/
def regRead (r : Reg) (s : State) : Act Word :=
  let t := engineTurn s
  if t.clkGate then .done (regValue t r) (emit (.regReadEv r (regValue t r)) t) else raiseFault .gateOff t

/-- The refusal of a mode that has no meaning (42 R224, R225). -/
def modeRefusal (w : Word) : Refusal :=
  match (cmdModeBits w).toNat with
  | 5 => .selfRefresh
  | 6 => .powerDown
  | _ => .reservedMode

/-- The effect of a write of `SDCMR` (20 R73, 42 R213, R218). -/
def writeCommand (w : Word) (s : State) : Act Unit :=
  if busy s then raiseFault .commandWhileBusy s
  else
    let t := { s with sdcmr := w &&& maskCMR }
    if cmdModeBits w = 0 then .done () t
    else
      match commandOf w with
      | some c => .done () (issueCommand c t)
      | none => .refuse (modeRefusal w)

/-- `RegWrite(r, v)` (20 R71, R73). -/
def regWrite (r : Reg) (v : Word) (s : State) : Act Unit :=
  let t := engineTurn s
  if t.clkGate then
    let u := emit (.regWritten r v) t
    match r with
    | .sdcr1 => .done () { u with sdcr1 := v &&& maskCR }
    | .sdcr2 => .done () { u with sdcr2 := v &&& maskCR }
    | .sdtr1 => .done () { u with sdtr1 := v &&& maskTR }
    | .sdtr2 => .done () { u with sdtr2 := v &&& maskTR }
    | .sdrtr => .done () { u with sdrtr := v &&& maskRTR, refreshProgrammed := true }
    | .sdsr => .done () u
    | .sdcmr => writeCommand v u
  else raiseFault .gateOff t

/-- `SetFields(r, fs)`: one read and one write (20 R76). -/
def setFields (r : Reg) (fs : List (Field × Nat)) (s : State) : Act Unit :=
  actThen (regRead r s) fun old t => regWrite r (insertFields old fs) t

/-- `SetField(r, F, v)` (20 R75). -/
def setField (r : Reg) (f : Field) (v : Nat) (s : State) : Act Unit := setFields r [(f, v)] s

/-! ### Effective configuration and readiness -/

/-- The record `eff(b)` (10 R52). -/
structure Eff where
  sdclk : Nat
  rburst : Nat
  rpipe : Nat
  nc : Nat
  nr : Nat
  mwid : Nat
  nb : Nat
  cas : Nat
  wp : Nat
  trc : Nat
  trp : Nat
  tmrd : Nat
  txsr : Nat
  tras : Nat
  twr : Nat
  trcd : Nat
  deriving DecidableEq, Repr

/-- `eff(b)` (10 R52). -/
def eff (s : State) (b : Bank) : Eff :=
  let cr := regValue s (controlReg b)
  let tr := regValue s (timingReg b)
  { sdclk := getField fSDCLK s.sdcr1, rburst := getField fRBURST s.sdcr1, rpipe := getField fRPIPE s.sdcr1,
    nc := getField fNC cr, nr := getField fNR cr, mwid := getField fMWID cr, nb := getField fNB cr,
    cas := getField fCAS cr, wp := getField fWP cr,
    trc := getField fTRC s.sdtr1, trp := getField fTRP s.sdtr1,
    tmrd := getField fTMRD tr, txsr := getField fTXSR tr, tras := getField fTRAS tr, twr := getField fTWR tr,
    trcd := getField fTRCD tr }

/-- `ready(b)` (10 R44). -/
def ready (s : State) (b : Bank) : Bool :=
  decide (s.handle = some b) && decide (phaseOf s b = .modeLoaded) && s.refreshProgrammed && s.faulted.isNone

/-! ### Window contents -/

/-- The byte listed at an offset, if one is. -/
def cellAt : List Host.Cell → Nat → Option Byte
  | [], _ => none
  | (a, v) :: rest, o => if a = o then some v else cellAt rest o

/-- List a byte at an offset, in its place. -/
def putCell : List Host.Cell → Nat → Byte → List Host.Cell
  | [], o, v => [(o, v)]
  | (a, w) :: rest, o, v =>
    if o < a then (o, v) :: (a, w) :: rest
    else if a = o then (o, v) :: rest
    else (a, w) :: putCell rest o v

/-- The canonical form: offsets strictly rising, all below the bank's size. -/
def Memory.wf (size : Nat) (m : Memory) : Bool :=
  decide (m.cells.Pairwise fun x y => x.1 < y.1) && m.cells.all fun c => decide (c.1 < size)

/-- One byte of a bank: what is listed, else the free byte of the bank's draw (10 R48, R50). This is the ONE definition of
what an unlisted byte reads as. -/
def memByte (m : Memory) (o : Nat) : Byte :=
  match cellAt m.cells o with
  | some v => v
  | none => Config.freeByte m.draw o

/-- `mem[b][o]` (10 R48). -/
def readByte (s : State) (b : Bank) (o : Nat) : Byte := memByte (memOf s b) o

/-- `n` bytes from an offset up. -/
def memBytes (m : Memory) (o n : Nat) : List Byte := (List.range n).map fun i => memByte m (o + i)

/-- `mem[b][o+i] <- bytes[i]` (20 R83). -/
def writeCells : List Host.Cell → Nat → List Byte → List Host.Cell
  | cells, _, [] => cells
  | cells, o, v :: rest => writeCells (putCell cells o v) (o + 1) rest

/-- `n` bytes of a new draw (20 R82). -/
def drawBytes (d n : Nat) : List Byte := (List.range n).map fun i => Config.freeByte d i

/-! ### Window accesses -/

/-- An access of `n` bytes at `a` is wholly inside the window of this bank (20 R81). -/
def insideWindow (p : Platform) (b : Bank) (a n : Nat) : Bool :=
  decide ((bankBase p b).toNat ≤ a) && decide (a + n ≤ (bankBase p b).toNat + p.bankSize)

/-- Window decode: the bank and the offset of an access of at least one byte (20 R81). The address is a natural: one that
does not fit 32 bits is in no window of an admitted platform, and is never wrapped into one (43 R262). -/
def windowOf (p : Platform) (a n : Nat) : Option (Bank × Nat) :=
  if n = 0 then none
  else if insideWindow p .bank1 a n then some (.bank1, a - p.bankBase1.toNat)
  else if insideWindow p .bank2 a n then some (.bank2, a - p.bankBase2.toNat)
  else none

/-- `MemRead` inside bank `b` at offset `o` (20 R82): while the bank is not ready the bytes are a draw. It returns the
little-endian value of the bytes. -/
def memRead (b : Bank) (o a n : Nat) (s : State) : State :=
  let t := engineTurn s
  if ready t b then
    let bytes := memBytes (memOf t b) o n
    { emit (.memReadEv a n bytes) t with result := some (.value (littleEndianValue bytes)) }
  else
    let bytes := drawBytes t.draws n
    { emit (.memReadEv a n bytes) t with result := some (.value (littleEndianValue bytes)), draws := t.draws + 1 }

/-- `MemWrite` inside bank `b` at offset `o` (20 R83): ignored while the ready bank is write-protected; while the bank is
not ready every byte of it is drawn anew. -/
def memWrite (b : Bank) (o a n v : Nat) (s : State) : State :=
  let bytes := littleEndianBytes n v
  let t := { emit (.memWriteEv a n bytes) (engineTurn s) with result := some .unit }
  if ready t b then
    if (eff t b).wp = 0 then setMem b { memOf t b with cells := writeCells (memOf t b).cells o bytes } t else t
  else { setMem b { draw := t.draws, cells := [] } t with draws := t.draws + 1 }

end Sys2Proof.Machine
end

