-- ==== Sys2Proof/Machine/CommandSequencer.lean ====
section
/-! DEFINITION. The command sequencer: the meanings of operations 0x20 to 0x26 and the poll loop
(42_command_sequencer R212 to R229). -/

namespace Sys2Proof.Machine

/-- `SEND_COMMAND` up to its poll loop (42 R212): the one atomic write; the host then polls, one poll a step (log 11). -/
def execSendCommand (c : Command) (s : State) : Host.Outcome State Fault Refusal :=
  match s.handle with
  | none => reject .noHandle s
  | some _ =>
    match regWrite .sdcmr (encodeCmd c) s with
    | .done _ t => .next { t with polling := true, result := none }
    | .halt t => .next { t with result := none }
    | .refuse r => .refused r

/-- One poll (42 R214): the loop ends at the first read whose bit 5 is 0. -/
def pollOnce (s : State) : Host.Outcome State Fault Refusal :=
  match regRead .sdsr s with
  | .done w t => if w.getLsbD 5 then .next t else .next { t with polling := false, result := some .unit }
  | .halt t => .next { t with polling := false, result := none }
  | .refuse r => .refused r

/-- `SET_WRITE_PROTECTION` (42 R226): the control register of the Handle's bank. -/
def execSetWriteProtection (enable : Bool) (s : State) : Host.Outcome State Fault Refusal :=
  match s.handle with
  | none => reject .noHandle s
  | some b => actEnd (actThen (setField (controlReg b) fWP (bit enable) s) fun _ t => .done .unit t)

/-- `SET_AUTO_REFRESH_COUNT` (42 R222). -/
def execSetAutoRefreshCount (n : Nat) (s : State) : Host.Outcome State Fault Refusal :=
  match s.handle with
  | none => reject .noHandle s
  | some _ =>
    if 15 < n then reject .fieldOutOfRange s
    else actEnd (actThen (setField .sdcmr fNRFS n s) fun _ t => .done .unit t)

/-- `SET_REFRESH_INTERVAL` (42 R229). -/
def execSetRefreshInterval (count : Nat) (s : State) : Host.Outcome State Fault Refusal :=
  match s.handle with
  | none => reject .noHandle s
  | some _ =>
    if 8191 < count then reject .fieldOutOfRange s
    else actEnd (actThen (setField .sdrtr fCOUNT count s) fun _ t => .done .unit t)

/-- `WRITE_PROTECTION` (42 R227): bit 9 of the control register of the Handle's bank. -/
def execWriteProtection (s : State) : Host.Outcome State Fault Refusal :=
  match s.handle with
  | none => reject .noHandle s
  | some b => actEnd (actThen (regRead (controlReg b) s) fun w t => .done (.flag (w.getLsbD 9)) t)

/-- `BANK` (42 R228): pure. -/
def execBank (s : State) : Host.Outcome State Fault Refusal :=
  match s.handle with
  | none => reject .noHandle s
  | some b => .next { s with result := some (.bank b) }

/-- `delay_ok[b] <- true` if the bank is in `ClockEnabled` (42 R217). -/
def observeDelay (b : Bank) (s : State) : State :=
  if phaseOf s b = .clockEnabled then setTrack b .clockEnabled true s else s

/-- `DELAY` (42 R217): it needs no Handle. -/
def execDelay (ticks : Nat) (s : State) : Host.Outcome State Fault Refusal :=
  let t := emit (.delayed ticks) (engineTurn s)
  let u := if 1 ≤ ticks then observeDelay .bank2 (observeDelay .bank1 t) else t
  .next { u with result := some .unit }

end Sys2Proof.Machine
end

