-- ==== Sys2Proof/Machine/MemoryView.lean ====
section
/-! DEFINITION. The memory view: the meaning of operation 0x30 (43_memory_view R260 to R264), and the accesses the host
makes through a view or at any other address (20_memory R74, R81 to R83; log 14). -/

namespace Sys2Proof.Machine

/-- `MEMORY_VIEW` (43 R260): the base of the Handle's bank and the floor quotient (R261, R264). -/
def execMemoryView (elementSize byteLength : Nat) (s : State) : Host.Outcome State Fault Refusal :=
  match s.handle with
  | none => reject .noHandle s
  | some b =>
    if elementSize = 0 then reject .elementSizeZero s
    else .next { s with result := some (.view (bankBase s.platform b) (byteLength / elementSize)) }

/-- The address of element `i` of a view with this base and element size, a natural (43 R262): an element at or past
`2^32` (43 R263) is not wrapped, and its access is outside every window (20 R81). -/
def elementAddr (base : Word) (elementSize i : Nat) : Nat := base.toNat + i * elementSize

/-- Some `MEMORY_VIEW` of this Handle returns this view: the base of the Handle's bank, and an element size that is not 0,
with which every count has a byte length (43 R260; log 22). -/
def viewExists (v : View) (s : State) : Bool :=
  match s.handle with
  | some b => decide (v.base = bankBase s.platform b) && decide (v.elementSize ≠ 0)
  | none => false

/-- `MemRead` by address: outside the windows it has no meaning (20 R81, R82). -/
def windowRead (a n : Nat) (s : State) : Host.Outcome State Fault Refusal :=
  match windowOf s.platform a n with
  | some (b, o) => .next (memRead b o a n s)
  | none => .refused .outsideWindows

/-- `MemWrite` by address: outside the windows it has no meaning (20 R81, R83). -/
def windowWrite (a n v : Nat) (s : State) : Host.Outcome State Fault Refusal :=
  match windowOf s.platform a n with
  | some (b, o) => .next (memWrite b o a n v s)
  | none => .refused .outsideWindows

/-- Read element `i`, `0 <= i < count`, of a view (43 R262). -/
def readElement (v : View) (i : Nat) (s : State) : Host.Outcome State Fault Refusal :=
  if viewExists v s && decide (i < v.count) then windowRead (elementAddr v.base v.elementSize i) v.elementSize s
  else .refused .noSuchValue

/-- Write element `i`, `0 <= i < count`, of a view (43 R262). -/
def writeElement (v : View) (i value : Nat) (s : State) : Host.Outcome State Fault Refusal :=
  if viewExists v s && decide (i < v.count) then
    windowWrite (elementAddr v.base v.elementSize i) v.elementSize value s
  else .refused .noSuchValue

/-- The register at an offset of the register block (10 R20). -/
def regAtOffset : Nat → Option Reg
  | 0x00 => some .sdcr1
  | 0x04 => some .sdcr2
  | 0x08 => some .sdtr1
  | 0x0C => some .sdtr2
  | 0x10 => some .sdcmr
  | 0x14 => some .sdrtr
  | 0x18 => some .sdsr
  | _ => none

/-- The access starts in the register block `[REG_BASE, REG_BASE + 0x1C)` (20 R70, R79). -/
def inRegisterBlock (p : Platform) (a : Word) : Bool :=
  decide (p.regBase.toNat ≤ a.toNat) && decide (a.toNat < p.regBase.toNat + 0x1C)

/-- The register an access of `n` bytes at `a` names: only a whole aligned word names one (20 R74). DESIGN CHOICE (log 23):
the spec does not say from where 'aligned' is counted, nor that `REG_BASE` is a multiple of 4; the model counts from
`REG_BASE`, so that each register's own address is aligned, and admits every `REG_BASE`. -/
def regOfAccess (p : Platform) (a : Word) (n : Nat) : Option Reg :=
  if n = 4 then regAtOffset (a.toNat - p.regBase.toNat) else none

/-- A read of `n` bytes: a window read (20 R82), or a raw register transaction (20 R72). -/
def hostRead (a : Word) (n : Nat) (s : State) : Host.Outcome State Fault Refusal :=
  match windowOf s.platform a.toNat n with
  | some (b, o) => .next (memRead b o a.toNat n s)
  | none =>
    if inRegisterBlock s.platform a then
      match regOfAccess s.platform a n with
      | some r => actEnd (actThen (regRead r s) fun w t => .done (.word w) t)
      | none => .refused .registerAccess
    else .refused .outsideWindows

/-- A write of the low `n` bytes of a value: a window write (20 R83), or a raw register transaction (20 R73). -/
def hostWrite (a : Word) (n : Nat) (v : Nat) (s : State) : Host.Outcome State Fault Refusal :=
  match windowOf s.platform a.toNat n with
  | some (b, o) => .next (memWrite b o a.toNat n v s)
  | none =>
    if inRegisterBlock s.platform a then
      match regOfAccess s.platform a n with
      | some r => actEnd (actThen (regWrite r (BitVec.ofNat 32 v) s) fun _ t => .done .unit t)
      | none => .refused .registerAccess
    else .refused .outsideWindows

end Sys2Proof.Machine
end

