-- ==== Sys2Proof/Machine/PinTopology.lean ====
section
/-! DEFINITION. The pin topology validator: the meanings of operations 0x01 to 0x0B (40_pin_topology R142 to R153). -/

namespace Sys2Proof.Machine

/-- `BIND_PIN` (40 R142). -/
def execBindPin (p : PinId) (r : Role) (s : State) : Host.Outcome State Fault Refusal :=
  if p ∈ capOf s.platform r then
    if (pinOf s p).binding = .unassigned then
      .next { updatePin p (fun q => { q with binding := .bound r }) s with result := some (.boundPin p r) }
    else reject .pinNotAvailable s
  else reject .pinRoleRejected s

/-- `MAKE_ADDR_BUS` (40 R144). -/
def execMakeAddrBus (v : AddrVariant) (pins : List PinId) (s : State) : Host.Outcome State Fault Refusal :=
  makeBundle (.addr { variant := v, pins := pins }) s

/-- `MAKE_DATA_BUS` (40 R145). -/
def execMakeDataBus (v : DataVariant) (pins : List PinId) (s : State) : Host.Outcome State Fault Refusal :=
  makeBundle (.data { variant := v, pins := pins }) s

/-- `MAKE_BANK_ACCESS` (40 R146). -/
def execMakeBankAccess (v : BankAccessVariant) (pins : List PinId) (s : State) : Host.Outcome State Fault Refusal :=
  makeBundle (.bankAccess { variant := v, pins := pins }) s

/-- `MAKE_BYTE_ENABLE` (40 R147). -/
def execMakeByteEnable (v : ByteEnableVariant) (pins : List PinId) (s : State) : Host.Outcome State Fault Refusal :=
  makeBundle (.byteEnable { variant := v, pins := pins }) s

/-- A clock-enable or a chip-select pin bound to a role of this bank (the E4 check of 40 R148, R149). -/
def bankPinSupplied (b : Bank) (cke cs : PinId) (s : State) : Bool :=
  decide ((pinOf s cke).binding = .bound (.sdcke b)) || decide ((pinOf s cs).binding = .bound (.sdne b))

/-- `MAKE_CKECS_BANK1` (40 R148): a pin of Bank2 is E4, before anything `take` finds. -/
def execMakeCkecsBank1 (cke cs : PinId) (s : State) : Host.Outcome State Fault Refusal :=
  if bankPinSupplied .bank2 cke cs s then reject .bankPinMismatch s
  else makeBundle (.ckeCs { bank := .bank1, cke := cke, cs := cs }) s

/-- `MAKE_CKECS_BANK2` (40 R149). -/
def execMakeCkecsBank2 (cke cs : PinId) (s : State) : Host.Outcome State Fault Refusal :=
  if bankPinSupplied .bank1 cke cs s then reject .bankPinMismatch s
  else makeBundle (.ckeCs { bank := .bank2, cke := cke, cs := cs }) s

/-- `MAKE_SINGLE` (40 R150). -/
def execMakeSingle (k : SingleKind) (p : PinId) (s : State) : Host.Outcome State Fault Refusal :=
  makeBundle (.single k p) s

/-- `PREPARE_PINS` (40 R151): it does not consume the bundle. -/
def execPreparePins (b : Bundle) (s : State) : Host.Outcome State Fault Refusal :=
  if holdsBundle s b then .next { prepareBundle s b with result := some (.bundle b) } else .refused .noSuchValue

/-- `WIDTH` (40 R152): pure. -/
def execWidth (b : DataBus) (s : State) : Host.Outcome State Fault Refusal :=
  if holdsBundle s (.data b) then .next { s with result := some (.code (widthCode b.variant)) }
  else .refused .noSuchValue

/-- `BANK_OF_PINS` (40 R153): pure. -/
def execBankOfPins (b : CkeCs) (s : State) : Host.Outcome State Fault Refusal :=
  if holdsBundle s (.ckeCs b) then .next { s with result := some (.bank b.bank) } else .refused .noSuchValue

end Sys2Proof.Machine
end

