-- ==== Sys2Proof/Machine/RawCommand.lean ====
section
/-! DEFINITION. The eight rows of format CMDW: a raw command word written to `SDCMR` (30_encoding R110,
20_memory R73, 42_command_sequencer R213, R218 to R225). Modes 5, 6 and 7 are refused (60 R277; log 13). -/

namespace Sys2Proof.Machine

/-- The write of a raw command word (20 R73). -/
def writeRawCommand (mode : BitVec 3) (ops : CmdOperands) (s : State) : Host.Outcome State Fault Refusal :=
  actEnd (actThen (regWrite .sdcmr (assembleCmd mode ops) s) fun _ t => .done .unit t)

/-- `CMD_IDLE` (42 R218): stores `NRFS` and `MRD`, issues nothing. -/
def execCmdIdle (ops : CmdOperands) (s : State) : Host.Outcome State Fault Refusal := writeRawCommand 0 ops s

/-- `CMD_CLK_ENABLE` (42 R219). -/
def execCmdClkEnable (ops : CmdOperands) (s : State) : Host.Outcome State Fault Refusal := writeRawCommand 1 ops s

/-- `CMD_PALL` (42 R220). -/
def execCmdPall (ops : CmdOperands) (s : State) : Host.Outcome State Fault Refusal := writeRawCommand 2 ops s

/-- `CMD_AUTO_REFRESH` (42 R221). -/
def execCmdAutoRefresh (ops : CmdOperands) (s : State) : Host.Outcome State Fault Refusal := writeRawCommand 3 ops s

/-- `CMD_LOAD_MODE` (42 R223). -/
def execCmdLoadMode (ops : CmdOperands) (s : State) : Host.Outcome State Fault Refusal := writeRawCommand 4 ops s

/-- `CMD_SELF_REFRESH` (42 R224): refused, no state change. -/
def execCmdSelfRefresh (_ops : CmdOperands) (_s : State) : Host.Outcome State Fault Refusal := .refused .selfRefresh

/-- `CMD_POWER_DOWN` (42 R224): refused, no state change. -/
def execCmdPowerDown (_ops : CmdOperands) (_s : State) : Host.Outcome State Fault Refusal := .refused .powerDown

/-- The reserved mode 7 (42 R225): refused, no state change. -/
def execCmdReserved7 (_ops : CmdOperands) (_s : State) : Host.Outcome State Fault Refusal := .refused .reservedMode

end Sys2Proof.Machine
end

