-- ==== Sys2Proof/Machine/RegisterProgrammer.lean ====
section
/-! DEFINITION. The register programmer: the meanings of operations 0x10 and 0x11 (41_register_programmer R181 to
R190). -/

namespace Sys2Proof.Machine

/-- The seven members of `Timing` that go to the timing register, in the order of the checks (41 R181). -/
def timingMembers (t : Timing) : List Nat := [t.tMrd, t.tXsr, t.tRas, t.tRc, t.tWr, t.tRp, t.tRcd]

/-- The checks of `MAKE_CONFIG`, in order (41 R181): every zero check before any range check. -/
def configError (c : Configuration) : Option Rejection :=
  if (timingMembers c.timing).any (· == 0) then some .timingZero
  else if (timingMembers c.timing).any (fun v => decide (16 < v)) then some .fieldOutOfRange
  else if c.timing.cas ∉ [1, 2, 3] then some .fieldOutOfRange
  else if c.columnBits ∉ [8, 9, 10, 11] then some .fieldOutOfRange
  else if c.rowBits ∉ [11, 12, 13] then some .fieldOutOfRange
  else if c.clockDivisor ∉ [2, 3] then some .fieldOutOfRange
  else if c.pipelineDelay ∉ [0, 1, 2] then some .fieldOutOfRange
  else none

/-- The host holds this Configuration: `MAKE_CONFIG` returned it and nothing has consumed it; one that fails its checks
exists in no state (10 R36, 41 R191, 70 R303; log 8). -/
def holdsConfig (s : State) (c : Configuration) : Bool := decide (c ∈ s.configs) && (configError c).isNone

/-- `MAKE_CONFIG` (41 R181). It writes no state of the spec; the two buses stay with the host until `CONFIGURE` consumes
them with the Configuration (R190; log 9). -/
def execMakeConfig (c : Configuration) (s : State) : Host.Outcome State Fault Refusal :=
  match configError c with
  | some e => reject e s
  | none =>
    if holdsBundle s (.addr c.addrBus) && holdsBundle s (.data c.dataBus) then
      .next { s with configs := s.configs ++ [c], result := some (.config c) }
    else .refused .noSuchValue

/-- The nine bundles of a `CONFIGURE`, in the order of step 2 (41 R184). -/
def configureBundles (cfg : Configuration) (ba : BankAccess) (nbl : ByteEnable) (clk ras cas : PinId) (sel : CkeCs)
    (we : PinId) : List Bundle :=
  [.addr cfg.addrBus, .data cfg.dataBus, .bankAccess ba, .byteEnable nbl, .single .clock clk, .single .ras ras,
   .single .cas cas, .ckeCs sel, .single .we we]

/-- Step 4 (41 R186, R187): Bank1 takes all nine control fields in one write; Bank2 routes the shared three to `SDCR1`
and the other six to `SDCR2`. -/
def programControl (b : Bank) (cfg : Configuration) (ba : BankAccess) (s : State) : Act Unit :=
  match b with
  | .bank1 => setFields .sdcr1 (sharedControlFields cfg ++ bankControlFields cfg ba) s
  | .bank2 =>
    actThen (setFields .sdcr1 (sharedControlFields cfg) s) fun _ t => setFields .sdcr2 (bankControlFields cfg ba) t

/-- Step 5 (41 R188, R189): Bank1 takes all seven timing fields in one write; Bank2 routes `TRC` and `TRP` to `SDTR1` and
the other five to `SDTR2`. -/
def programTiming (b : Bank) (tm : Timing) (s : State) : Act Unit :=
  match b with
  | .bank1 => setFields .sdtr1 (allTimingFields tm) s
  | .bank2 => actThen (setFields .sdtr1 (sharedTimingFields tm) s) fun _ t => setFields .sdtr2 (bankTimingFields tm) t

/-- Steps 1 and 2 (41 R183, R184): the gate, then every pin group. -/
def gateAndPrepare (bundles : List Bundle) (s : State) : State :=
  bundles.foldl prepareBundle (emit .gateEnabled { s with clkGate := true })

/-- Step 6 (41 R190): the Handle for the bank; the Configuration and the nine bundles are consumed. -/
def takeHandle (b : Bank) (cfg : Configuration) (consumed : List Bundle) (s : State) : State :=
  { s with handle := some b, configs := s.configs.erase cfg,
           bundles := s.bundles.filter fun x => decide (x ∉ consumed) }

/-- `CONFIGURE` (41 R182): the bank is that of the clock-enable and chip-select pair alone (R185). -/
def execConfigure (cfg : Configuration) (ba : BankAccess) (nbl : ByteEnable) (clk ras cas : PinId) (sel : CkeCs)
    (we : PinId) (s : State) : Host.Outcome State Fault Refusal :=
  let bundles := configureBundles cfg ba nbl clk ras cas sel we
  if s.handle.isSome then reject .controllerUnavailable s
  else if holdsConfig s cfg && bundles.all (holdsBundle s) then
    actEnd
      (actThen (programControl sel.bank cfg ba (gateAndPrepare bundles s)) fun _ t =>
        actThen (programTiming sel.bank cfg.timing t) fun _ u =>
          .done (.handle sel.bank) (takeHandle sel.bank cfg bundles u))
  else .refused .noSuchValue

end Sys2Proof.Machine
end

