-- ==== Sys2Proof/Machine/Dispatch.lean ====
section
/-! DEFINITION. The meaning of every instruction: one arm per constructor of Instr. -/

namespace Sys2Proof.Machine

def exec (i : Instr) (s : State) : Host.Outcome State Fault Refusal :=
  match i with
  | .bindPin pin role => Sys2Proof.Machine.execBindPin pin role s
  | .makeAddrBus variant pins => Sys2Proof.Machine.execMakeAddrBus variant pins s
  | .makeDataBus variant pins => Sys2Proof.Machine.execMakeDataBus variant pins s
  | .makeBankAccess variant pins => Sys2Proof.Machine.execMakeBankAccess variant pins s
  | .makeByteEnable variant pins => Sys2Proof.Machine.execMakeByteEnable variant pins s
  | .makeCkecsBank1 cke cs => Sys2Proof.Machine.execMakeCkecsBank1 cke cs s
  | .makeCkecsBank2 cke cs => Sys2Proof.Machine.execMakeCkecsBank2 cke cs s
  | .makeSingle kind pin => Sys2Proof.Machine.execMakeSingle kind pin s
  | .preparePins bundle => Sys2Proof.Machine.execPreparePins bundle s
  | .width bus => Sys2Proof.Machine.execWidth bus s
  | .bankOfPins sel => Sys2Proof.Machine.execBankOfPins sel s
  | .makeConfig cfg => Sys2Proof.Machine.execMakeConfig cfg s
  | .configure cfg ba nbl clk ras cas sel we => Sys2Proof.Machine.execConfigure cfg ba nbl clk ras cas sel we s
  | .sendCommand cmd => Sys2Proof.Machine.execSendCommand cmd s
  | .setWriteProtection enable => Sys2Proof.Machine.execSetWriteProtection enable s
  | .setAutoRefreshCount n => Sys2Proof.Machine.execSetAutoRefreshCount n s
  | .setRefreshInterval count => Sys2Proof.Machine.execSetRefreshInterval count s
  | .writeProtection => Sys2Proof.Machine.execWriteProtection s
  | .bank => Sys2Proof.Machine.execBank s
  | .delay ticks => Sys2Proof.Machine.execDelay ticks s
  | .memoryView elementSize byteLength => Sys2Proof.Machine.execMemoryView elementSize byteLength s
  | .cmdIdle ops => Sys2Proof.Machine.execCmdIdle ops s
  | .cmdClkEnable ops => Sys2Proof.Machine.execCmdClkEnable ops s
  | .cmdPall ops => Sys2Proof.Machine.execCmdPall ops s
  | .cmdAutoRefresh ops => Sys2Proof.Machine.execCmdAutoRefresh ops s
  | .cmdLoadMode ops => Sys2Proof.Machine.execCmdLoadMode ops s
  | .cmdSelfRefresh ops => Sys2Proof.Machine.execCmdSelfRefresh ops s
  | .cmdPowerDown ops => Sys2Proof.Machine.execCmdPowerDown ops s
  | .cmdReserved7 ops => Sys2Proof.Machine.execCmdReserved7 ops s

end Sys2Proof.Machine
end

