-- ==== Sys2Proof/Machine/Serve.lean ====
section
/-! DEFINITION. Serving the host's requests: what one step does with the request at the head of the queue
(00_scope R7, R8; log 1). -/

namespace Sys2Proof.Machine

/-- Decode a packet and run its instruction; a packet that selects none is refused and nothing happens (30 R117). -/
def servePacket (p : Packet) (s : State) : Host.Outcome State Fault Refusal :=
  match decode p with
  | .ok i => exec i s
  | .error e => .refused (.undecodable e)

/-- Serve one request. -/
def serve (r : Request) (s : State) : Host.Outcome State Fault Refusal :=
  match r with
  | .packet p => servePacket p s
  | .read a n => hostRead a n s
  | .write a n v => hostWrite a n v s
  | .readElement v i => readElement v i s
  | .writeElement v i value => writeElement v i value s

/-- What the host does next: poll while it is inside `SEND_COMMAND` (42 R214), else take its next request; with none
left it does nothing and only the engine may act (70 R301). -/
def hostTurn (s : State) : Host.Outcome State Fault Refusal :=
  if s.polling then pollOnce s
  else
    match s.queue with
    | [] => .next (engineTurn s)
    | r :: rest => serve r { s with queue := rest }

/-- Put an instruction where the next step takes it: the head of the queue of a host that is neither polling nor
faulted (log 1). -/
def placePacket (p : Packet) (s : State) : State :=
  { s with queue := .packet p :: s.queue, polling := false, faulted := none }

/-- The pseudo-operation `init_sequence` (30 R121): the six steps of the init order (42 R230). -/
def initSequence (ctb1 ctb2 : Bool) (nrfs : BitVec 4) (mrd : BitVec 16) (count ticks : Nat) : List Instr :=
  let cmd (m : CmdMode) : Instr := .sendCommand { mode := m, ctb1, ctb2, nrfs, mrd }
  [cmd .clockEnable, .delay ticks, cmd .prechargeAll, cmd .autoRefresh, cmd .loadModeRegister,
   .setRefreshInterval count]

end Sys2Proof.Machine
end

