-- ==== Sys2Proof/Machine/Step.lean ====
section
/-! DEFINITION. One step of the machine: the host's next primitive action or operation. -/

namespace Sys2Proof.Machine

/-- One step. A faulted state ends the run (60 R276); a platform the spec does not admit is refused before anything runs
(20 R79); else the host acts. -/
def step (s : State) : Host.Outcome State Fault Refusal :=
  match s.faulted with
  | some f => .fault f
  | none => if platformOk s.platform then hostTurn s else .refused .badPlatform

/-- The state whose next step runs the instruction of a table row's bits (log 1). -/
def State.withFetchWord (s : State) (nbits w : Nat) : State := placePacket (tablePacket nbits w) s

end Sys2Proof.Machine
end

