-- ==== Sys2Proof/Safety.lean ====
section
/-! DEFINITION. What the claims speak of: the parts of the state a frame leaves alone, the invariant of the machine, and
the runs that use only what 30_encoding R100 and 20_memory R82, R83 give the host. -/

namespace Sys2Proof.Machine

/-! ### Frames -/

/-- The register block and the clock gate are as before. -/
def SameRegisters (s t : State) : Prop :=
  (∀ r, regValue t r = regValue s r) ∧ t.clkGate = s.clkGate

/-- The Handle, the phase tracker, the refresh mark, the command in flight and the fault mark are as before. -/
def SameSequencer (s t : State) : Prop :=
  t.handle = s.handle ∧ (∀ b, phaseOf t b = phaseOf s b) ∧ (∀ b, delayOkOf t b = delayOkOf s b) ∧
    t.refreshProgrammed = s.refreshProgrammed ∧ t.inflight = s.inflight ∧ t.faulted = s.faulted

/-- Every pin's record is as before. -/
def SamePins (s t : State) : Prop := ∀ p, pinOf t p = pinOf s p

/-- Every byte of both banks reads as before. -/
def SameMemory (s t : State) : Prop := ∀ b o, readByte t b o = readByte s b o

/-- The values the host holds, the platform and the host's own position are as before. -/
def SameHost (s t : State) : Prop :=
  t.bundles = s.bundles ∧ t.configs = s.configs ∧ t.platform = s.platform ∧ t.queue = s.queue ∧ t.polling = s.polling

/-! ### The invariant -/

/-- Reserved bits read as 0 (10 R31). -/
def ReservedBitsZero (s : State) : Prop :=
  s.sdcr1 &&& ~~~ maskCR = 0 ∧ s.sdcr2 &&& ~~~ maskCR = 0 ∧ s.sdtr1 &&& ~~~ maskTR = 0 ∧ s.sdtr2 &&& ~~~ maskTR = 0 ∧
    s.sdcmr &&& ~~~ maskCMR = 0 ∧ s.sdrtr &&& ~~~ maskRTR = 0 ∧ s.sdsr &&& ~~~ busyWord = 0

/-- `SDSR.BUSY = 1` iff a command is in flight (10 R45). -/
def BusyIffInflight (s : State) : Prop := busy s = s.inflight.isSome

/-- The gate is on iff the Handle exists: `CONFIGURE` sets both (41 R183, R190). -/
def GateIffHandle (s : State) : Prop := s.clkGate = s.handle.isSome

/-- Before `CONFIGURE` succeeds nothing has touched the register block, and no bank has left `PowerUp` (10 R21). -/
def UntouchedBeforeConfigure (s : State) : Prop :=
  s.handle = none →
    s.sdcr1 = s.platform.resetRegs.sdcr1 ∧ s.sdcr2 = s.platform.resetRegs.sdcr2 ∧
    s.sdtr1 = s.platform.resetRegs.sdtr1 ∧ s.sdtr2 = s.platform.resetRegs.sdtr2 ∧
    s.sdcmr = s.platform.resetRegs.sdcmr ∧ s.sdrtr = s.platform.resetRegs.sdrtr ∧
    s.phase1 = .powerUp ∧ s.phase2 = .powerUp ∧ s.inflight = none ∧ s.refreshProgrammed = false ∧ s.polling = false

/-- Both banks' memories are in canonical form. -/
def MemoryCanonical (s : State) : Prop :=
  s.mem1.wf s.platform.bankSize = true ∧ s.mem2.wf s.platform.bankSize = true

/-- A bound pin can carry its role (40 R141, R142). -/
def BoundWithinCap (s : State) : Prop :=
  ∀ p r, (pinOf s p).binding = .bound r → p ∈ capOf s.platform r

/-- Every pin of every bundle the host holds is bound to the role of its position and is in a bundle (40 R154). -/
def BundlesOwned (s : State) : Prop :=
  ∀ b ∈ s.bundles,
    List.Forall₂ (fun p r => (pinOf s p).binding = .bound r ∧ (pinOf s p).inBundle = true) (bundlePins b)
      (bundleRoles b)

/-- No pin is in two bundles, and none at two positions of one (40 R154). -/
def BundlesDisjoint (s : State) : Prop :=
  s.bundles.Pairwise (fun b c => List.Disjoint (bundlePins b) (bundlePins c)) ∧ ∀ b ∈ s.bundles, (bundlePins b).Nodup

/-- Every Configuration the host holds passed the checks of `MAKE_CONFIG` (41 R181, R191). -/
def ConfigsValid (s : State) : Prop := ∀ c ∈ s.configs, configError c = none

/-- A bank past `ClockEnabled` saw its delay (42 R216). -/
def DelaySeen (s : State) : Prop :=
  ∀ b, phaseOf s b = .precharged ∨ phaseOf s b = .refreshed ∨ phaseOf s b = .modeLoaded → delayOkOf s b = true

/-- The host polls only with a Handle (42 R212). -/
def PollingWithHandle (s : State) : Prop := s.polling = true → s.handle.isSome = true

/-- The invariant of the machine. -/
structure Inv (s : State) : Prop where
  reserved : ReservedBitsZero s
  busyInflight : BusyIffInflight s
  gate : GateIffHandle s
  untouched : UntouchedBeforeConfigure s
  memory : MemoryCanonical s
  cap : BoundWithinCap s
  owned : BundlesOwned s
  disjoint : BundlesDisjoint s
  configs : ConfigsValid s
  delaySeen : DelaySeen s
  polling : PollingWithHandle s

/-! ### Admitted runs -/

/-- A request the spec gives the host: a host operation (30 R100), an access to an element of a view (43 R262), or an
access inside a window (20 R82, R83). A raw
command word or a raw register transaction is not one (10 R21; log 14). -/
def admitted (p : Platform) : Request → Bool
  | .packet (.hostOp _) => true
  | .packet (.cmdWord _) => false
  | .read a n => (windowOf p a.toNat n).isSome
  | .write a n _ => (windowOf p a.toNat n).isSome
  | .readElement _ _ => true
  | .writeElement _ _ _ => true

/-- Every request left is admitted, no fault is marked, and a command is in flight only while the host polls for it
(42 R232). -/
structure AdmittedRun (s : State) : Prop where
  requests : ∀ r ∈ s.queue, admitted s.platform r = true
  faultFree : s.faulted = none
  idle : s.inflight.isSome = true → s.polling = true

/-! ### Shapes of instructions -/

/-- The bundle a bundle constructor would return (40 R144 to R150); other instructions return none. -/
def constructedBundle : Instr → Option Bundle
  | .makeAddrBus v ps => some (.addr ⟨v, ps⟩)
  | .makeDataBus v ps => some (.data ⟨v, ps⟩)
  | .makeBankAccess v ps => some (.bankAccess ⟨v, ps⟩)
  | .makeByteEnable v ps => some (.byteEnable ⟨v, ps⟩)
  | .makeCkecsBank1 cke cs => some (.ckeCs ⟨.bank1, cke, cs⟩)
  | .makeCkecsBank2 cke cs => some (.ckeCs ⟨.bank2, cke, cs⟩)
  | .makeSingle k p => some (.single k p)
  | _ => none

/-- The other bank. -/
def otherBank : Bank → Bank
  | .bank1 => .bank2
  | .bank2 => .bank1

/-- A clock-enable or chip-select pin bound to the other bank's role (the condition of E4, 40 R148, R149). -/
def OtherBankPin (s : State) : Bundle → Prop
  | .ckeCs c =>
    (pinOf s c.cke).binding = .bound (.sdcke (otherBank c.bank)) ∨
      (pinOf s c.cs).binding = .bound (.sdne (otherBank c.bank))
  | _ => False

/-- The command targets this bank (42 R213). -/
def targets (c : Command) : Bank → Bool
  | .bank1 => c.ctb1
  | .bank2 => c.ctb2

/-- The `Command` of a mode with the fields of a raw command word (30 R112). -/
def commandWith (m : CmdMode) (ops : CmdOperands) : Command :=
  { mode := m, ctb1 := ops.ctb1, ctb2 := ops.ctb2, nrfs := ops.nrfs, mrd := ops.mrd }

/-- The raw command word instruction of each mode that issues a command (30 R110). -/
def rawInstr (m : CmdMode) (ops : CmdOperands) : Instr :=
  match m with
  | .clockEnable => .cmdClkEnable ops
  | .prechargeAll => .cmdPall ops
  | .autoRefresh => .cmdAutoRefresh ops
  | .loadModeRegister => .cmdLoadMode ops

/-! ### The phase tracker as a run -/

/-- What the phase tracker of one targeted bank sees (42 R216, R217). -/
inductive TrackerAction where
  | command (mode : CmdMode)
  | delay (ticks : Nat)
  deriving DecidableEq, Repr

/-- One action of the tracker (42 R216, R217). -/
def trackerStep (x : Phase × Bool) : TrackerAction → Phase × Bool
  | .command m => nextTrack m x.1 x.2
  | .delay n => (x.1, x.2 || (decide (1 ≤ n) && decide (x.1 = .clockEnabled)))

/-- Several actions in order. -/
def trackerRun (acts : List TrackerAction) (x : Phase × Bool) : Phase × Bool := acts.foldl trackerStep x

/-- Only delays. -/
def OnlyDelays (acts : List TrackerAction) : Prop := ∀ a ∈ acts, ∃ n, a = .delay n

/-- Some delay of at least one tick. -/
def HasDelay (acts : List TrackerAction) : Prop := ∃ n, 1 ≤ n ∧ .delay n ∈ acts

/-! ### Runs -/

/-- `k` steps, stopping at the first fault or refusal. -/
def runSteps : Nat → State → Host.Outcome State Fault Refusal
  | 0, s => .next s
  | k + 1, s =>
    match step s with
    | .next t => runSteps k t
    | .fault f => .fault f
    | .refused r => .refused r

end Sys2Proof.Machine
end

