-- ==== Sys2Proof/Certificates/Slice0/Obligations.lean ====
section
/-! DEFINITION. The statements for the provers, from the numbered rules of spec/. Hypotheses `s.inflight = none` say that
no command is in flight, as the spec says of the start of every host operation (42 R232). -/

open Sys2Proof Sys2Proof.Machine

/-! ### Encoding -/

/-- Words written out from 30 R100 and R110 decode to the instructions they stand for. -/
def Obligations.TableWordsDecode : Prop :=
  decodeTableWord 8 0x25 = some .bank ∧
  decode (.hostOp [0x01, 0x20, 55]) = .ok (.bindPin 0x20 .sdnwe) ∧
  decode (.hostOp [0x20, 1, 0, 1, 0, 0, 0]) = .ok (.sendCommand ⟨.prechargeAll, false, true, 0, 0⟩) ∧
  decodeTableWord 32 0x0004600C = some (.cmdLoadMode ⟨true, false, 0, 0x0230, 0⟩) ∧
  decodeTableWord 32 0x00000009 = some (.cmdClkEnable ⟨true, false, 0, 0, 0⟩)

/-- Decoding what the encoder writes gives the instruction back, for every well-formed instruction. -/
def Obligations.DecodeEncodeRoundTrip : Prop :=
  ∀ i : Instr, i.wellFormed = true → decode (encode i) = .ok i

/-- Every instruction the decoder answers is well-formed. -/
def Obligations.DecodedIsWellFormed : Prop :=
  ∀ (p : Packet) (i : Instr), decode p = .ok i → i.wellFormed = true

/-- No bit of a raw command word is lost: encoding the decoded word gives the word. -/
def Obligations.RawCommandWordLosesNoBit : Prop :=
  ∀ w : Word, encode (decodeCmdWord w) = .cmdWord w

/-- 30 R111: the value of an assembled command word. -/
def Obligations.EncodeCmdAssemblesFields : Prop :=
  ∀ c : Command, (encodeCmd c).toNat =
    c.mrd.toNat * 2 ^ 9 + c.nrfs.toNat * 2 ^ 5 + bit c.ctb1 * 2 ^ 4 + bit c.ctb2 * 2 ^ 3 + (modeCode c.mode).toNat

/-- 30 R112: decoding a command word is total, ignores bits [31:25], and undoes `encode_cmd`. -/
def Obligations.DecodeCmdUndoesEncodeCmd : Prop :=
  (∀ c : Command, commandOf (encodeCmd c) = some c) ∧
  (∀ w : Word, (cmdModeBits w).toNat = w.toNat % 8 ∧ (cmdOperands w).ctb2 = w.getLsbD 3 ∧
    (cmdOperands w).ctb1 = w.getLsbD 4 ∧ (cmdOperands w).nrfs.toNat = w.toNat / 2 ^ 5 % 2 ^ 4 ∧
    (cmdOperands w).mrd.toNat = w.toNat / 2 ^ 9 % 2 ^ 16) ∧
  ∀ w v : Word, w.toNat % 2 ^ 25 = v.toNat % 2 ^ 25 → commandOf w = commandOf v ∧ cmdModeBits w = cmdModeBits v

/-- 30 R117, 60 R277: an op number outside rule R100 selects no operation and its packet is refused. -/
def Obligations.UnlistedOpIsRefused : Prop :=
  ∀ (op : Byte) (bs : List Byte) (rest : List Request) (s : State),
    op.toNat ∉ [0x01, 0x02, 0x03, 0x04, 0x05, 0x06, 0x07, 0x08, 0x09, 0x0A, 0x0B, 0x10, 0x11, 0x20, 0x21, 0x22, 0x23,
      0x24, 0x25, 0x26, 0x30] →
    s.faulted = none → platformOk s.platform = true → s.polling = false →
    s.queue = .packet (.hostOp (op :: bs)) :: rest →
    step s = .refused (.undecodable (.noOperation op.toNat))

/-! ### The step -/

/-- A step takes the request at the head of the queue and runs the instruction its packet decodes to, or performs the
access it asks for; inside `SEND_COMMAND` a step is one poll; with nothing to do only the engine may act. -/
def Obligations.StepRunsDecodedInstruction : Prop :=
  ∀ s : State, s.faulted = none → platformOk s.platform = true →
    (s.polling = false →
      (∀ p rest i, s.queue = .packet p :: rest → decode p = .ok i → step s = exec i { s with queue := rest }) ∧
      (∀ a n rest, s.queue = .read a n :: rest → step s = hostRead a n { s with queue := rest }) ∧
      (∀ a n v rest, s.queue = .write a n v :: rest → step s = hostWrite a n v { s with queue := rest }) ∧
      (∀ v i rest, s.queue = .readElement v i :: rest → step s = readElement v i { s with queue := rest }) ∧
      (∀ v i x rest, s.queue = .writeElement v i x :: rest → step s = writeElement v i x { s with queue := rest }) ∧
      (s.queue = [] → step s = .next (engineTurn s))) ∧
    (s.polling = true → step s = pollOnce s)

/-- 60 R276: a step answers a fault exactly when the state is marked faulted, and then that fault. -/
def Obligations.FaultedStateEndsTheRun : Prop :=
  ∀ (s : State) (f : Fault), step s = .fault f ↔ s.faulted = some f

/-- 60 R276: a step marks a fault only as rules R71 and R73 say. -/
def Obligations.StepMarksOnlyTheNamedFaults : Prop :=
  ∀ (s t : State) (f : Fault), step s = .next t → t.faulted = some f →
    (f = .gateOff → t.clkGate = false) ∧
    (f = .commandWhileBusy → busy t = true ∧ t.clkGate = true ∧ ∃ w, t.events.getLast? = some (.regWritten .sdcmr w))

/-- 20 R79, 40 R141, 10 R50, 60 R277: which platforms are admitted, condition by condition; any other is refused before
anything runs. R277 lists only the overlapping regions as refused; that a platform which breaks R141 or R50 is refused
too is log 4 (DEDUCED); that a window may be empty is log 24. -/
def Obligations.BadPlatformIsRefused : Prop :=
  (∀ s : State, s.faulted = none → platformOk s.platform = false → step s = .refused .badPlatform) ∧
  ∀ p : Platform, platformOk p = true ↔
    (p.cap.length = 59 ∧ (∀ r, capOf p r ≠ [] ∧ (capOf p r).Nodup) ∧ (capOf p .sdnwe).length = 2 ∧
      ∀ b, (capOf p (.sdcke b)).length = 2 ∧ (capOf p (.sdne b)).length = 2) ∧
    (p.regBase.toNat + 0x1C ≤ 2 ^ 32 ∧ ∀ b, (bankBase p b).toNat + p.bankSize ≤ 2 ^ 32) ∧
    (∀ b a, ¬ ((p.regBase.toNat ≤ a ∧ a < p.regBase.toNat + 0x1C) ∧
      ((bankBase p b).toNat ≤ a ∧ a < (bankBase p b).toNat + p.bankSize))) ∧
    (∀ a, ¬ ((p.bankBase1.toNat ≤ a ∧ a < p.bankBase1.toNat + p.bankSize) ∧
      (p.bankBase2.toNat ≤ a ∧ a < p.bankBase2.toNat + p.bankSize))) ∧
    (∀ i, 15 ≤ i → p.resetRegs.sdcr1.getLsbD i = false ∧ p.resetRegs.sdcr2.getLsbD i = false) ∧
    (∀ i, 28 ≤ i → p.resetRegs.sdtr1.getLsbD i = false ∧ p.resetRegs.sdtr2.getLsbD i = false) ∧
    (∀ i, i < 5 ∨ 25 ≤ i → p.resetRegs.sdcmr.getLsbD i = false) ∧
    (∀ i, i < 1 ∨ 14 ≤ i → p.resetRegs.sdrtr.getLsbD i = false) ∧ p.resetRegs.sdsr = 0

/-! ### Reset, and invariants of every step -/

/-- 10 R50, 70 R300: what reset leaves, on every platform. That a byte of a bank is a free value of a draw of its own is
log 15. -/
def Obligations.ResetLeavesTheStatedValues : Prop :=
  ∀ p : Platform,
    (State.resetOn p).sdcr1 = p.resetRegs.sdcr1 ∧ (State.resetOn p).sdcr2 = p.resetRegs.sdcr2 ∧
    (State.resetOn p).sdtr1 = p.resetRegs.sdtr1 ∧ (State.resetOn p).sdtr2 = p.resetRegs.sdtr2 ∧
    (State.resetOn p).sdcmr = p.resetRegs.sdcmr ∧ (State.resetOn p).sdrtr = p.resetRegs.sdrtr ∧
    (State.resetOn p).sdsr = 0 ∧ (State.resetOn p).clkGate = false ∧
    (∀ q, pinOf (State.resetOn p) q =
      { binding := .unassigned, inBundle := false, slewHigh := false, pullupOff := false }) ∧
    (State.resetOn p).handle = none ∧
    (∀ b, phaseOf (State.resetOn p) b = .powerUp ∧ delayOkOf (State.resetOn p) b = false) ∧
    (State.resetOn p).refreshProgrammed = false ∧ (State.resetOn p).inflight = none ∧
    (State.resetOn p).faulted = none ∧ (State.resetOn p).events = [] ∧
    ∀ b o, readByte (State.resetOn p) b o = Config.freeByte (memOf (State.resetOn p) b).draw o

/-- Reset of every admitted platform satisfies the invariant. -/
def Obligations.ResetSatisfiesInvariant : Prop :=
  ∀ p : Platform, platformOk p = true → Inv (State.resetOn p)

/-- Every step keeps the invariant. -/
def Obligations.StepKeepsInvariant : Prop :=
  ∀ s t : State, Inv s → step s = .next t → Inv t

/-- 10 R31: reserved bits stay 0 under every step. -/
def Obligations.StepKeepsReservedBitsZero : Prop :=
  ∀ s t : State, ReservedBitsZero s → step s = .next t → ReservedBitsZero t

/-- 10 R45: issuing a command sets `inflight` and `BUSY` together, the engine's step clears both, and
`BUSY = 1 iff inflight != none` is kept by every step. -/
def Obligations.BusyIffCommandInFlight : Prop :=
  (∀ (w : Word) (s t : State) (c : Command), s.clkGate = true → s.inflight = none → busy s = false →
    commandOf w = some c → regWrite .sdcmr w s = .done () t → t.inflight = some c ∧ busy t = true) ∧
  (∀ s : State, (engineStep s).inflight = none ∧ busy (engineStep s) = false) ∧
  ∀ s t : State, BusyIffInflight s → step s = .next t → BusyIffInflight t

/-- 40 R154: no pin comes to be in two bundles or at two positions, and every pin of a bundle is bound to its position's
role, whatever the step. -/
def Obligations.StepKeepsBundlesExclusive : Prop :=
  ∀ s t : State, BundlesOwned s → BundlesDisjoint s → step s = .next t → BundlesOwned t ∧ BundlesDisjoint t

/-- 10 R35: once the Handle exists its bank is fixed. -/
def Obligations.HandleIsFixedForLife : Prop :=
  ∀ (s t : State) (b : Bank), s.handle = some b → step s = .next t → t.handle = some b

/-- 10 R47: the event history only grows at its end. -/
def Obligations.EventHistoryOnlyGrows : Prop :=
  ∀ s t : State, step s = .next t → ∃ es, t.events = s.events ++ es

/-- 10 R33: a bound pin keeps its role, and no flag of a pin goes back to false. -/
def Obligations.PinsAreNeverGivenBack : Prop :=
  ∀ (s t : State) (p : PinId), step s = .next t →
    ((pinOf s p).binding ≠ .unassigned → (pinOf t p).binding = (pinOf s p).binding) ∧
    ((pinOf s p).inBundle = true → (pinOf t p).inBundle = true) ∧
    ((pinOf s p).slewHigh = true → (pinOf t p).slewHigh = true) ∧
    ((pinOf s p).pullupOff = true → (pinOf t p).pullupOff = true)

/-- 10 R41: a bank's phase changes only by an issued command that targets it, and then as rule R216 says. -/
def Obligations.PhaseMovesOnlyByIssuedCommand : Prop :=
  ∀ (s t : State) (b : Bank), step s = .next t → phaseOf t b ≠ phaseOf s b →
    ∃ c es, t.events = s.events ++ es ∧ Event.cmdIssued c ∈ es ∧ targets c b = true ∧
      phaseOf t b = (nextTrack c.mode (phaseOf s b) (delayOkOf s b)).1

/-- 10 R43: `refresh_programmed` is false at reset, becomes true at every write of `SDRTR` and is never false again. -/
def Obligations.RefreshProgrammedIsKept : Prop :=
  (∀ p : Platform, (State.resetOn p).refreshProgrammed = false) ∧
  (∀ (v : Word) (s t : State), regWrite .sdrtr v s = .done () t → t.refreshProgrammed = true) ∧
  ∀ s t : State, step s = .next t →
    (s.refreshProgrammed = true → t.refreshProgrammed = true) ∧ (t.sdrtr ≠ s.sdrtr → t.refreshProgrammed = true)

/-- 10 R51, 40 R141: no step changes the platform. -/
def Obligations.PlatformNeverChanges : Prop :=
  ∀ s t : State, step s = .next t → t.platform = s.platform

/-- 20 R87: a command in flight is never replaced: it stays until the engine has reported it done. -/
def Obligations.InflightCommandIsNotReplaced : Prop :=
  ∀ (s t : State) (c : Command), BusyIffInflight s → s.inflight = some c → step s = .next t →
    ∃ es, t.events = s.events ++ es ∧ (t.inflight = some c ∨ Event.cmdDone ∈ es)

/-- 42 R232, 20 R71: with admitted requests only, nothing ever faults, and outside the poll loop no command is in
flight. -/
def Obligations.AdmittedRunsNeverFault : Prop :=
  ∀ s : State, Inv s → AdmittedRun s →
    (∀ f, step s ≠ .fault f) ∧ ∀ t, step s = .next t → AdmittedRun t

/-- 60 R270, R274: what a rejection does, with the numbers of E1 to E9; and an instruction that is rejected has changed
nothing but the event history (and what the host is told, log 18). -/
def Obligations.RejectionIsPrecise : Prop :=
  (∀ (code : Rejection) (s : State), reject code s = .next
    { s with
      events := s.events ++ [.rejected
        (match code with
        | .pinRoleRejected => 1
        | .pinNotAvailable => 2
        | .bundleMalformed => 3
        | .bankPinMismatch => 4
        | .timingZero => 5
        | .fieldOutOfRange => 6
        | .controllerUnavailable => 7
        | .noHandle => 8
        | .elementSizeZero => 9)],
      result := some (.rejected code) }) ∧
  ∀ (i : Instr) (s t : State) (code : Rejection), exec i s = .next t → t.result = some (.rejected code) →
    t = { s with events := s.events ++ [.rejected (rejectionNumber code)], result := some (.rejected code) }

/-! ### Pin topology -/

/-- 40 R142: `BIND_PIN`. -/
def Obligations.BindPinBindsOnce : Prop :=
  ∀ (p : PinId) (r : Role) (s : State),
    (p ∉ capOf s.platform r → exec (.bindPin p r) s = reject .pinRoleRejected s) ∧
    (p ∈ capOf s.platform r → (pinOf s p).binding ≠ .unassigned →
      exec (.bindPin p r) s = reject .pinNotAvailable s) ∧
    (p ∈ capOf s.platform r → (pinOf s p).binding = .unassigned → s.inflight = none →
      ∃ t, exec (.bindPin p r) s = .next t ∧ t.result = some (.boundPin p r) ∧
        (∀ q, pinOf t q = if q = p then { pinOf s p with binding := .bound r } else pinOf s q) ∧
        t.events = s.events ∧ SameRegisters s t ∧ SameSequencer s t ∧ SameMemory s t ∧ SameHost s t)

/-- 40 R143 to R150: a constructor whose pins are bound to its positions and free takes them, and changes nothing else. -/
def Obligations.ConstructorTakesItsPins : Prop :=
  ∀ (i : Instr) (b : Bundle) (s : State), constructedBundle i = some b → s.inflight = none →
    List.Forall₂ (fun p r => (pinOf s p).binding = .bound r ∧ (pinOf s p).inBundle = false) (bundlePins b)
      (bundleRoles b) →
    ∃ t, exec i s = .next t ∧ t.result = some (.bundle b) ∧ t.bundles = s.bundles ++ [b] ∧
      (∀ p, pinOf t p = if p ∈ bundlePins b then { pinOf s p with inBundle := true } else pinOf s p) ∧
      t.events = s.events ∧ SameRegisters s t ∧ SameSequencer s t ∧ SameMemory s t ∧ t.configs = s.configs ∧
      t.platform = s.platform ∧ t.queue = s.queue ∧ t.polling = s.polling

/-- 40 R143, R148, R149, 60 R273: which rejection a constructor reports. -/
def Obligations.ConstructorRejectsInOrder : Prop :=
  ∀ (i : Instr) (b : Bundle) (s : State), constructedBundle i = some b →
    (OtherBankPin s b → exec i s = reject .bankPinMismatch s) ∧
    (¬ OtherBankPin s b → (bundlePins b).length ≠ (bundleRoles b).length →
      exec i s = reject .bundleMalformed s) ∧
    (¬ OtherBankPin s b → (bundlePins b).length = (bundleRoles b).length →
      ∀ pre p r post, (bundlePins b).zip (bundleRoles b) = pre ++ (p, r) :: post →
        (∀ x ∈ pre, (pinOf s x.1).binding = .bound x.2 ∧ (pinOf s x.1).inBundle = false) →
        ((pinOf s p).binding ≠ .bound r → exec i s = reject .bundleMalformed s) ∧
        ((pinOf s p).binding = .bound r → (pinOf s p).inBundle = true →
          exec i s = reject .pinNotAvailable s))

/-- 40 R151: `PREPARE_PINS` sets both flags of every pin of the bundle, records each, and is idempotent on pins. -/
def Obligations.PreparePinsPreparesEveryPin : Prop :=
  ∀ (b : Bundle) (s : State), b ∈ s.bundles → s.inflight = none →
    ∃ t, exec (.preparePins b) s = .next t ∧ t.result = some (.bundle b) ∧
      (∀ p, pinOf t p =
        if p ∈ bundlePins b then { pinOf s p with slewHigh := true, pullupOff := true } else pinOf s p) ∧
      t.events = s.events ++ (bundlePins b).map .pinPrepared ∧ SameRegisters s t ∧ SameSequencer s t ∧
      SameMemory s t ∧ SameHost s t ∧ ∃ u, exec (.preparePins b) t = .next u ∧ SamePins t u

/-- 40 R152: `WIDTH` returns 0, 1 or 2 and writes nothing. -/
def Obligations.WidthReportsTheCode : Prop :=
  ∀ (b : DataBus) (s : State), .data b ∈ s.bundles →
    exec (.width b) s = .next { s with result := some (.code
      (match b.variant with | .d8 => 0 | .d16 => 1 | .d32 => 2)) }

/-- 40 R153: `BANK_OF_PINS` returns the bank of the constructor and writes nothing. -/
def Obligations.BankOfPinsReportsTheBank : Prop :=
  ∀ (b : CkeCs) (s : State), .ckeCs b ∈ s.bundles →
    exec (.bankOfPins b) s = .next { s with result := some (.bank b.bank) }

/-- 70 R303, 10 R34; the model's choice (log 8): an operation given a bundle or a Configuration the host does not hold is
refused. -/
def Obligations.MissingValueIsRefused : Prop :=
  ∀ s : State,
    (∀ b : Bundle, b ∉ s.bundles → exec (.preparePins b) s = .refused .noSuchValue) ∧
    (∀ b : DataBus, .data b ∉ s.bundles → exec (.width b) s = .refused .noSuchValue) ∧
    (∀ b : CkeCs, .ckeCs b ∉ s.bundles → exec (.bankOfPins b) s = .refused .noSuchValue) ∧
    (∀ c : Configuration, configError c = none → .addr c.addrBus ∉ s.bundles ∨ .data c.dataBus ∉ s.bundles →
      exec (.makeConfig c) s = .refused .noSuchValue) ∧
    ∀ cfg ba nbl clk ras cas sel we, s.handle = none →
      cfg ∉ s.configs ∨ (∃ b ∈ configureBundles cfg ba nbl clk ras cas sel we, b ∉ s.bundles) →
      exec (.configure cfg ba nbl clk ras cas sel we) s = .refused .noSuchValue

/-! ### Register programmer -/

/-- 41 R181: `MAKE_CONFIG` accepts exactly the encodable values, and reports a zero timing member before all else. That the
buses must be held and that the Configuration is then held is log 8. -/
def Obligations.MakeConfigChecksRanges : Prop :=
  ∀ (c : Configuration) (s : State),
    (0 ∈ timingMembers c.timing → exec (.makeConfig c) s = reject .timingZero s) ∧
    (0 ∉ timingMembers c.timing →
      ¬ ((∀ v ∈ timingMembers c.timing, v ≤ 16) ∧ (1 ≤ c.timing.cas ∧ c.timing.cas ≤ 3) ∧
        (8 ≤ c.columnBits ∧ c.columnBits ≤ 11) ∧ (11 ≤ c.rowBits ∧ c.rowBits ≤ 13) ∧
        (2 ≤ c.clockDivisor ∧ c.clockDivisor ≤ 3) ∧ c.pipelineDelay ≤ 2) →
      exec (.makeConfig c) s = reject .fieldOutOfRange s) ∧
    (0 ∉ timingMembers c.timing → (∀ v ∈ timingMembers c.timing, v ≤ 16) →
      (1 ≤ c.timing.cas ∧ c.timing.cas ≤ 3) → (8 ≤ c.columnBits ∧ c.columnBits ≤ 11) →
      (11 ≤ c.rowBits ∧ c.rowBits ≤ 13) → (2 ≤ c.clockDivisor ∧ c.clockDivisor ≤ 3) → c.pipelineDelay ≤ 2 →
      .addr c.addrBus ∈ s.bundles → .data c.dataBus ∈ s.bundles →
      exec (.makeConfig c) s = .next { s with configs := s.configs ++ [c], result := some (.config c) })

/-- 41 R182: a second `CONFIGURE` is E7, whatever its operands. -/
def Obligations.SecondConfigureIsRejected : Prop :=
  ∀ (cfg : Configuration) (ba : BankAccess) (nbl : ByteEnable) (clk ras cas : PinId) (sel : CkeCs) (we : PinId)
    (s : State), s.handle ≠ none →
    exec (.configure cfg ba nbl clk ras cas sel we) s = reject .controllerUnavailable s

/-- 41 R192, and R183, R184, R190: what a successful `CONFIGURE` leaves; the gate and every pin, in the order R184 fixes
for the history, come before the first register transaction; the nine bundles and the Configuration are consumed. That
the host holds these values in State is log 8, that the buses go with the Configuration log 9. -/
def Obligations.ConfigurePostcondition : Prop :=
  ∀ (cfg : Configuration) (ba : BankAccess) (nbl : ByteEnable) (clk ras cas : PinId) (sel : CkeCs) (we : PinId)
    (s : State), s.handle = none → s.inflight = none → cfg ∈ s.configs → configError cfg = none →
    (∀ b ∈ configureBundles cfg ba nbl clk ras cas sel we, b ∈ s.bundles) →
    ∃ t regs, exec (.configure cfg ba nbl clk ras cas sel we) s = .next t ∧ t.result = some (.handle sel.bank) ∧
      t.clkGate = true ∧
      (∀ p, pinOf t p =
        if p ∈ (configureBundles cfg ba nbl clk ras cas sel we).flatMap bundlePins then
          { pinOf s p with slewHigh := true, pullupOff := true }
        else pinOf s p) ∧
      t.handle = some sel.bank ∧
      eff t sel.bank =
        { sdclk := cfg.clockDivisor, rburst := bit cfg.burstRead, rpipe := cfg.pipelineDelay,
          nc := cfg.columnBits - 8, nr := cfg.rowBits - 11, mwid := widthCode cfg.dataBus.variant,
          nb := bankCountCode ba.variant, cas := cfg.timing.cas, wp := bit cfg.writeProtection,
          trc := cfg.timing.tRc - 1, trp := cfg.timing.tRp - 1, tmrd := cfg.timing.tMrd - 1,
          txsr := cfg.timing.tXsr - 1, tras := cfg.timing.tRas - 1, twr := cfg.timing.tWr - 1,
          trcd := cfg.timing.tRcd - 1 } ∧
      (sel.bank = .bank2 → eff t .bank1 =
        { eff s .bank1 with
          sdclk := cfg.clockDivisor, rburst := bit cfg.burstRead, rpipe := cfg.pipelineDelay,
          trc := cfg.timing.tRc - 1, trp := cfg.timing.tRp - 1 }) ∧
      t.sdcmr = s.sdcmr ∧ t.sdrtr = s.sdrtr ∧ t.sdsr = s.sdsr ∧ (∀ b, phaseOf t b = phaseOf s b) ∧
      (∀ b, delayOkOf t b = delayOkOf s b) ∧ t.refreshProgrammed = s.refreshProgrammed ∧ t.inflight = none ∧
      SameMemory s t ∧ t.faulted = s.faulted ∧ t.platform = s.platform ∧ t.queue = s.queue ∧ t.polling = s.polling ∧
      (∀ b, b ∈ t.bundles ↔ b ∈ s.bundles ∧ b ∉ configureBundles cfg ba nbl clk ras cas sel we) ∧
      t.configs = s.configs.erase cfg ∧
      t.events = s.events ++ [.gateEnabled] ++
        ((configureBundles cfg ba nbl clk ras cas sel we).flatMap bundlePins).map .pinPrepared ++ regs ∧
      (∀ e ∈ regs, ∃ r v, e = .regReadEv r v ∨ e = .regWritten r v) ∧
      regs.countP (fun e => match e with | .regWritten _ _ => true | _ => false) =
        (match sel.bank with | .bank1 => 2 | .bank2 => 4) ∧
      regs.countP (fun e => match e with | .regReadEv _ _ => true | _ => false) =
        (match sel.bank with | .bank1 => 2 | .bank2 => 4)

/-- 41 R186, R188: with Bank1 selected `SDCR2` and `SDTR2` are untouched, and the words written do not depend on the
old ones. -/
def Obligations.ConfigureBankOneWritesWholeWords : Prop :=
  ∀ (cfg : Configuration) (ba : BankAccess) (nbl : ByteEnable) (clk ras cas : PinId) (sel : CkeCs) (we : PinId)
    (s t : State), s.handle = none → sel.bank = .bank1 → configError cfg = none →
    exec (.configure cfg ba nbl clk ras cas sel we) s = .next t →
    t.sdcr2 = s.sdcr2 ∧ t.sdtr2 = s.sdtr2 ∧
    t.sdcr1.toNat = (cfg.columnBits - 8) + (cfg.rowBits - 11) * 2 ^ 2 + widthCode cfg.dataBus.variant * 2 ^ 4 +
      bankCountCode ba.variant * 2 ^ 6 + cfg.timing.cas * 2 ^ 7 + bit cfg.writeProtection * 2 ^ 9 +
      cfg.clockDivisor * 2 ^ 10 + bit cfg.burstRead * 2 ^ 12 + cfg.pipelineDelay * 2 ^ 13 ∧
    t.sdtr1.toNat = (cfg.timing.tMrd - 1) + (cfg.timing.tXsr - 1) * 2 ^ 4 + (cfg.timing.tRas - 1) * 2 ^ 8 +
      (cfg.timing.tRc - 1) * 2 ^ 12 + (cfg.timing.tWr - 1) * 2 ^ 16 + (cfg.timing.tRp - 1) * 2 ^ 20 +
      (cfg.timing.tRcd - 1) * 2 ^ 24

/-- 41 R187, R189: with Bank2 selected the bits of the other fields of all four registers keep their values. -/
def Obligations.ConfigureBankTwoKeepsOtherBits : Prop :=
  ∀ (cfg : Configuration) (ba : BankAccess) (nbl : ByteEnable) (clk ras cas : PinId) (sel : CkeCs) (we : PinId)
    (s t : State), s.handle = none → ReservedBitsZero s → sel.bank = .bank2 →
    exec (.configure cfg ba nbl clk ras cas sel we) s = .next t →
    (∀ i, i < 10 → t.sdcr1.getLsbD i = s.sdcr1.getLsbD i) ∧
    (∀ i, 10 ≤ i → i < 32 → t.sdcr2.getLsbD i = s.sdcr2.getLsbD i) ∧
    (∀ i, ¬ (12 ≤ i ∧ i < 16) → ¬ (20 ≤ i ∧ i < 24) → t.sdtr1.getLsbD i = s.sdtr1.getLsbD i) ∧
    (∀ i, 12 ≤ i ∧ i < 16 ∨ 20 ≤ i ∧ i < 24 → t.sdtr2.getLsbD i = s.sdtr2.getLsbD i)

/-! ### Command sequencer -/

/-- 60 R270, R273: without a Handle the seven operations on it are E8, whatever their operands. -/
def Obligations.NoHandleComesFirst : Prop :=
  ∀ s : State, s.handle = none →
    (∀ c, exec (.sendCommand c) s = reject .noHandle s) ∧
    (∀ e, exec (.setWriteProtection e) s = reject .noHandle s) ∧
    (∀ n, exec (.setAutoRefreshCount n) s = reject .noHandle s) ∧
    (∀ n, exec (.setRefreshInterval n) s = reject .noHandle s) ∧
    exec .writeProtection s = reject .noHandle s ∧ exec .bank s = reject .noHandle s ∧
    ∀ e n, exec (.memoryView e n) s = reject .noHandle s

/-- 42 R212, R213: `SEND_COMMAND` writes the assembled word, issues the command, whose busy duration is a draw (00 R6 P7,
42 R215; a free value, logs 10 and 16), and begins to poll (log 11). -/
def Obligations.SendCommandIssues : Prop :=
  ∀ (c : Command) (s : State), s.handle ≠ none → s.clkGate = true → s.inflight = none → busy s = false →
    ∃ t, exec (.sendCommand c) s = .next t ∧ t.polling = true ∧
      t.events = s.events ++ [.regWritten .sdcmr (encodeCmd c), .cmdIssued c] ∧
      t.inflight = some c ∧ busy t = true ∧ t.sdsr = s.sdsr ||| busyWord ∧
      t.busyLeft = Config.busyDuration s.draws ∧ t.draws = s.draws + 1 ∧ t.sdcmr.toNat = c.mrd.toNat * 2 ^ 9 + c.nrfs.toNat * 2 ^ 5 ∧
      (∀ b, (phaseOf t b, delayOkOf t b) =
        if targets c b then nextTrack c.mode (phaseOf s b) (delayOkOf s b) else (phaseOf s b, delayOkOf s b)) ∧
      (∀ r, r ≠ .sdcmr → r ≠ .sdsr → regValue t r = regValue s r) ∧ t.clkGate = true ∧ t.handle = s.handle ∧
      t.refreshProgrammed = s.refreshProgrammed ∧ t.faulted = s.faulted ∧ SamePins s t ∧ SameMemory s t ∧
      t.bundles = s.bundles ∧ t.configs = s.configs ∧ t.platform = s.platform ∧ t.queue = s.queue

/-- 42 R214: a command whose busy duration is `n` polls is polled exactly `n + 1` times. -/
def Obligations.PollsExactlyOneMoreThanBusy : Prop :=
  ∀ (s : State) (c : Command) (n : Nat), s.faulted = none → platformOk s.platform = true → s.polling = true →
    s.clkGate = true → s.inflight = some c → s.sdsr = busyWord → s.busyLeft = some n →
    (∀ k, k ≤ n → ∃ t, runSteps k s = .next t ∧ t.polling = true ∧
      t.events = s.events ++ List.replicate k (.regReadEv .sdsr busyWord)) ∧
    ∃ t, runSteps (n + 1) s = .next t ∧ t.polling = false ∧ t.inflight = none ∧ busy t = false ∧
      t.events = s.events ++ List.replicate n (.regReadEv .sdsr busyWord) ++ [.cmdDone, .regReadEv .sdsr 0]

/-- 42 R233, 60 R278: while the engine never finishes the host polls for ever and nothing else changes. -/
def Obligations.StuckBusyPollsForEver : Prop :=
  ∀ (s : State) (c : Command) (k : Nat), s.faulted = none → platformOk s.platform = true → s.polling = true →
    s.clkGate = true → s.inflight = some c → s.sdsr = busyWord → s.busyLeft = none →
    runSteps k s = .next { s with events := s.events ++ List.replicate k (.regReadEv .sdsr busyWord) }

/-- 42 R216: the transition table. -/
def Obligations.TrackerFollowsTheTable : Prop :=
  ∀ (m : CmdMode) (p : Phase) (d : Bool), nextTrack m p d =
    if m = .clockEnable ∧ p = .powerUp then (.clockEnabled, false)
    else if m = .prechargeAll ∧ p = .clockEnabled ∧ d = true then (.precharged, d)
    else if m = .autoRefresh ∧ p = .precharged then (.refreshed, d)
    else if m = .loadModeRegister ∧ p = .refreshed then (.modeLoaded, d)
    else (.violated, d)

/-- 42 R230: from `PowerUp` the tracker of a bank reaches `ModeLoaded` by exactly the required order of commands with a
delay of at least one tick between the first two, other delays standing anywhere. -/
def Obligations.OnlyTheRequiredOrderLoadsTheMode : Prop :=
  ∀ (acts : List TrackerAction) (d : Bool), (trackerRun acts (.powerUp, d)).1 = .modeLoaded ↔
    ∃ a0 a1 a2 a3 a4, OnlyDelays a0 ∧ OnlyDelays a1 ∧ OnlyDelays a2 ∧ OnlyDelays a3 ∧ OnlyDelays a4 ∧ HasDelay a1 ∧
      acts = a0 ++ .command .clockEnable :: a1 ++ .command .prechargeAll :: a2 ++ .command .autoRefresh :: a3 ++
        .command .loadModeRegister :: a4

/-- 42 R217: `DELAY` is recorded, and with at least one tick it satisfies every bank then in `ClockEnabled`. -/
def Obligations.DelayMarksClockEnabledBanks : Prop :=
  ∀ (n : Nat) (s : State), s.inflight = none →
    ∃ t, exec (.delay n) s = .next t ∧ t.events = s.events ++ [.delayed n] ∧
      (∀ b, (phaseOf t b, delayOkOf t b) = trackerStep (phaseOf s b, delayOkOf s b) (.delay n)) ∧
      SameRegisters s t ∧ SamePins s t ∧ SameMemory s t ∧ SameHost s t ∧ t.handle = s.handle ∧
      t.refreshProgrammed = s.refreshProgrammed ∧ t.inflight = none ∧ t.faulted = s.faulted

/-- 42 R226: `SET_WRITE_PROTECTION` changes bit 9 of the control register of the Handle's bank and nothing else; E8
without a Handle. -/
def Obligations.SetWriteProtectionChangesOneBit : Prop :=
  ∀ (e : Bool) (s : State), (s.handle = none → exec (.setWriteProtection e) s = reject .noHandle s) ∧
    ∀ b, s.handle = some b → s.clkGate = true → s.inflight = none → ReservedBitsZero s →
    ∃ t, exec (.setWriteProtection e) s = .next t ∧
      (∀ i, i < 32 → (regValue t (controlReg b)).getLsbD i =
        if i = 9 then e else (regValue s (controlReg b)).getLsbD i) ∧
      (∀ r, r ≠ controlReg b → regValue t r = regValue s r) ∧ t.clkGate = true ∧ SameSequencer s t ∧
      SamePins s t ∧ SameMemory s t ∧ SameHost s t ∧
      t.events = s.events ++ [.regReadEv (controlReg b) (regValue s (controlReg b)),
        .regWritten (controlReg b) (regValue t (controlReg b))]

/-- 42 R222: `SET_AUTO_REFRESH_COUNT` replaces the stored count, issues nothing, and rejects a count above 15 (E6) and
any count without a Handle (E8). -/
def Obligations.SetAutoRefreshCountIssuesNothing : Prop :=
  ∀ (n : Nat) (s : State),
    (s.handle = none → exec (.setAutoRefreshCount n) s = reject .noHandle s) ∧
    (s.handle ≠ none → 15 < n → exec (.setAutoRefreshCount n) s = reject .fieldOutOfRange s) ∧
    (s.handle ≠ none → n ≤ 15 → s.clkGate = true → s.inflight = none → busy s = false → ReservedBitsZero s →
      ∃ t, exec (.setAutoRefreshCount n) s = .next t ∧ getField fNRFS t.sdcmr = n ∧
        getField fMRD t.sdcmr = getField fMRD s.sdcmr ∧ t.sdcmr &&& ~~~ maskCMR = 0 ∧
        (∀ r, r ≠ .sdcmr → regValue t r = regValue s r) ∧ t.clkGate = true ∧ SameSequencer s t ∧ SamePins s t ∧
        SameMemory s t ∧ SameHost s t ∧
        t.events = s.events ++ [.regReadEv .sdcmr s.sdcmr, .regWritten .sdcmr t.sdcmr])

/-- 42 R229: `SET_REFRESH_INTERVAL` leaves `count << 1` in `SDRTR` and sets `refresh_programmed`; E6 above 8191, E8 without
a Handle. -/
def Obligations.SetRefreshIntervalProgramsTheTimer : Prop :=
  ∀ (n : Nat) (s : State),
    (s.handle = none → exec (.setRefreshInterval n) s = reject .noHandle s) ∧
    (s.handle ≠ none → 8191 < n → exec (.setRefreshInterval n) s = reject .fieldOutOfRange s) ∧
    (s.handle ≠ none → n ≤ 8191 → s.clkGate = true → s.inflight = none → ReservedBitsZero s →
      ∃ t, exec (.setRefreshInterval n) s = .next t ∧ t.sdrtr.toNat = 2 * n ∧ t.refreshProgrammed = true ∧
        (∀ r, r ≠ .sdrtr → regValue t r = regValue s r) ∧ t.clkGate = true ∧ t.handle = s.handle ∧
        (∀ b, phaseOf t b = phaseOf s b) ∧ (∀ b, delayOkOf t b = delayOkOf s b) ∧ t.inflight = none ∧
        t.faulted = s.faulted ∧ SamePins s t ∧ SameMemory s t ∧ SameHost s t ∧
        t.events = s.events ++ [.regReadEv .sdrtr s.sdrtr, .regWritten .sdrtr t.sdrtr])

/-- 42 R227, R228: the accessors report bit 9 of the Handle's control register and the Handle's bank; E8 without a
Handle. -/
def Obligations.AccessorsReportTheHandle : Prop :=
  ∀ s : State, (s.handle = none → exec .bank s = reject .noHandle s ∧ exec .writeProtection s = reject .noHandle s) ∧
    ∀ b, s.handle = some b →
    exec .bank s = .next { s with result := some (.bank b) } ∧
    (s.clkGate = true → s.inflight = none →
      exec .writeProtection s = .next
        { s with events := s.events ++ [.regReadEv (controlReg b) (regValue s (controlReg b))],
                 result := some (.flag ((regValue s (controlReg b)).getLsbD 9)) })

/-! ### Memory view and window accesses -/

/-- 43 R260, R261: the view's base and count; E9 for an element size of 0, E8 first without a Handle. -/
def Obligations.MemoryViewBaseAndCount : Prop :=
  ∀ (e n : Nat) (s : State), (s.handle = none → exec (.memoryView e n) s = reject .noHandle s) ∧
    ∀ b, s.handle = some b →
    (e = 0 → exec (.memoryView e n) s = reject .elementSizeZero s) ∧
    (e ≠ 0 → ∃ count, exec (.memoryView e n) s =
        .next { s with result := some (.view (bankBase s.platform b) count) } ∧
      count * e ≤ n ∧ n < count * e + e)

/-- 20 R83, R82, R77, R78: in a ready, unprotected bank a write of any size at any offset leaves the value's bytes there,
the least significant at the lowest offset, and no other byte of either bank changes; the read of the same bytes answers
the value. A read of any ready bank, protected or not, answers the little-endian value of the bytes there and changes
none. Both are recorded and change nothing else. The host reaches the window at an address (log 14) or through element `i`
of a view of the Handle's bank, at `base + i * element_size` (43 R262; log 22). A value wider than the access is cut:
log 20. -/
def Obligations.WindowReadsBackWhatWasWritten : Prop :=
  (∀ (s : State) (b : Bank) (a n o v : Nat), windowOf s.platform a n = some (b, o) → ready s b = true →
    (eff s b).wp = 0 →
    ∃ t, windowWrite a n v s = .next t ∧
      (∀ i, i < n → readByte t b (o + i) = BitVec.ofNat 8 (v / 256 ^ i)) ∧
      (∀ x y, ¬ (x = b ∧ o ≤ y ∧ y < o + n) → readByte t x y = readByte s x y) ∧
      (s.inflight = none →
        t.events = s.events ++ [.memWriteEv a n ((List.range n).map fun i => BitVec.ofNat 8 (v / 256 ^ i))] ∧
        SameRegisters s t ∧ SamePins s t ∧ SameSequencer s t ∧ SameHost s t) ∧
      ∃ u, windowRead a n t = .next u ∧ u.result = some (.value (v % 256 ^ n)) ∧ SameMemory t u) ∧
  (∀ (s : State) (b : Bank) (a n o : Nat), windowOf s.platform a n = some (b, o) → ready s b = true →
    ∃ t x, windowRead a n s = .next t ∧ t.result = some (.value x) ∧ x < 256 ^ n ∧
      (∀ i, i < n → x / 256 ^ i % 256 = (readByte s b (o + i)).toNat) ∧ SameMemory s t ∧
      (s.inflight = none →
        t.events = s.events ++ [.memReadEv a n ((List.range n).map fun i => readByte s b (o + i))] ∧
        SameRegisters s t ∧ SamePins s t ∧ SameSequencer s t ∧ SameHost s t)) ∧
  (∀ (s : State) (a : Word) (n v : Nat), windowOf s.platform a.toNat n ≠ none →
    hostRead a n s = windowRead a.toNat n s ∧ hostWrite a n v s = windowWrite a.toNat n v s) ∧
  ∀ (s : State) (b : Bank) (w : View) (i v : Nat), s.handle = some b → w.base = bankBase s.platform b →
    w.elementSize ≠ 0 → i < w.count →
    readElement w i s = windowRead ((bankBase s.platform b).toNat + i * w.elementSize) w.elementSize s ∧
    writeElement w i v s = windowWrite ((bankBase s.platform b).toNat + i * w.elementSize) w.elementSize v s

/-- 20 R83, 10 R52: a write to a ready, write-protected bank is recorded and changes no byte; a bank is protected by bit 9
of its own control register. -/
def Obligations.ProtectedWriteIsIgnored : Prop :=
  (∀ (s : State) (b : Bank), (eff s b).wp ≠ 0 ↔ (regValue s (controlReg b)).getLsbD 9 = true) ∧
  ∀ (s : State) (b : Bank) (a n o v : Nat), windowOf s.platform a n = some (b, o) → ready s b = true →
    (eff s b).wp ≠ 0 → s.inflight = none →
    ∃ t, windowWrite a n v s = .next t ∧ SameMemory s t ∧ SamePins s t ∧ SameRegisters s t ∧ SameSequencer s t ∧
      SameHost s t ∧
      t.events = s.events ++ [.memWriteEv a n ((List.range n).map fun i => BitVec.ofNat 8 (v / 256 ^ i))]

/-- 20 R82, R83, 10 R44: when a bank is ready; while it is not, a read answers the value of a draw and changes no byte, and
a write draws every byte of that bank anew and leaves the other bank alone; both are recorded and change nothing else.
The draws are free values, logs 15 and 16. -/
def Obligations.NotReadyAccessesAreDraws : Prop :=
  (∀ (s : State) (b : Bank), ready s b = true ↔
    s.handle = some b ∧ phaseOf s b = .modeLoaded ∧ s.refreshProgrammed = true ∧ s.faulted = none) ∧
  ∀ (s : State) (b : Bank) (a n o v : Nat), windowOf s.platform a n = some (b, o) → ready s b = false →
    (∃ t, windowRead a n s = .next t ∧ t.result = some (.value (littleEndianValue (drawBytes s.draws n))) ∧
      (s.inflight = none → t.events = s.events ++ [.memReadEv a n (drawBytes s.draws n)] ∧
        SameRegisters s t ∧ SamePins s t ∧ SameSequencer s t ∧ SameHost s t) ∧ SameMemory s t ∧
      t.draws = s.draws + 1) ∧
    ∃ t, windowWrite a n v s = .next t ∧ (∀ x, readByte t b x = Config.freeByte s.draws x) ∧
      (∀ x, readByte t (otherBank b) x = readByte s (otherBank b) x) ∧
      (s.inflight = none →
        t.events = s.events ++ [.memWriteEv a n ((List.range n).map fun i => BitVec.ofNat 8 (v / 256 ^ i))] ∧
        SameRegisters s t ∧ SamePins s t ∧ SameSequencer s t ∧ SameHost s t) ∧ t.draws = s.draws + 1

/-- 20 R81, R74, 60 R277, 43 R262: which accesses are inside a window of an admitted platform; an access outside both
windows is refused, unless it is a raw access (log 14) to one aligned word of the register block (aligned from `REG_BASE`,
log 23). An access of no bytes is outside (log 20). An address past `2^32` is never wrapped. An element beyond a view's
count, or of a view that no `MEMORY_VIEW` can have returned, is refused (log 22). -/
def Obligations.StrayAccessIsRefused : Prop :=
  (∀ (p : Platform) (a n o : Nat) (b : Bank), platformOk p = true →
    (windowOf p a n = some (b, o) ↔ 1 ≤ n ∧ a = (bankBase p b).toNat + o ∧ o + n ≤ p.bankSize)) ∧
  (∀ (s : State) (a n v : Nat), windowOf s.platform a n = none →
    windowRead a n s = .refused .outsideWindows ∧ windowWrite a n v s = .refused .outsideWindows) ∧
  (∀ (s : State) (a n v : Nat), platformOk s.platform = true → 2 ^ 32 ≤ a →
    windowRead a n s = .refused .outsideWindows ∧ windowWrite a n v s = .refused .outsideWindows) ∧
  (∀ (s : State) (a : Word) (n v : Nat), windowOf s.platform a.toNat n = none →
    (inRegisterBlock s.platform a = false →
      hostRead a n s = .refused .outsideWindows ∧ hostWrite a n v s = .refused .outsideWindows) ∧
    (inRegisterBlock s.platform a = true → n ≠ 4 ∨ (a.toNat - s.platform.regBase.toNat) % 4 ≠ 0 →
      hostRead a n s = .refused .registerAccess ∧ hostWrite a n v s = .refused .registerAccess)) ∧
  ∀ (s : State) (w : View) (i v : Nat),
    w.count ≤ i ∨ w.elementSize = 0 ∨ (∀ b, s.handle = some b → w.base ≠ bankBase s.platform b) →
    readElement w i s = .refused .noSuchValue ∧ writeElement w i v s = .refused .noSuchValue

/-! ### Raw command words and register writes -/

/-- 42 R218: a raw word of mode 0 stores `NRFS` and `MRD` and issues nothing. -/
def Obligations.IdleWordIssuesNothing : Prop :=
  ∀ (ops : CmdOperands) (s : State), s.clkGate = true → s.inflight = none → busy s = false →
    ∃ t, exec (.cmdIdle ops) s = .next t ∧ t.sdcmr.toNat = ops.mrd.toNat * 2 ^ 9 + ops.nrfs.toNat * 2 ^ 5 ∧
      t.events = s.events ++ [.regWritten .sdcmr (assembleCmd 0 ops)] ∧
      (∀ r, r ≠ .sdcmr → regValue t r = regValue s r) ∧ t.clkGate = true ∧ SameSequencer s t ∧ SamePins s t ∧
      SameMemory s t ∧ SameHost s t

/-- 42 R213, R219 to R221, R223: a raw word of mode 1 to 4 issues its command, whose busy duration is a draw (42 R215; a
free value, logs 10 and 16). -/
def Obligations.RawCommandWordIssues : Prop :=
  ∀ (m : CmdMode) (ops : CmdOperands) (s : State), s.clkGate = true → s.inflight = none → busy s = false →
    ∃ t, exec (rawInstr m ops) s = .next t ∧ t.inflight = some (commandWith m ops) ∧ busy t = true ∧
      t.sdsr = s.sdsr ||| busyWord ∧ t.busyLeft = Config.busyDuration s.draws ∧ t.draws = s.draws + 1 ∧
      t.sdcmr.toNat = ops.mrd.toNat * 2 ^ 9 + ops.nrfs.toNat * 2 ^ 5 ∧
      t.events = s.events ++ [.regWritten .sdcmr (assembleCmd (modeCode m) ops), .cmdIssued (commandWith m ops)] ∧
      (∀ b, (phaseOf t b, delayOkOf t b) =
        if targets (commandWith m ops) b then nextTrack m (phaseOf s b) (delayOkOf s b)
        else (phaseOf s b, delayOkOf s b)) ∧
      (∀ r, r ≠ .sdcmr → r ≠ .sdsr → regValue t r = regValue s r) ∧ t.clkGate = true ∧ t.handle = s.handle ∧
      t.refreshProgrammed = s.refreshProgrammed ∧ t.faulted = s.faulted ∧ SamePins s t ∧ SameMemory s t ∧ SameHost s t

/-- 42 R224, R225: raw words of modes 5, 6 and 7 are refused in every state. -/
def Obligations.ReservedModesAreRefused : Prop :=
  ∀ (ops : CmdOperands) (s : State), exec (.cmdSelfRefresh ops) s = .refused .selfRefresh ∧
    exec (.cmdPowerDown ops) s = .refused .powerDown ∧ exec (.cmdReserved7 ops) s = .refused .reservedMode

/-- 20 R73, 60 R276: a raw command word written while the controller stays busy is recorded, marks `CommandWhileBusy` and
stores nothing. -/
def Obligations.CommandWhileBusyFaults : Prop :=
  ∀ (ops : CmdOperands) (i : Instr) (w : Word) (s : State),
    (i = .cmdIdle ops ∧ w = assembleCmd 0 ops) ∨ (∃ m, i = rawInstr m ops ∧ w = assembleCmd (modeCode m) ops) →
    s.clkGate = true → busy s = true → s.busyLeft ≠ some 0 →
    ∃ t, exec i s = .next t ∧ t.faulted = some .commandWhileBusy ∧ (∀ r, regValue t r = regValue s r) ∧
      t.inflight = s.inflight ∧ (∀ b, phaseOf t b = phaseOf s b) ∧ t.events = s.events ++ [.regWritten .sdcmr w]

/-- 20 R71, 60 R276: a register transaction with the gate off marks `GateOff`, records nothing and changes no
register. -/
def Obligations.GateOffFaults : Prop :=
  ∀ (r : Reg) (v : Word) (s : State), s.clkGate = false → s.inflight = none →
    regRead r s = .halt { s with faulted := some .gateOff } ∧
    regWrite r v s = .halt { s with faulted := some .gateOff }

/-- 20 R73, 10 R31: a write of a register other than `SDCMR` stores the writable bits, and only there. 20 R72: a read answers
the register's value, is recorded and changes nothing else. 10 R20: the offset of each register, seen by a raw access of
4 bytes (log 14; the result of one is log 18). -/
def Obligations.RegWriteStoresWritableBits : Prop :=
  (∀ (r : Reg) (v : Word) (s : State), r ≠ .sdcmr → s.clkGate = true → s.inflight = none →
    ∃ t, regWrite r v s = .done () t ∧ t.events = s.events ++ [.regWritten r v] ∧
      (∀ i, i < 32 → (regValue t r).getLsbD i =
        match r with
        | .sdcr1 | .sdcr2 => decide (i < 15) && v.getLsbD i
        | .sdtr1 | .sdtr2 => decide (i < 28) && v.getLsbD i
        | .sdrtr => decide (1 ≤ i) && decide (i < 14) && v.getLsbD i
        | .sdcmr | .sdsr => (regValue s r).getLsbD i) ∧
      (∀ q, q ≠ r → regValue t q = regValue s q) ∧
      t.refreshProgrammed = (s.refreshProgrammed || decide (r = .sdrtr)) ∧ t.clkGate = true ∧ t.handle = s.handle ∧
      (∀ b, phaseOf t b = phaseOf s b) ∧ (∀ b, delayOkOf t b = delayOkOf s b) ∧ t.inflight = none ∧
      t.faulted = s.faulted ∧ SamePins s t ∧ SameMemory s t ∧ SameHost s t) ∧
  (∀ (r : Reg) (s : State), s.clkGate = true → s.inflight = none →
    regRead r s = .done (regValue s r) { s with events := s.events ++ [.regReadEv r (regValue s r)] }) ∧
  ∀ (r : Reg) (k : Nat) (a : Word) (v : Nat) (s : State), platformOk s.platform = true →
    (r, k) ∈ [(Reg.sdcr1, 0x00), (Reg.sdcr2, 0x04), (Reg.sdtr1, 0x08), (Reg.sdtr2, 0x0C), (Reg.sdcmr, 0x10),
      (Reg.sdrtr, 0x14), (Reg.sdsr, 0x18)] →
    a.toNat = s.platform.regBase.toNat + k →
    hostRead a 4 s = actEnd (actThen (regRead r s) fun w t => .done (.word w) t) ∧
    hostWrite a 4 v s = actEnd (actThen (regWrite r (BitVec.ofNat 32 v) s) fun _ t => .done .unit t)
end

