-- ==== Sys2Proof/Laws/Decode.lean ====
section
/-! SUPPORT. What each reader of the decoder answers on what the encoder writes, the rest of the bytes left over. -/

namespace Sys2Proof

/-- A reader that succeeds hands its value and the rest to what follows. -/
theorem parseThen_of_ok {α β : Type} {p : Parse α} {f : α → Parse β} {bs rest : List Byte} {a : α}
    (h : p bs = .ok (a, rest)) : parseThen p f bs = f a rest := by
  simp [parseThen, h]

theorem roleNumber_lt (r : Role) : roleNumber r < 59 := by
  cases r with
  | a i | d i | nbl i | ba i => simp only [roleNumber]; omega
  | sdcke b | sdne b => cases b <;> simp [roleNumber]
  | _ => simp [roleNumber]

/-- Reading a role's number gives the role back (30 R122). -/
theorem roleOfNumber_roleNumber (r : Role) : roleOfNumber (roleNumber r) = some r := by
  have h : ∀ n : Fin 59, (roleOfNumber n.val).map roleNumber = some n.val := by decide
  cases r with
  | a i => simp [roleNumber, roleOfNumber]
  | d i =>
    have := i.isLt
    simp [roleNumber, roleOfNumber, show ¬ 13 + i.val < 13 by omega]
  | nbl i => revert i; decide
  | ba i => revert i; decide
  | sdcke b | sdne b => cases b <;> decide
  | _ => decide

/-- An enumeration's byte reads as the value (log 2). -/
theorem getEnum_putNum {α : Type} {f : Nat → Option α} {n : Nat} {a : α} (h : f n = some a) (hn : n < 256)
    (rest : List Byte) : getEnum f (putNum n ++ rest) = .ok (a, rest) := by
  simp [getEnum, putNum, BitVec.toNat_ofNat, Nat.mod_eq_of_lt hn, h]

theorem getPin_putPin (p : PinId) (rest : List Byte) : getPin (putPin p ++ rest) = .ok (p, rest) := by
  simp [getPin, putPin, putNum]

theorem getNat_putNatFuel (fuel n : Nat) (h : n ≤ fuel) (rest : List Byte) :
    getNat (putNatFuel fuel n ++ rest) = .ok (n, rest) := by
  induction fuel generalizing n with
  | zero =>
    obtain rfl : n = 0 := by omega
    simp [putNatFuel, putNum, getNat]
  | succ fuel ih =>
    unfold putNatFuel
    split
    · rename_i hn
      simp [putNum, getNat, BitVec.toNat_ofNat, Nat.mod_eq_of_lt (show n < 256 by omega), hn]
    · rename_i hn
      have hm : (n % 128 + 128) % 256 = n % 128 + 128 := by omega
      simp [getNat, BitVec.toNat_ofNat, hm, ih (n / 128) (by omega)]
      omega

/-- A natural number's digits read as the number, of any size (log 2). -/
theorem getNat_putNat (n : Nat) (rest : List Byte) : getNat (putNat n ++ rest) = .ok (n, rest) :=
  getNat_putNatFuel n n (Nat.le_refl n) rest

theorem getPins_putPins (ps : List PinId) (n : Nat) (h : ps.length = n) (rest : List Byte) :
    getPins n (putPins ps ++ rest) = .ok (ps, rest) := by
  subst h
  induction ps with
  | nil => rfl
  | cons p ps ih =>
    rw [putPins] at ih
    simp only [List.length_cons, getPins, putPins, List.flatMap_cons, List.append_assoc]
    rw [parseThen_of_ok (getPin_putPin p _), parseThen_of_ok ih]
    rfl

theorem getPinList_putPinList (ps : List PinId) (rest : List Byte) :
    getPinList (putPinList ps ++ rest) = .ok (ps, rest) := by
  rw [getPinList, putPinList, List.append_assoc, parseThen_of_ok (getNat_putNat _ _), getPins_putPins ps _ rfl]

theorem addrVariant_back (v : AddrVariant) : addrVariantOfNumber (addrVariantNumber v) = some v := by cases v <;> rfl
theorem dataVariant_back (v : DataVariant) : dataVariantOfNumber (dataVariantNumber v) = some v := by cases v <;> rfl
theorem bankAccessVariant_back (v : BankAccessVariant) :
    bankAccessVariantOfNumber (bankAccessVariantNumber v) = some v := by cases v <;> rfl
theorem byteEnableVariant_back (v : ByteEnableVariant) :
    byteEnableVariantOfNumber (byteEnableVariantNumber v) = some v := by cases v <;> rfl
theorem bank_back (b : Bank) : bankOfNumber (bankNumber b) = some b := by cases b <;> rfl
theorem singleKind_back (k : SingleKind) : singleKindOfNumber (singleKindNumber k) = some k := by cases k <;> rfl
theorem cmdMode_back (m : CmdMode) : cmdModeOfNumber (cmdModeNumber m) = some m := by cases m <;> rfl
theorem bool_back (b : Bool) : boolOfNumber (boolNumber b) = some b := by cases b <;> rfl
theorem nrfs_back (n : BitVec 4) : nrfsOfNumber n.toNat = some n := by
  have := n.isLt
  simp [nrfsOfNumber, this]

theorem addrVariantNumber_lt (v : AddrVariant) : addrVariantNumber v < 256 := by cases v <;> decide
theorem dataVariantNumber_lt (v : DataVariant) : dataVariantNumber v < 256 := by cases v <;> decide
theorem bankAccessVariantNumber_lt (v : BankAccessVariant) : bankAccessVariantNumber v < 256 := by cases v <;> decide
theorem byteEnableVariantNumber_lt (v : ByteEnableVariant) : byteEnableVariantNumber v < 256 := by cases v <;> decide
theorem bankNumber_lt (b : Bank) : bankNumber b < 256 := by cases b <;> decide
theorem singleKindNumber_lt (k : SingleKind) : singleKindNumber k < 256 := by cases k <;> decide
theorem cmdModeNumber_lt (m : CmdMode) : cmdModeNumber m < 256 := by cases m <;> decide
theorem boolNumber_lt (b : Bool) : boolNumber b < 256 := by cases b <;> decide

theorem getAddrBus_putAddrBus (b : AddrBus) (h : b.wf = true) (rest : List Byte) :
    getAddrBus (putAddrBus b ++ rest) = .ok (b, rest) := by
  rw [getAddrBus, putAddrBus, List.append_assoc,
    parseThen_of_ok (getEnum_putNum (addrVariant_back _) (addrVariantNumber_lt _) _),
    parseThen_of_ok (getPins_putPins b.pins _ (by simpa [AddrBus.wf] using h) _)]
  rfl

theorem getDataBus_putDataBus (b : DataBus) (h : b.wf = true) (rest : List Byte) :
    getDataBus (putDataBus b ++ rest) = .ok (b, rest) := by
  rw [getDataBus, putDataBus, List.append_assoc,
    parseThen_of_ok (getEnum_putNum (dataVariant_back _) (dataVariantNumber_lt _) _),
    parseThen_of_ok (getPins_putPins b.pins _ (by simpa [DataBus.wf] using h) _)]
  rfl

theorem getBankAccess_putBankAccess (b : BankAccess) (h : b.wf = true) (rest : List Byte) :
    getBankAccess (putBankAccess b ++ rest) = .ok (b, rest) := by
  rw [getBankAccess, putBankAccess, List.append_assoc,
    parseThen_of_ok (getEnum_putNum (bankAccessVariant_back _) (bankAccessVariantNumber_lt _) _),
    parseThen_of_ok (getPins_putPins b.pins _ (by simpa [BankAccess.wf] using h) _)]
  rfl

theorem getByteEnable_putByteEnable (b : ByteEnable) (h : b.wf = true) (rest : List Byte) :
    getByteEnable (putByteEnable b ++ rest) = .ok (b, rest) := by
  rw [getByteEnable, putByteEnable, List.append_assoc,
    parseThen_of_ok (getEnum_putNum (byteEnableVariant_back _) (byteEnableVariantNumber_lt _) _),
    parseThen_of_ok (getPins_putPins b.pins _ (by simpa [ByteEnable.wf] using h) _)]
  rfl

theorem getCkeCs_putCkeCs (b : CkeCs) (rest : List Byte) : getCkeCs (putCkeCs b ++ rest) = .ok (b, rest) := by
  rw [getCkeCs, putCkeCs, List.append_assoc, List.append_assoc,
    parseThen_of_ok (getEnum_putNum (bank_back _) (bankNumber_lt _) _), parseThen_of_ok (getPin_putPin _ _),
    parseThen_of_ok (getPin_putPin _ _)]
  rfl

end Sys2Proof
end

