-- ==== Sys2Proof/Laws/Fields.lean ====
section
/-! SUPPORT. What replacing a field of a word does, bit by bit, and what reading a field then answers. -/

namespace Sys2Proof.Machine

/-- The bits of a word after one field is replaced (20 R75). -/
theorem insertField_getLsbD (w : Word) (f : Field) (v i : Nat) (hi : i < 32) :
    (insertField w f v).getLsbD i = if f.lo ≤ i ∧ i < f.lo + f.width then v.testBit (i - f.lo) else w.getLsbD i := by
  have hm : (fieldMask f).getLsbD i = decide (f.lo ≤ i ∧ i < f.lo + f.width) := by
    simp only [fieldMask, BitVec.getLsbD_shiftLeft, BitVec.getLsbD_ofNat, Nat.testBit_two_pow_sub_one]
    by_cases h : f.lo ≤ i
    · simp [h, hi, show i - f.lo < 32 by omega, show i - f.lo < f.width ↔ i < f.lo + f.width by omega]
    · simp [h, hi]
  have hv : (BitVec.ofNat 32 (v % 2 ^ f.width) <<< f.lo).getLsbD i =
      (decide (f.lo ≤ i ∧ i < f.lo + f.width) && v.testBit (i - f.lo)) := by
    simp only [BitVec.getLsbD_shiftLeft, BitVec.getLsbD_ofNat, Nat.testBit_mod_two_pow]
    by_cases h : f.lo ≤ i
    · simp [h, hi, show i - f.lo < 32 by omega, show i - f.lo < f.width ↔ i < f.lo + f.width by omega]
    · simp [h, hi]
  simp only [insertField, BitVec.getLsbD_or, BitVec.getLsbD_and, BitVec.getLsbD_not, hm, hv]
  split <;> rename_i h
  · simp [h]
  · simp [h, hi]

/-- The bits of a field's value. -/
theorem getField_testBit (f : Field) (w : Word) (j : Nat) :
    (getField f w).testBit j = (decide (j < f.width) && w.getLsbD (f.lo + j)) := by
  simp [getField, Nat.testBit_mod_two_pow, BitVec.getLsbD, Nat.testBit_shiftRight]

/-- A replaced field reads as the new value. -/
theorem getField_insertField_same (w : Word) (f : Field) (v : Nat) (hf : f.lo + f.width ≤ 32) (hv : v < 2 ^ f.width) :
    getField f (insertField w f v) = v := by
  apply Nat.eq_of_testBit_eq
  intro j
  rw [getField_testBit]
  by_cases hj : j < f.width
  · rw [insertField_getLsbD _ _ _ _ (by omega)]
    simp [hj]
  · simp [hj, Nat.testBit_lt_two_pow (Nat.lt_of_lt_of_le hv (Nat.pow_le_pow_right (by omega) (Nat.le_of_not_lt hj)))]

/-- Replacing a field leaves a field that does not overlap it alone. -/
theorem getField_insertField_other (w : Word) (f g : Field) (v : Nat) (hg : g.lo + g.width ≤ 32)
    (h : f.lo + f.width ≤ g.lo ∨ g.lo + g.width ≤ f.lo) : getField g (insertField w f v) = getField g w := by
  apply Nat.eq_of_testBit_eq
  intro j
  rw [getField_testBit, getField_testBit]
  by_cases hj : j < g.width
  · rw [insertField_getLsbD _ _ _ _ (by omega), if_neg (by omega)]
  · simp [hj]

/-- A mask that covers a field does not change what the field reads as. -/
theorem getField_and (f : Field) (w m : Word) (h : ∀ j, j < f.width → m.getLsbD (f.lo + j) = true) :
    getField f (w &&& m) = getField f w := by
  apply Nat.eq_of_testBit_eq
  intro j
  rw [getField_testBit, getField_testBit]
  by_cases hj : j < f.width
  · simp [h j hj]
  · simp [hj]

/-- Fields replaced in order: the first is replaced, then the others. -/
@[simp] theorem insertFields_nil (w : Word) : insertFields w [] = w := rfl

@[simp] theorem insertFields_cons (w : Word) (f : Field) (v : Nat) (fs : List (Field × Nat)) :
    insertFields w ((f, v) :: fs) = insertFields (insertField w f v) fs := rfl

/-- A bit outside every replaced field keeps its value (20 R76). -/
theorem insertFields_getLsbD_other (fs : List (Field × Nat)) (w : Word) (i : Nat) (hi : i < 32)
    (h : ∀ fv ∈ fs, ¬ (fv.1.lo ≤ i ∧ i < fv.1.lo + fv.1.width)) : (insertFields w fs).getLsbD i = w.getLsbD i := by
  induction fs generalizing w with
  | nil => rfl
  | cons fv fs ih =>
    obtain ⟨f, v⟩ := fv
    rw [insertFields_cons, ih _ (fun x hx => h x (List.mem_cons_of_mem _ hx)), insertField_getLsbD _ _ _ _ hi,
      if_neg (h (f, v) List.mem_cons_self)]

/-- Masking twice is masking once. -/
theorem and_mask_not (w m : Word) : (w &&& m) &&& ~~~ m = 0 := by
  ext i hi
  simp only [BitVec.getElem_and, BitVec.getElem_not]
  cases m[i] <;> simp

/-- A word whose bits outside a mask are 0 is its own masked value (10 R31). -/
theorem and_mask_of_reserved {w m : Word} (h : w &&& ~~~ m = 0) : w &&& m = w := by
  ext i hi
  have hb := congrArg (fun x : Word => x[i]) h
  simp only [BitVec.getElem_and, BitVec.getElem_not] at hb ⊢
  cases hw : w[i] <;> simp_all

end Sys2Proof.Machine
end

