-- ==== Sys2Proof/Laws/State.lean ====
section
/-! SUPPORT. One lemma per field per update of State: which fields an update leaves alone, and what it gives the others.
Later proofs rewrite with these and unfold no update. -/

namespace Sys2Proof.Machine

/-- What every step of a fold leaves alone, the fold leaves alone. -/
theorem foldl_keeps {α β γ : Type} (f : α → γ) (g : α → β → α) (h : ∀ a b, f (g a b) = f a) (l : List β) (a : α) :
    f (l.foldl g a) = f a := by
  induction l generalizing a with
  | nil => rfl
  | cons b l ih => exact (ih _).trans (h a b)

/-- What the engine's step and the countdown leave alone, the engine's turn leaves alone. -/
theorem engineTurn_keeps {γ : Type} (f : State → γ) (s : State) (h1 : f (engineStep s) = f s)
    (h2 : ∀ n, f { s with busyLeft := n } = f s) : f (engineTurn s) = f s := by
  unfold engineTurn
  split
  · exact h1
  · exact h2 _
  · rfl
  · rfl

/-- What the tracker step of a bank leaves alone, the tracker steps of a command leave alone. -/
theorem stepTracks_keeps {γ : Type} (f : State → γ) (h : ∀ m b s, f (stepTrack m b s) = f s) (c : Command) (s : State) :
    f (stepTracks c s) = f s := by
  unfold stepTracks
  cases c.ctb1 <;> cases c.ctb2 <;> simp [h]

/-! ### emit -/

@[simp] theorem emit_sdcr1 (e : Event) (s : State) : (emit e s).sdcr1 = s.sdcr1 := rfl
@[simp] theorem emit_sdcr2 (e : Event) (s : State) : (emit e s).sdcr2 = s.sdcr2 := rfl
@[simp] theorem emit_sdtr1 (e : Event) (s : State) : (emit e s).sdtr1 = s.sdtr1 := rfl
@[simp] theorem emit_sdtr2 (e : Event) (s : State) : (emit e s).sdtr2 = s.sdtr2 := rfl
@[simp] theorem emit_sdcmr (e : Event) (s : State) : (emit e s).sdcmr = s.sdcmr := rfl
@[simp] theorem emit_sdrtr (e : Event) (s : State) : (emit e s).sdrtr = s.sdrtr := rfl
@[simp] theorem emit_sdsr (e : Event) (s : State) : (emit e s).sdsr = s.sdsr := rfl
@[simp] theorem emit_clkGate (e : Event) (s : State) : (emit e s).clkGate = s.clkGate := rfl
@[simp] theorem emit_pins (e : Event) (s : State) : (emit e s).pins = s.pins := rfl
@[simp] theorem emit_handle (e : Event) (s : State) : (emit e s).handle = s.handle := rfl
@[simp] theorem emit_phase1 (e : Event) (s : State) : (emit e s).phase1 = s.phase1 := rfl
@[simp] theorem emit_phase2 (e : Event) (s : State) : (emit e s).phase2 = s.phase2 := rfl
@[simp] theorem emit_delayOk1 (e : Event) (s : State) : (emit e s).delayOk1 = s.delayOk1 := rfl
@[simp] theorem emit_delayOk2 (e : Event) (s : State) : (emit e s).delayOk2 = s.delayOk2 := rfl
@[simp] theorem emit_refreshProgrammed (e : Event) (s : State) : (emit e s).refreshProgrammed = s.refreshProgrammed :=
  rfl
@[simp] theorem emit_inflight (e : Event) (s : State) : (emit e s).inflight = s.inflight := rfl
@[simp] theorem emit_events (e : Event) (s : State) : (emit e s).events = s.events ++ [e] := rfl
@[simp] theorem emit_mem1 (e : Event) (s : State) : (emit e s).mem1 = s.mem1 := rfl
@[simp] theorem emit_mem2 (e : Event) (s : State) : (emit e s).mem2 = s.mem2 := rfl
@[simp] theorem emit_faulted (e : Event) (s : State) : (emit e s).faulted = s.faulted := rfl
@[simp] theorem emit_platform (e : Event) (s : State) : (emit e s).platform = s.platform := rfl
@[simp] theorem emit_bundles (e : Event) (s : State) : (emit e s).bundles = s.bundles := rfl
@[simp] theorem emit_configs (e : Event) (s : State) : (emit e s).configs = s.configs := rfl
@[simp] theorem emit_result (e : Event) (s : State) : (emit e s).result = s.result := rfl
@[simp] theorem emit_polling (e : Event) (s : State) : (emit e s).polling = s.polling := rfl
@[simp] theorem emit_busyLeft (e : Event) (s : State) : (emit e s).busyLeft = s.busyLeft := rfl
@[simp] theorem emit_draws (e : Event) (s : State) : (emit e s).draws = s.draws := rfl
@[simp] theorem emit_queue (e : Event) (s : State) : (emit e s).queue = s.queue := rfl

/-! ### setPin -/

@[simp] theorem setPin_sdcr1 (p : PinId) (r : PinState) (s : State) : (setPin p r s).sdcr1 = s.sdcr1 := rfl
@[simp] theorem setPin_sdcr2 (p : PinId) (r : PinState) (s : State) : (setPin p r s).sdcr2 = s.sdcr2 := rfl
@[simp] theorem setPin_sdtr1 (p : PinId) (r : PinState) (s : State) : (setPin p r s).sdtr1 = s.sdtr1 := rfl
@[simp] theorem setPin_sdtr2 (p : PinId) (r : PinState) (s : State) : (setPin p r s).sdtr2 = s.sdtr2 := rfl
@[simp] theorem setPin_sdcmr (p : PinId) (r : PinState) (s : State) : (setPin p r s).sdcmr = s.sdcmr := rfl
@[simp] theorem setPin_sdrtr (p : PinId) (r : PinState) (s : State) : (setPin p r s).sdrtr = s.sdrtr := rfl
@[simp] theorem setPin_sdsr (p : PinId) (r : PinState) (s : State) : (setPin p r s).sdsr = s.sdsr := rfl
@[simp] theorem setPin_clkGate (p : PinId) (r : PinState) (s : State) : (setPin p r s).clkGate = s.clkGate := rfl
@[simp] theorem setPin_pins (p : PinId) (r : PinState) (s : State) : (setPin p r s).pins = s.pins.set p.val r := rfl
@[simp] theorem setPin_handle (p : PinId) (r : PinState) (s : State) : (setPin p r s).handle = s.handle := rfl
@[simp] theorem setPin_phase1 (p : PinId) (r : PinState) (s : State) : (setPin p r s).phase1 = s.phase1 := rfl
@[simp] theorem setPin_phase2 (p : PinId) (r : PinState) (s : State) : (setPin p r s).phase2 = s.phase2 := rfl
@[simp] theorem setPin_delayOk1 (p : PinId) (r : PinState) (s : State) : (setPin p r s).delayOk1 = s.delayOk1 := rfl
@[simp] theorem setPin_delayOk2 (p : PinId) (r : PinState) (s : State) : (setPin p r s).delayOk2 = s.delayOk2 := rfl
@[simp] theorem setPin_refreshProgrammed (p : PinId) (r : PinState) (s : State) : (setPin p r s).refreshProgrammed = s.refreshProgrammed :=
  rfl
@[simp] theorem setPin_inflight (p : PinId) (r : PinState) (s : State) : (setPin p r s).inflight = s.inflight := rfl
@[simp] theorem setPin_events (p : PinId) (r : PinState) (s : State) : (setPin p r s).events = s.events := rfl
@[simp] theorem setPin_mem1 (p : PinId) (r : PinState) (s : State) : (setPin p r s).mem1 = s.mem1 := rfl
@[simp] theorem setPin_mem2 (p : PinId) (r : PinState) (s : State) : (setPin p r s).mem2 = s.mem2 := rfl
@[simp] theorem setPin_faulted (p : PinId) (r : PinState) (s : State) : (setPin p r s).faulted = s.faulted := rfl
@[simp] theorem setPin_platform (p : PinId) (r : PinState) (s : State) : (setPin p r s).platform = s.platform := rfl
@[simp] theorem setPin_bundles (p : PinId) (r : PinState) (s : State) : (setPin p r s).bundles = s.bundles := rfl
@[simp] theorem setPin_configs (p : PinId) (r : PinState) (s : State) : (setPin p r s).configs = s.configs := rfl
@[simp] theorem setPin_result (p : PinId) (r : PinState) (s : State) : (setPin p r s).result = s.result := rfl
@[simp] theorem setPin_polling (p : PinId) (r : PinState) (s : State) : (setPin p r s).polling = s.polling := rfl
@[simp] theorem setPin_busyLeft (p : PinId) (r : PinState) (s : State) : (setPin p r s).busyLeft = s.busyLeft := rfl
@[simp] theorem setPin_draws (p : PinId) (r : PinState) (s : State) : (setPin p r s).draws = s.draws := rfl
@[simp] theorem setPin_queue (p : PinId) (r : PinState) (s : State) : (setPin p r s).queue = s.queue := rfl

/-! ### setTrack -/

@[simp] theorem setTrack_sdcr1 (b : Bank) (p : Phase) (d : Bool) (s : State) : (setTrack b p d s).sdcr1 = s.sdcr1 :=
  by cases b <;> rfl
@[simp] theorem setTrack_sdcr2 (b : Bank) (p : Phase) (d : Bool) (s : State) : (setTrack b p d s).sdcr2 = s.sdcr2 :=
  by cases b <;> rfl
@[simp] theorem setTrack_sdtr1 (b : Bank) (p : Phase) (d : Bool) (s : State) : (setTrack b p d s).sdtr1 = s.sdtr1 :=
  by cases b <;> rfl
@[simp] theorem setTrack_sdtr2 (b : Bank) (p : Phase) (d : Bool) (s : State) : (setTrack b p d s).sdtr2 = s.sdtr2 :=
  by cases b <;> rfl
@[simp] theorem setTrack_sdcmr (b : Bank) (p : Phase) (d : Bool) (s : State) : (setTrack b p d s).sdcmr = s.sdcmr :=
  by cases b <;> rfl
@[simp] theorem setTrack_sdrtr (b : Bank) (p : Phase) (d : Bool) (s : State) : (setTrack b p d s).sdrtr = s.sdrtr :=
  by cases b <;> rfl
@[simp] theorem setTrack_sdsr (b : Bank) (p : Phase) (d : Bool) (s : State) : (setTrack b p d s).sdsr = s.sdsr :=
  by cases b <;> rfl
@[simp] theorem setTrack_clkGate (b : Bank) (p : Phase) (d : Bool) (s : State) : (setTrack b p d s).clkGate = s.clkGate :=
  by cases b <;> rfl
@[simp] theorem setTrack_pins (b : Bank) (p : Phase) (d : Bool) (s : State) : (setTrack b p d s).pins = s.pins :=
  by cases b <;> rfl
@[simp] theorem setTrack_handle (b : Bank) (p : Phase) (d : Bool) (s : State) : (setTrack b p d s).handle = s.handle :=
  by cases b <;> rfl
@[simp] theorem setTrack_refreshProgrammed (b : Bank) (p : Phase) (d : Bool) (s : State) : (setTrack b p d s).refreshProgrammed = s.refreshProgrammed :=
  by cases b <;> rfl
@[simp] theorem setTrack_inflight (b : Bank) (p : Phase) (d : Bool) (s : State) : (setTrack b p d s).inflight = s.inflight :=
  by cases b <;> rfl
@[simp] theorem setTrack_events (b : Bank) (p : Phase) (d : Bool) (s : State) : (setTrack b p d s).events = s.events :=
  by cases b <;> rfl
@[simp] theorem setTrack_mem1 (b : Bank) (p : Phase) (d : Bool) (s : State) : (setTrack b p d s).mem1 = s.mem1 :=
  by cases b <;> rfl
@[simp] theorem setTrack_mem2 (b : Bank) (p : Phase) (d : Bool) (s : State) : (setTrack b p d s).mem2 = s.mem2 :=
  by cases b <;> rfl
@[simp] theorem setTrack_faulted (b : Bank) (p : Phase) (d : Bool) (s : State) : (setTrack b p d s).faulted = s.faulted :=
  by cases b <;> rfl
@[simp] theorem setTrack_platform (b : Bank) (p : Phase) (d : Bool) (s : State) : (setTrack b p d s).platform = s.platform :=
  by cases b <;> rfl
@[simp] theorem setTrack_bundles (b : Bank) (p : Phase) (d : Bool) (s : State) : (setTrack b p d s).bundles = s.bundles :=
  by cases b <;> rfl
@[simp] theorem setTrack_configs (b : Bank) (p : Phase) (d : Bool) (s : State) : (setTrack b p d s).configs = s.configs :=
  by cases b <;> rfl
@[simp] theorem setTrack_result (b : Bank) (p : Phase) (d : Bool) (s : State) : (setTrack b p d s).result = s.result :=
  by cases b <;> rfl
@[simp] theorem setTrack_polling (b : Bank) (p : Phase) (d : Bool) (s : State) : (setTrack b p d s).polling = s.polling :=
  by cases b <;> rfl
@[simp] theorem setTrack_busyLeft (b : Bank) (p : Phase) (d : Bool) (s : State) : (setTrack b p d s).busyLeft = s.busyLeft :=
  by cases b <;> rfl
@[simp] theorem setTrack_draws (b : Bank) (p : Phase) (d : Bool) (s : State) : (setTrack b p d s).draws = s.draws :=
  by cases b <;> rfl
@[simp] theorem setTrack_queue (b : Bank) (p : Phase) (d : Bool) (s : State) : (setTrack b p d s).queue = s.queue :=
  by cases b <;> rfl

/-! ### setMem -/

@[simp] theorem setMem_sdcr1 (b : Bank) (m : Memory) (s : State) : (setMem b m s).sdcr1 = s.sdcr1 :=
  by cases b <;> rfl
@[simp] theorem setMem_sdcr2 (b : Bank) (m : Memory) (s : State) : (setMem b m s).sdcr2 = s.sdcr2 :=
  by cases b <;> rfl
@[simp] theorem setMem_sdtr1 (b : Bank) (m : Memory) (s : State) : (setMem b m s).sdtr1 = s.sdtr1 :=
  by cases b <;> rfl
@[simp] theorem setMem_sdtr2 (b : Bank) (m : Memory) (s : State) : (setMem b m s).sdtr2 = s.sdtr2 :=
  by cases b <;> rfl
@[simp] theorem setMem_sdcmr (b : Bank) (m : Memory) (s : State) : (setMem b m s).sdcmr = s.sdcmr :=
  by cases b <;> rfl
@[simp] theorem setMem_sdrtr (b : Bank) (m : Memory) (s : State) : (setMem b m s).sdrtr = s.sdrtr :=
  by cases b <;> rfl
@[simp] theorem setMem_sdsr (b : Bank) (m : Memory) (s : State) : (setMem b m s).sdsr = s.sdsr := by cases b <;> rfl
@[simp] theorem setMem_clkGate (b : Bank) (m : Memory) (s : State) : (setMem b m s).clkGate = s.clkGate :=
  by cases b <;> rfl
@[simp] theorem setMem_pins (b : Bank) (m : Memory) (s : State) : (setMem b m s).pins = s.pins := by cases b <;> rfl
@[simp] theorem setMem_handle (b : Bank) (m : Memory) (s : State) : (setMem b m s).handle = s.handle :=
  by cases b <;> rfl
@[simp] theorem setMem_phase1 (b : Bank) (m : Memory) (s : State) : (setMem b m s).phase1 = s.phase1 :=
  by cases b <;> rfl
@[simp] theorem setMem_phase2 (b : Bank) (m : Memory) (s : State) : (setMem b m s).phase2 = s.phase2 :=
  by cases b <;> rfl
@[simp] theorem setMem_delayOk1 (b : Bank) (m : Memory) (s : State) : (setMem b m s).delayOk1 = s.delayOk1 :=
  by cases b <;> rfl
@[simp] theorem setMem_delayOk2 (b : Bank) (m : Memory) (s : State) : (setMem b m s).delayOk2 = s.delayOk2 :=
  by cases b <;> rfl
@[simp] theorem setMem_refreshProgrammed (b : Bank) (m : Memory) (s : State) : (setMem b m s).refreshProgrammed = s.refreshProgrammed :=
  by cases b <;> rfl
@[simp] theorem setMem_inflight (b : Bank) (m : Memory) (s : State) : (setMem b m s).inflight = s.inflight :=
  by cases b <;> rfl
@[simp] theorem setMem_events (b : Bank) (m : Memory) (s : State) : (setMem b m s).events = s.events :=
  by cases b <;> rfl
@[simp] theorem setMem_faulted (b : Bank) (m : Memory) (s : State) : (setMem b m s).faulted = s.faulted :=
  by cases b <;> rfl
@[simp] theorem setMem_platform (b : Bank) (m : Memory) (s : State) : (setMem b m s).platform = s.platform :=
  by cases b <;> rfl
@[simp] theorem setMem_bundles (b : Bank) (m : Memory) (s : State) : (setMem b m s).bundles = s.bundles :=
  by cases b <;> rfl
@[simp] theorem setMem_configs (b : Bank) (m : Memory) (s : State) : (setMem b m s).configs = s.configs :=
  by cases b <;> rfl
@[simp] theorem setMem_result (b : Bank) (m : Memory) (s : State) : (setMem b m s).result = s.result :=
  by cases b <;> rfl
@[simp] theorem setMem_polling (b : Bank) (m : Memory) (s : State) : (setMem b m s).polling = s.polling :=
  by cases b <;> rfl
@[simp] theorem setMem_busyLeft (b : Bank) (m : Memory) (s : State) : (setMem b m s).busyLeft = s.busyLeft :=
  by cases b <;> rfl
@[simp] theorem setMem_draws (b : Bank) (m : Memory) (s : State) : (setMem b m s).draws = s.draws :=
  by cases b <;> rfl
@[simp] theorem setMem_queue (b : Bank) (m : Memory) (s : State) : (setMem b m s).queue = s.queue :=
  by cases b <;> rfl

/-! ### setBusy -/

@[simp] theorem setBusy_sdcr1 (s : State) : (setBusy s).sdcr1 = s.sdcr1 := rfl
@[simp] theorem setBusy_sdcr2 (s : State) : (setBusy s).sdcr2 = s.sdcr2 := rfl
@[simp] theorem setBusy_sdtr1 (s : State) : (setBusy s).sdtr1 = s.sdtr1 := rfl
@[simp] theorem setBusy_sdtr2 (s : State) : (setBusy s).sdtr2 = s.sdtr2 := rfl
@[simp] theorem setBusy_sdcmr (s : State) : (setBusy s).sdcmr = s.sdcmr := rfl
@[simp] theorem setBusy_sdrtr (s : State) : (setBusy s).sdrtr = s.sdrtr := rfl
@[simp] theorem setBusy_sdsr (s : State) : (setBusy s).sdsr = s.sdsr ||| busyWord := rfl
@[simp] theorem setBusy_clkGate (s : State) : (setBusy s).clkGate = s.clkGate := rfl
@[simp] theorem setBusy_pins (s : State) : (setBusy s).pins = s.pins := rfl
@[simp] theorem setBusy_handle (s : State) : (setBusy s).handle = s.handle := rfl
@[simp] theorem setBusy_phase1 (s : State) : (setBusy s).phase1 = s.phase1 := rfl
@[simp] theorem setBusy_phase2 (s : State) : (setBusy s).phase2 = s.phase2 := rfl
@[simp] theorem setBusy_delayOk1 (s : State) : (setBusy s).delayOk1 = s.delayOk1 := rfl
@[simp] theorem setBusy_delayOk2 (s : State) : (setBusy s).delayOk2 = s.delayOk2 := rfl
@[simp] theorem setBusy_refreshProgrammed (s : State) : (setBusy s).refreshProgrammed = s.refreshProgrammed := rfl
@[simp] theorem setBusy_inflight (s : State) : (setBusy s).inflight = s.inflight := rfl
@[simp] theorem setBusy_events (s : State) : (setBusy s).events = s.events := rfl
@[simp] theorem setBusy_mem1 (s : State) : (setBusy s).mem1 = s.mem1 := rfl
@[simp] theorem setBusy_mem2 (s : State) : (setBusy s).mem2 = s.mem2 := rfl
@[simp] theorem setBusy_faulted (s : State) : (setBusy s).faulted = s.faulted := rfl
@[simp] theorem setBusy_platform (s : State) : (setBusy s).platform = s.platform := rfl
@[simp] theorem setBusy_bundles (s : State) : (setBusy s).bundles = s.bundles := rfl
@[simp] theorem setBusy_configs (s : State) : (setBusy s).configs = s.configs := rfl
@[simp] theorem setBusy_result (s : State) : (setBusy s).result = s.result := rfl
@[simp] theorem setBusy_polling (s : State) : (setBusy s).polling = s.polling := rfl
@[simp] theorem setBusy_busyLeft (s : State) : (setBusy s).busyLeft = s.busyLeft := rfl
@[simp] theorem setBusy_draws (s : State) : (setBusy s).draws = s.draws := rfl
@[simp] theorem setBusy_queue (s : State) : (setBusy s).queue = s.queue := rfl

/-! ### clearBusy -/

@[simp] theorem clearBusy_sdcr1 (s : State) : (clearBusy s).sdcr1 = s.sdcr1 := rfl
@[simp] theorem clearBusy_sdcr2 (s : State) : (clearBusy s).sdcr2 = s.sdcr2 := rfl
@[simp] theorem clearBusy_sdtr1 (s : State) : (clearBusy s).sdtr1 = s.sdtr1 := rfl
@[simp] theorem clearBusy_sdtr2 (s : State) : (clearBusy s).sdtr2 = s.sdtr2 := rfl
@[simp] theorem clearBusy_sdcmr (s : State) : (clearBusy s).sdcmr = s.sdcmr := rfl
@[simp] theorem clearBusy_sdrtr (s : State) : (clearBusy s).sdrtr = s.sdrtr := rfl
@[simp] theorem clearBusy_sdsr (s : State) : (clearBusy s).sdsr = s.sdsr &&& ~~~ busyWord := rfl
@[simp] theorem clearBusy_clkGate (s : State) : (clearBusy s).clkGate = s.clkGate := rfl
@[simp] theorem clearBusy_pins (s : State) : (clearBusy s).pins = s.pins := rfl
@[simp] theorem clearBusy_handle (s : State) : (clearBusy s).handle = s.handle := rfl
@[simp] theorem clearBusy_phase1 (s : State) : (clearBusy s).phase1 = s.phase1 := rfl
@[simp] theorem clearBusy_phase2 (s : State) : (clearBusy s).phase2 = s.phase2 := rfl
@[simp] theorem clearBusy_delayOk1 (s : State) : (clearBusy s).delayOk1 = s.delayOk1 := rfl
@[simp] theorem clearBusy_delayOk2 (s : State) : (clearBusy s).delayOk2 = s.delayOk2 := rfl
@[simp] theorem clearBusy_refreshProgrammed (s : State) : (clearBusy s).refreshProgrammed = s.refreshProgrammed := rfl
@[simp] theorem clearBusy_inflight (s : State) : (clearBusy s).inflight = s.inflight := rfl
@[simp] theorem clearBusy_events (s : State) : (clearBusy s).events = s.events := rfl
@[simp] theorem clearBusy_mem1 (s : State) : (clearBusy s).mem1 = s.mem1 := rfl
@[simp] theorem clearBusy_mem2 (s : State) : (clearBusy s).mem2 = s.mem2 := rfl
@[simp] theorem clearBusy_faulted (s : State) : (clearBusy s).faulted = s.faulted := rfl
@[simp] theorem clearBusy_platform (s : State) : (clearBusy s).platform = s.platform := rfl
@[simp] theorem clearBusy_bundles (s : State) : (clearBusy s).bundles = s.bundles := rfl
@[simp] theorem clearBusy_configs (s : State) : (clearBusy s).configs = s.configs := rfl
@[simp] theorem clearBusy_result (s : State) : (clearBusy s).result = s.result := rfl
@[simp] theorem clearBusy_polling (s : State) : (clearBusy s).polling = s.polling := rfl
@[simp] theorem clearBusy_busyLeft (s : State) : (clearBusy s).busyLeft = s.busyLeft := rfl
@[simp] theorem clearBusy_draws (s : State) : (clearBusy s).draws = s.draws := rfl
@[simp] theorem clearBusy_queue (s : State) : (clearBusy s).queue = s.queue := rfl

/-! ### engineStep -/

@[simp] theorem engineStep_sdcr1 (s : State) : (engineStep s).sdcr1 = s.sdcr1 := rfl
@[simp] theorem engineStep_sdcr2 (s : State) : (engineStep s).sdcr2 = s.sdcr2 := rfl
@[simp] theorem engineStep_sdtr1 (s : State) : (engineStep s).sdtr1 = s.sdtr1 := rfl
@[simp] theorem engineStep_sdtr2 (s : State) : (engineStep s).sdtr2 = s.sdtr2 := rfl
@[simp] theorem engineStep_sdcmr (s : State) : (engineStep s).sdcmr = s.sdcmr := rfl
@[simp] theorem engineStep_sdrtr (s : State) : (engineStep s).sdrtr = s.sdrtr := rfl
@[simp] theorem engineStep_sdsr (s : State) : (engineStep s).sdsr = s.sdsr &&& ~~~ busyWord := rfl
@[simp] theorem engineStep_clkGate (s : State) : (engineStep s).clkGate = s.clkGate := rfl
@[simp] theorem engineStep_pins (s : State) : (engineStep s).pins = s.pins := rfl
@[simp] theorem engineStep_handle (s : State) : (engineStep s).handle = s.handle := rfl
@[simp] theorem engineStep_phase1 (s : State) : (engineStep s).phase1 = s.phase1 := rfl
@[simp] theorem engineStep_phase2 (s : State) : (engineStep s).phase2 = s.phase2 := rfl
@[simp] theorem engineStep_delayOk1 (s : State) : (engineStep s).delayOk1 = s.delayOk1 := rfl
@[simp] theorem engineStep_delayOk2 (s : State) : (engineStep s).delayOk2 = s.delayOk2 := rfl
@[simp] theorem engineStep_refreshProgrammed (s : State) : (engineStep s).refreshProgrammed = s.refreshProgrammed :=
  rfl
@[simp] theorem engineStep_inflight (s : State) : (engineStep s).inflight = none := rfl
@[simp] theorem engineStep_events (s : State) : (engineStep s).events = s.events ++ [.cmdDone] := rfl
@[simp] theorem engineStep_mem1 (s : State) : (engineStep s).mem1 = s.mem1 := rfl
@[simp] theorem engineStep_mem2 (s : State) : (engineStep s).mem2 = s.mem2 := rfl
@[simp] theorem engineStep_faulted (s : State) : (engineStep s).faulted = s.faulted := rfl
@[simp] theorem engineStep_platform (s : State) : (engineStep s).platform = s.platform := rfl
@[simp] theorem engineStep_bundles (s : State) : (engineStep s).bundles = s.bundles := rfl
@[simp] theorem engineStep_configs (s : State) : (engineStep s).configs = s.configs := rfl
@[simp] theorem engineStep_result (s : State) : (engineStep s).result = s.result := rfl
@[simp] theorem engineStep_polling (s : State) : (engineStep s).polling = s.polling := rfl
@[simp] theorem engineStep_busyLeft (s : State) : (engineStep s).busyLeft = none := rfl
@[simp] theorem engineStep_draws (s : State) : (engineStep s).draws = s.draws := rfl
@[simp] theorem engineStep_queue (s : State) : (engineStep s).queue = s.queue := rfl

/-! ### engineTurn -/

@[simp] theorem engineTurn_sdcr1 (s : State) : (engineTurn s).sdcr1 = s.sdcr1 :=
  engineTurn_keeps (·.sdcr1) s rfl fun _ => rfl
@[simp] theorem engineTurn_sdcr2 (s : State) : (engineTurn s).sdcr2 = s.sdcr2 :=
  engineTurn_keeps (·.sdcr2) s rfl fun _ => rfl
@[simp] theorem engineTurn_sdtr1 (s : State) : (engineTurn s).sdtr1 = s.sdtr1 :=
  engineTurn_keeps (·.sdtr1) s rfl fun _ => rfl
@[simp] theorem engineTurn_sdtr2 (s : State) : (engineTurn s).sdtr2 = s.sdtr2 :=
  engineTurn_keeps (·.sdtr2) s rfl fun _ => rfl
@[simp] theorem engineTurn_sdcmr (s : State) : (engineTurn s).sdcmr = s.sdcmr :=
  engineTurn_keeps (·.sdcmr) s rfl fun _ => rfl
@[simp] theorem engineTurn_sdrtr (s : State) : (engineTurn s).sdrtr = s.sdrtr :=
  engineTurn_keeps (·.sdrtr) s rfl fun _ => rfl
@[simp] theorem engineTurn_clkGate (s : State) : (engineTurn s).clkGate = s.clkGate :=
  engineTurn_keeps (·.clkGate) s rfl fun _ => rfl
@[simp] theorem engineTurn_pins (s : State) : (engineTurn s).pins = s.pins :=
  engineTurn_keeps (·.pins) s rfl fun _ => rfl
@[simp] theorem engineTurn_handle (s : State) : (engineTurn s).handle = s.handle :=
  engineTurn_keeps (·.handle) s rfl fun _ => rfl
@[simp] theorem engineTurn_phase1 (s : State) : (engineTurn s).phase1 = s.phase1 :=
  engineTurn_keeps (·.phase1) s rfl fun _ => rfl
@[simp] theorem engineTurn_phase2 (s : State) : (engineTurn s).phase2 = s.phase2 :=
  engineTurn_keeps (·.phase2) s rfl fun _ => rfl
@[simp] theorem engineTurn_delayOk1 (s : State) : (engineTurn s).delayOk1 = s.delayOk1 :=
  engineTurn_keeps (·.delayOk1) s rfl fun _ => rfl
@[simp] theorem engineTurn_delayOk2 (s : State) : (engineTurn s).delayOk2 = s.delayOk2 :=
  engineTurn_keeps (·.delayOk2) s rfl fun _ => rfl
@[simp] theorem engineTurn_refreshProgrammed (s : State) : (engineTurn s).refreshProgrammed = s.refreshProgrammed :=
  engineTurn_keeps (·.refreshProgrammed) s rfl fun _ => rfl
@[simp] theorem engineTurn_mem1 (s : State) : (engineTurn s).mem1 = s.mem1 :=
  engineTurn_keeps (·.mem1) s rfl fun _ => rfl
@[simp] theorem engineTurn_mem2 (s : State) : (engineTurn s).mem2 = s.mem2 :=
  engineTurn_keeps (·.mem2) s rfl fun _ => rfl
@[simp] theorem engineTurn_faulted (s : State) : (engineTurn s).faulted = s.faulted :=
  engineTurn_keeps (·.faulted) s rfl fun _ => rfl
@[simp] theorem engineTurn_platform (s : State) : (engineTurn s).platform = s.platform :=
  engineTurn_keeps (·.platform) s rfl fun _ => rfl
@[simp] theorem engineTurn_bundles (s : State) : (engineTurn s).bundles = s.bundles :=
  engineTurn_keeps (·.bundles) s rfl fun _ => rfl
@[simp] theorem engineTurn_configs (s : State) : (engineTurn s).configs = s.configs :=
  engineTurn_keeps (·.configs) s rfl fun _ => rfl
@[simp] theorem engineTurn_result (s : State) : (engineTurn s).result = s.result :=
  engineTurn_keeps (·.result) s rfl fun _ => rfl
@[simp] theorem engineTurn_polling (s : State) : (engineTurn s).polling = s.polling :=
  engineTurn_keeps (·.polling) s rfl fun _ => rfl
@[simp] theorem engineTurn_draws (s : State) : (engineTurn s).draws = s.draws :=
  engineTurn_keeps (·.draws) s rfl fun _ => rfl
@[simp] theorem engineTurn_queue (s : State) : (engineTurn s).queue = s.queue :=
  engineTurn_keeps (·.queue) s rfl fun _ => rfl

/-! ### updatePin -/

@[simp] theorem updatePin_sdcr1 (p : PinId) (f : PinState → PinState) (s : State) : (updatePin p f s).sdcr1 = s.sdcr1 :=
  engineTurn_sdcr1 s
@[simp] theorem updatePin_sdcr2 (p : PinId) (f : PinState → PinState) (s : State) : (updatePin p f s).sdcr2 = s.sdcr2 :=
  engineTurn_sdcr2 s
@[simp] theorem updatePin_sdtr1 (p : PinId) (f : PinState → PinState) (s : State) : (updatePin p f s).sdtr1 = s.sdtr1 :=
  engineTurn_sdtr1 s
@[simp] theorem updatePin_sdtr2 (p : PinId) (f : PinState → PinState) (s : State) : (updatePin p f s).sdtr2 = s.sdtr2 :=
  engineTurn_sdtr2 s
@[simp] theorem updatePin_sdcmr (p : PinId) (f : PinState → PinState) (s : State) : (updatePin p f s).sdcmr = s.sdcmr :=
  engineTurn_sdcmr s
@[simp] theorem updatePin_sdrtr (p : PinId) (f : PinState → PinState) (s : State) : (updatePin p f s).sdrtr = s.sdrtr :=
  engineTurn_sdrtr s
@[simp] theorem updatePin_clkGate (p : PinId) (f : PinState → PinState) (s : State) : (updatePin p f s).clkGate = s.clkGate :=
  engineTurn_clkGate s
@[simp] theorem updatePin_handle (p : PinId) (f : PinState → PinState) (s : State) : (updatePin p f s).handle = s.handle :=
  engineTurn_handle s
@[simp] theorem updatePin_phase1 (p : PinId) (f : PinState → PinState) (s : State) : (updatePin p f s).phase1 = s.phase1 :=
  engineTurn_phase1 s
@[simp] theorem updatePin_phase2 (p : PinId) (f : PinState → PinState) (s : State) : (updatePin p f s).phase2 = s.phase2 :=
  engineTurn_phase2 s
@[simp] theorem updatePin_delayOk1 (p : PinId) (f : PinState → PinState) (s : State) : (updatePin p f s).delayOk1 = s.delayOk1 :=
  engineTurn_delayOk1 s
@[simp] theorem updatePin_delayOk2 (p : PinId) (f : PinState → PinState) (s : State) : (updatePin p f s).delayOk2 = s.delayOk2 :=
  engineTurn_delayOk2 s
@[simp] theorem updatePin_refreshProgrammed (p : PinId) (f : PinState → PinState) (s : State) : (updatePin p f s).refreshProgrammed = s.refreshProgrammed :=
  engineTurn_refreshProgrammed s
@[simp] theorem updatePin_mem1 (p : PinId) (f : PinState → PinState) (s : State) : (updatePin p f s).mem1 = s.mem1 :=
  engineTurn_mem1 s
@[simp] theorem updatePin_mem2 (p : PinId) (f : PinState → PinState) (s : State) : (updatePin p f s).mem2 = s.mem2 :=
  engineTurn_mem2 s
@[simp] theorem updatePin_faulted (p : PinId) (f : PinState → PinState) (s : State) : (updatePin p f s).faulted = s.faulted :=
  engineTurn_faulted s
@[simp] theorem updatePin_platform (p : PinId) (f : PinState → PinState) (s : State) : (updatePin p f s).platform = s.platform :=
  engineTurn_platform s
@[simp] theorem updatePin_bundles (p : PinId) (f : PinState → PinState) (s : State) : (updatePin p f s).bundles = s.bundles :=
  engineTurn_bundles s
@[simp] theorem updatePin_configs (p : PinId) (f : PinState → PinState) (s : State) : (updatePin p f s).configs = s.configs :=
  engineTurn_configs s
@[simp] theorem updatePin_result (p : PinId) (f : PinState → PinState) (s : State) : (updatePin p f s).result = s.result :=
  engineTurn_result s
@[simp] theorem updatePin_polling (p : PinId) (f : PinState → PinState) (s : State) : (updatePin p f s).polling = s.polling :=
  engineTurn_polling s
@[simp] theorem updatePin_draws (p : PinId) (f : PinState → PinState) (s : State) : (updatePin p f s).draws = s.draws :=
  engineTurn_draws s
@[simp] theorem updatePin_queue (p : PinId) (f : PinState → PinState) (s : State) : (updatePin p f s).queue = s.queue :=
  engineTurn_queue s

/-! ### stepTrack -/

@[simp] theorem stepTrack_sdcr1 (m : CmdMode) (b : Bank) (s : State) : (stepTrack m b s).sdcr1 = s.sdcr1 :=
  setTrack_sdcr1 ..
@[simp] theorem stepTrack_sdcr2 (m : CmdMode) (b : Bank) (s : State) : (stepTrack m b s).sdcr2 = s.sdcr2 :=
  setTrack_sdcr2 ..
@[simp] theorem stepTrack_sdtr1 (m : CmdMode) (b : Bank) (s : State) : (stepTrack m b s).sdtr1 = s.sdtr1 :=
  setTrack_sdtr1 ..
@[simp] theorem stepTrack_sdtr2 (m : CmdMode) (b : Bank) (s : State) : (stepTrack m b s).sdtr2 = s.sdtr2 :=
  setTrack_sdtr2 ..
@[simp] theorem stepTrack_sdcmr (m : CmdMode) (b : Bank) (s : State) : (stepTrack m b s).sdcmr = s.sdcmr :=
  setTrack_sdcmr ..
@[simp] theorem stepTrack_sdrtr (m : CmdMode) (b : Bank) (s : State) : (stepTrack m b s).sdrtr = s.sdrtr :=
  setTrack_sdrtr ..
@[simp] theorem stepTrack_sdsr (m : CmdMode) (b : Bank) (s : State) : (stepTrack m b s).sdsr = s.sdsr :=
  setTrack_sdsr ..
@[simp] theorem stepTrack_clkGate (m : CmdMode) (b : Bank) (s : State) : (stepTrack m b s).clkGate = s.clkGate :=
  setTrack_clkGate ..
@[simp] theorem stepTrack_pins (m : CmdMode) (b : Bank) (s : State) : (stepTrack m b s).pins = s.pins :=
  setTrack_pins ..
@[simp] theorem stepTrack_handle (m : CmdMode) (b : Bank) (s : State) : (stepTrack m b s).handle = s.handle :=
  setTrack_handle ..
@[simp] theorem stepTrack_refreshProgrammed (m : CmdMode) (b : Bank) (s : State) : (stepTrack m b s).refreshProgrammed = s.refreshProgrammed :=
  setTrack_refreshProgrammed ..
@[simp] theorem stepTrack_inflight (m : CmdMode) (b : Bank) (s : State) : (stepTrack m b s).inflight = s.inflight :=
  setTrack_inflight ..
@[simp] theorem stepTrack_events (m : CmdMode) (b : Bank) (s : State) : (stepTrack m b s).events = s.events :=
  setTrack_events ..
@[simp] theorem stepTrack_mem1 (m : CmdMode) (b : Bank) (s : State) : (stepTrack m b s).mem1 = s.mem1 :=
  setTrack_mem1 ..
@[simp] theorem stepTrack_mem2 (m : CmdMode) (b : Bank) (s : State) : (stepTrack m b s).mem2 = s.mem2 :=
  setTrack_mem2 ..
@[simp] theorem stepTrack_faulted (m : CmdMode) (b : Bank) (s : State) : (stepTrack m b s).faulted = s.faulted :=
  setTrack_faulted ..
@[simp] theorem stepTrack_platform (m : CmdMode) (b : Bank) (s : State) : (stepTrack m b s).platform = s.platform :=
  setTrack_platform ..
@[simp] theorem stepTrack_bundles (m : CmdMode) (b : Bank) (s : State) : (stepTrack m b s).bundles = s.bundles :=
  setTrack_bundles ..
@[simp] theorem stepTrack_configs (m : CmdMode) (b : Bank) (s : State) : (stepTrack m b s).configs = s.configs :=
  setTrack_configs ..
@[simp] theorem stepTrack_result (m : CmdMode) (b : Bank) (s : State) : (stepTrack m b s).result = s.result :=
  setTrack_result ..
@[simp] theorem stepTrack_polling (m : CmdMode) (b : Bank) (s : State) : (stepTrack m b s).polling = s.polling :=
  setTrack_polling ..
@[simp] theorem stepTrack_busyLeft (m : CmdMode) (b : Bank) (s : State) : (stepTrack m b s).busyLeft = s.busyLeft :=
  setTrack_busyLeft ..
@[simp] theorem stepTrack_draws (m : CmdMode) (b : Bank) (s : State) : (stepTrack m b s).draws = s.draws :=
  setTrack_draws ..
@[simp] theorem stepTrack_queue (m : CmdMode) (b : Bank) (s : State) : (stepTrack m b s).queue = s.queue :=
  setTrack_queue ..

/-! ### stepTracks -/

@[simp] theorem stepTracks_sdcr1 (c : Command) (s : State) : (stepTracks c s).sdcr1 = s.sdcr1 :=
  stepTracks_keeps (·.sdcr1) stepTrack_sdcr1 c s
@[simp] theorem stepTracks_sdcr2 (c : Command) (s : State) : (stepTracks c s).sdcr2 = s.sdcr2 :=
  stepTracks_keeps (·.sdcr2) stepTrack_sdcr2 c s
@[simp] theorem stepTracks_sdtr1 (c : Command) (s : State) : (stepTracks c s).sdtr1 = s.sdtr1 :=
  stepTracks_keeps (·.sdtr1) stepTrack_sdtr1 c s
@[simp] theorem stepTracks_sdtr2 (c : Command) (s : State) : (stepTracks c s).sdtr2 = s.sdtr2 :=
  stepTracks_keeps (·.sdtr2) stepTrack_sdtr2 c s
@[simp] theorem stepTracks_sdcmr (c : Command) (s : State) : (stepTracks c s).sdcmr = s.sdcmr :=
  stepTracks_keeps (·.sdcmr) stepTrack_sdcmr c s
@[simp] theorem stepTracks_sdrtr (c : Command) (s : State) : (stepTracks c s).sdrtr = s.sdrtr :=
  stepTracks_keeps (·.sdrtr) stepTrack_sdrtr c s
@[simp] theorem stepTracks_sdsr (c : Command) (s : State) : (stepTracks c s).sdsr = s.sdsr :=
  stepTracks_keeps (·.sdsr) stepTrack_sdsr c s
@[simp] theorem stepTracks_clkGate (c : Command) (s : State) : (stepTracks c s).clkGate = s.clkGate :=
  stepTracks_keeps (·.clkGate) stepTrack_clkGate c s
@[simp] theorem stepTracks_pins (c : Command) (s : State) : (stepTracks c s).pins = s.pins :=
  stepTracks_keeps (·.pins) stepTrack_pins c s
@[simp] theorem stepTracks_handle (c : Command) (s : State) : (stepTracks c s).handle = s.handle :=
  stepTracks_keeps (·.handle) stepTrack_handle c s
@[simp] theorem stepTracks_refreshProgrammed (c : Command) (s : State) : (stepTracks c s).refreshProgrammed = s.refreshProgrammed :=
  stepTracks_keeps (·.refreshProgrammed) stepTrack_refreshProgrammed c s
@[simp] theorem stepTracks_inflight (c : Command) (s : State) : (stepTracks c s).inflight = s.inflight :=
  stepTracks_keeps (·.inflight) stepTrack_inflight c s
@[simp] theorem stepTracks_events (c : Command) (s : State) : (stepTracks c s).events = s.events :=
  stepTracks_keeps (·.events) stepTrack_events c s
@[simp] theorem stepTracks_mem1 (c : Command) (s : State) : (stepTracks c s).mem1 = s.mem1 :=
  stepTracks_keeps (·.mem1) stepTrack_mem1 c s
@[simp] theorem stepTracks_mem2 (c : Command) (s : State) : (stepTracks c s).mem2 = s.mem2 :=
  stepTracks_keeps (·.mem2) stepTrack_mem2 c s
@[simp] theorem stepTracks_faulted (c : Command) (s : State) : (stepTracks c s).faulted = s.faulted :=
  stepTracks_keeps (·.faulted) stepTrack_faulted c s
@[simp] theorem stepTracks_platform (c : Command) (s : State) : (stepTracks c s).platform = s.platform :=
  stepTracks_keeps (·.platform) stepTrack_platform c s
@[simp] theorem stepTracks_bundles (c : Command) (s : State) : (stepTracks c s).bundles = s.bundles :=
  stepTracks_keeps (·.bundles) stepTrack_bundles c s
@[simp] theorem stepTracks_configs (c : Command) (s : State) : (stepTracks c s).configs = s.configs :=
  stepTracks_keeps (·.configs) stepTrack_configs c s
@[simp] theorem stepTracks_result (c : Command) (s : State) : (stepTracks c s).result = s.result :=
  stepTracks_keeps (·.result) stepTrack_result c s
@[simp] theorem stepTracks_polling (c : Command) (s : State) : (stepTracks c s).polling = s.polling :=
  stepTracks_keeps (·.polling) stepTrack_polling c s
@[simp] theorem stepTracks_busyLeft (c : Command) (s : State) : (stepTracks c s).busyLeft = s.busyLeft :=
  stepTracks_keeps (·.busyLeft) stepTrack_busyLeft c s
@[simp] theorem stepTracks_draws (c : Command) (s : State) : (stepTracks c s).draws = s.draws :=
  stepTracks_keeps (·.draws) stepTrack_draws c s
@[simp] theorem stepTracks_queue (c : Command) (s : State) : (stepTracks c s).queue = s.queue :=
  stepTracks_keeps (·.queue) stepTrack_queue c s

/-! ### issueCommand -/

@[simp] theorem issueCommand_sdcr1 (c : Command) (s : State) : (issueCommand c s).sdcr1 = s.sdcr1 :=
  stepTracks_sdcr1 c _
@[simp] theorem issueCommand_sdcr2 (c : Command) (s : State) : (issueCommand c s).sdcr2 = s.sdcr2 :=
  stepTracks_sdcr2 c _
@[simp] theorem issueCommand_sdtr1 (c : Command) (s : State) : (issueCommand c s).sdtr1 = s.sdtr1 :=
  stepTracks_sdtr1 c _
@[simp] theorem issueCommand_sdtr2 (c : Command) (s : State) : (issueCommand c s).sdtr2 = s.sdtr2 :=
  stepTracks_sdtr2 c _
@[simp] theorem issueCommand_sdcmr (c : Command) (s : State) : (issueCommand c s).sdcmr = s.sdcmr :=
  stepTracks_sdcmr c _
@[simp] theorem issueCommand_sdrtr (c : Command) (s : State) : (issueCommand c s).sdrtr = s.sdrtr :=
  stepTracks_sdrtr c _
@[simp] theorem issueCommand_clkGate (c : Command) (s : State) : (issueCommand c s).clkGate = s.clkGate :=
  stepTracks_clkGate c _
@[simp] theorem issueCommand_pins (c : Command) (s : State) : (issueCommand c s).pins = s.pins := stepTracks_pins c _
@[simp] theorem issueCommand_handle (c : Command) (s : State) : (issueCommand c s).handle = s.handle :=
  stepTracks_handle c _
@[simp] theorem issueCommand_refreshProgrammed (c : Command) (s : State) : (issueCommand c s).refreshProgrammed = s.refreshProgrammed :=
  stepTracks_refreshProgrammed c _
@[simp] theorem issueCommand_mem1 (c : Command) (s : State) : (issueCommand c s).mem1 = s.mem1 := stepTracks_mem1 c _
@[simp] theorem issueCommand_mem2 (c : Command) (s : State) : (issueCommand c s).mem2 = s.mem2 := stepTracks_mem2 c _
@[simp] theorem issueCommand_faulted (c : Command) (s : State) : (issueCommand c s).faulted = s.faulted :=
  stepTracks_faulted c _
@[simp] theorem issueCommand_platform (c : Command) (s : State) : (issueCommand c s).platform = s.platform :=
  stepTracks_platform c _
@[simp] theorem issueCommand_bundles (c : Command) (s : State) : (issueCommand c s).bundles = s.bundles :=
  stepTracks_bundles c _
@[simp] theorem issueCommand_configs (c : Command) (s : State) : (issueCommand c s).configs = s.configs :=
  stepTracks_configs c _
@[simp] theorem issueCommand_result (c : Command) (s : State) : (issueCommand c s).result = s.result :=
  stepTracks_result c _
@[simp] theorem issueCommand_polling (c : Command) (s : State) : (issueCommand c s).polling = s.polling :=
  stepTracks_polling c _
@[simp] theorem issueCommand_queue (c : Command) (s : State) : (issueCommand c s).queue = s.queue :=
  stepTracks_queue c _

@[simp] theorem issueCommand_sdsr (c : Command) (s : State) : (issueCommand c s).sdsr = s.sdsr ||| busyWord :=
  stepTracks_sdsr c _
@[simp] theorem issueCommand_inflight (c : Command) (s : State) : (issueCommand c s).inflight = some c :=
  stepTracks_inflight c _
@[simp] theorem issueCommand_busyLeft (c : Command) (s : State) : (issueCommand c s).busyLeft = Config.busyDuration s.draws :=
  stepTracks_busyLeft c _
@[simp] theorem issueCommand_draws (c : Command) (s : State) : (issueCommand c s).draws = s.draws + 1 :=
  stepTracks_draws c _
@[simp] theorem issueCommand_events (c : Command) (s : State) : (issueCommand c s).events = s.events ++ [.cmdIssued c] :=
  stepTracks_events c _

/-! ### markPins -/

@[simp] theorem markPins_sdcr1 (ps : List PinId) (s : State) : (markPins ps s).sdcr1 = s.sdcr1 :=
  foldl_keeps (·.sdcr1) (fun t p => updatePin p (fun q => { q with inBundle := true }) t) (fun a p => updatePin_sdcr1 p _ a) ps s
@[simp] theorem markPins_sdcr2 (ps : List PinId) (s : State) : (markPins ps s).sdcr2 = s.sdcr2 :=
  foldl_keeps (·.sdcr2) (fun t p => updatePin p (fun q => { q with inBundle := true }) t) (fun a p => updatePin_sdcr2 p _ a) ps s
@[simp] theorem markPins_sdtr1 (ps : List PinId) (s : State) : (markPins ps s).sdtr1 = s.sdtr1 :=
  foldl_keeps (·.sdtr1) (fun t p => updatePin p (fun q => { q with inBundle := true }) t) (fun a p => updatePin_sdtr1 p _ a) ps s
@[simp] theorem markPins_sdtr2 (ps : List PinId) (s : State) : (markPins ps s).sdtr2 = s.sdtr2 :=
  foldl_keeps (·.sdtr2) (fun t p => updatePin p (fun q => { q with inBundle := true }) t) (fun a p => updatePin_sdtr2 p _ a) ps s
@[simp] theorem markPins_sdcmr (ps : List PinId) (s : State) : (markPins ps s).sdcmr = s.sdcmr :=
  foldl_keeps (·.sdcmr) (fun t p => updatePin p (fun q => { q with inBundle := true }) t) (fun a p => updatePin_sdcmr p _ a) ps s
@[simp] theorem markPins_sdrtr (ps : List PinId) (s : State) : (markPins ps s).sdrtr = s.sdrtr :=
  foldl_keeps (·.sdrtr) (fun t p => updatePin p (fun q => { q with inBundle := true }) t) (fun a p => updatePin_sdrtr p _ a) ps s
@[simp] theorem markPins_clkGate (ps : List PinId) (s : State) : (markPins ps s).clkGate = s.clkGate :=
  foldl_keeps (·.clkGate) (fun t p => updatePin p (fun q => { q with inBundle := true }) t) (fun a p => updatePin_clkGate p _ a) ps s
@[simp] theorem markPins_handle (ps : List PinId) (s : State) : (markPins ps s).handle = s.handle :=
  foldl_keeps (·.handle) (fun t p => updatePin p (fun q => { q with inBundle := true }) t) (fun a p => updatePin_handle p _ a) ps s
@[simp] theorem markPins_phase1 (ps : List PinId) (s : State) : (markPins ps s).phase1 = s.phase1 :=
  foldl_keeps (·.phase1) (fun t p => updatePin p (fun q => { q with inBundle := true }) t) (fun a p => updatePin_phase1 p _ a) ps s
@[simp] theorem markPins_phase2 (ps : List PinId) (s : State) : (markPins ps s).phase2 = s.phase2 :=
  foldl_keeps (·.phase2) (fun t p => updatePin p (fun q => { q with inBundle := true }) t) (fun a p => updatePin_phase2 p _ a) ps s
@[simp] theorem markPins_delayOk1 (ps : List PinId) (s : State) : (markPins ps s).delayOk1 = s.delayOk1 :=
  foldl_keeps (·.delayOk1) (fun t p => updatePin p (fun q => { q with inBundle := true }) t) (fun a p => updatePin_delayOk1 p _ a) ps s
@[simp] theorem markPins_delayOk2 (ps : List PinId) (s : State) : (markPins ps s).delayOk2 = s.delayOk2 :=
  foldl_keeps (·.delayOk2) (fun t p => updatePin p (fun q => { q with inBundle := true }) t) (fun a p => updatePin_delayOk2 p _ a) ps s
@[simp] theorem markPins_refreshProgrammed (ps : List PinId) (s : State) : (markPins ps s).refreshProgrammed = s.refreshProgrammed :=
  foldl_keeps (·.refreshProgrammed) (fun t p => updatePin p (fun q => { q with inBundle := true }) t) (fun a p => updatePin_refreshProgrammed p _ a) ps s
@[simp] theorem markPins_mem1 (ps : List PinId) (s : State) : (markPins ps s).mem1 = s.mem1 :=
  foldl_keeps (·.mem1) (fun t p => updatePin p (fun q => { q with inBundle := true }) t) (fun a p => updatePin_mem1 p _ a) ps s
@[simp] theorem markPins_mem2 (ps : List PinId) (s : State) : (markPins ps s).mem2 = s.mem2 :=
  foldl_keeps (·.mem2) (fun t p => updatePin p (fun q => { q with inBundle := true }) t) (fun a p => updatePin_mem2 p _ a) ps s
@[simp] theorem markPins_faulted (ps : List PinId) (s : State) : (markPins ps s).faulted = s.faulted :=
  foldl_keeps (·.faulted) (fun t p => updatePin p (fun q => { q with inBundle := true }) t) (fun a p => updatePin_faulted p _ a) ps s
@[simp] theorem markPins_platform (ps : List PinId) (s : State) : (markPins ps s).platform = s.platform :=
  foldl_keeps (·.platform) (fun t p => updatePin p (fun q => { q with inBundle := true }) t) (fun a p => updatePin_platform p _ a) ps s
@[simp] theorem markPins_bundles (ps : List PinId) (s : State) : (markPins ps s).bundles = s.bundles :=
  foldl_keeps (·.bundles) (fun t p => updatePin p (fun q => { q with inBundle := true }) t) (fun a p => updatePin_bundles p _ a) ps s
@[simp] theorem markPins_configs (ps : List PinId) (s : State) : (markPins ps s).configs = s.configs :=
  foldl_keeps (·.configs) (fun t p => updatePin p (fun q => { q with inBundle := true }) t) (fun a p => updatePin_configs p _ a) ps s
@[simp] theorem markPins_result (ps : List PinId) (s : State) : (markPins ps s).result = s.result :=
  foldl_keeps (·.result) (fun t p => updatePin p (fun q => { q with inBundle := true }) t) (fun a p => updatePin_result p _ a) ps s
@[simp] theorem markPins_polling (ps : List PinId) (s : State) : (markPins ps s).polling = s.polling :=
  foldl_keeps (·.polling) (fun t p => updatePin p (fun q => { q with inBundle := true }) t) (fun a p => updatePin_polling p _ a) ps s
@[simp] theorem markPins_draws (ps : List PinId) (s : State) : (markPins ps s).draws = s.draws :=
  foldl_keeps (·.draws) (fun t p => updatePin p (fun q => { q with inBundle := true }) t) (fun a p => updatePin_draws p _ a) ps s
@[simp] theorem markPins_queue (ps : List PinId) (s : State) : (markPins ps s).queue = s.queue :=
  foldl_keeps (·.queue) (fun t p => updatePin p (fun q => { q with inBundle := true }) t) (fun a p => updatePin_queue p _ a) ps s

/-! ### preparePin -/

@[simp] theorem preparePin_sdcr1 (p : PinId) (s : State) : (preparePin s p).sdcr1 = s.sdcr1 :=
  updatePin_sdcr1 p (fun q => { q with slewHigh := true, pullupOff := true }) s
@[simp] theorem preparePin_sdcr2 (p : PinId) (s : State) : (preparePin s p).sdcr2 = s.sdcr2 :=
  updatePin_sdcr2 p (fun q => { q with slewHigh := true, pullupOff := true }) s
@[simp] theorem preparePin_sdtr1 (p : PinId) (s : State) : (preparePin s p).sdtr1 = s.sdtr1 :=
  updatePin_sdtr1 p (fun q => { q with slewHigh := true, pullupOff := true }) s
@[simp] theorem preparePin_sdtr2 (p : PinId) (s : State) : (preparePin s p).sdtr2 = s.sdtr2 :=
  updatePin_sdtr2 p (fun q => { q with slewHigh := true, pullupOff := true }) s
@[simp] theorem preparePin_sdcmr (p : PinId) (s : State) : (preparePin s p).sdcmr = s.sdcmr :=
  updatePin_sdcmr p (fun q => { q with slewHigh := true, pullupOff := true }) s
@[simp] theorem preparePin_sdrtr (p : PinId) (s : State) : (preparePin s p).sdrtr = s.sdrtr :=
  updatePin_sdrtr p (fun q => { q with slewHigh := true, pullupOff := true }) s
@[simp] theorem preparePin_clkGate (p : PinId) (s : State) : (preparePin s p).clkGate = s.clkGate :=
  updatePin_clkGate p (fun q => { q with slewHigh := true, pullupOff := true }) s
@[simp] theorem preparePin_handle (p : PinId) (s : State) : (preparePin s p).handle = s.handle :=
  updatePin_handle p (fun q => { q with slewHigh := true, pullupOff := true }) s
@[simp] theorem preparePin_phase1 (p : PinId) (s : State) : (preparePin s p).phase1 = s.phase1 :=
  updatePin_phase1 p (fun q => { q with slewHigh := true, pullupOff := true }) s
@[simp] theorem preparePin_phase2 (p : PinId) (s : State) : (preparePin s p).phase2 = s.phase2 :=
  updatePin_phase2 p (fun q => { q with slewHigh := true, pullupOff := true }) s
@[simp] theorem preparePin_delayOk1 (p : PinId) (s : State) : (preparePin s p).delayOk1 = s.delayOk1 :=
  updatePin_delayOk1 p (fun q => { q with slewHigh := true, pullupOff := true }) s
@[simp] theorem preparePin_delayOk2 (p : PinId) (s : State) : (preparePin s p).delayOk2 = s.delayOk2 :=
  updatePin_delayOk2 p (fun q => { q with slewHigh := true, pullupOff := true }) s
@[simp] theorem preparePin_refreshProgrammed (p : PinId) (s : State) : (preparePin s p).refreshProgrammed = s.refreshProgrammed :=
  updatePin_refreshProgrammed p (fun q => { q with slewHigh := true, pullupOff := true }) s
@[simp] theorem preparePin_mem1 (p : PinId) (s : State) : (preparePin s p).mem1 = s.mem1 :=
  updatePin_mem1 p (fun q => { q with slewHigh := true, pullupOff := true }) s
@[simp] theorem preparePin_mem2 (p : PinId) (s : State) : (preparePin s p).mem2 = s.mem2 :=
  updatePin_mem2 p (fun q => { q with slewHigh := true, pullupOff := true }) s
@[simp] theorem preparePin_faulted (p : PinId) (s : State) : (preparePin s p).faulted = s.faulted :=
  updatePin_faulted p (fun q => { q with slewHigh := true, pullupOff := true }) s
@[simp] theorem preparePin_platform (p : PinId) (s : State) : (preparePin s p).platform = s.platform :=
  updatePin_platform p (fun q => { q with slewHigh := true, pullupOff := true }) s
@[simp] theorem preparePin_bundles (p : PinId) (s : State) : (preparePin s p).bundles = s.bundles :=
  updatePin_bundles p (fun q => { q with slewHigh := true, pullupOff := true }) s
@[simp] theorem preparePin_configs (p : PinId) (s : State) : (preparePin s p).configs = s.configs :=
  updatePin_configs p (fun q => { q with slewHigh := true, pullupOff := true }) s
@[simp] theorem preparePin_result (p : PinId) (s : State) : (preparePin s p).result = s.result :=
  updatePin_result p (fun q => { q with slewHigh := true, pullupOff := true }) s
@[simp] theorem preparePin_polling (p : PinId) (s : State) : (preparePin s p).polling = s.polling :=
  updatePin_polling p (fun q => { q with slewHigh := true, pullupOff := true }) s
@[simp] theorem preparePin_draws (p : PinId) (s : State) : (preparePin s p).draws = s.draws :=
  updatePin_draws p (fun q => { q with slewHigh := true, pullupOff := true }) s
@[simp] theorem preparePin_queue (p : PinId) (s : State) : (preparePin s p).queue = s.queue :=
  updatePin_queue p (fun q => { q with slewHigh := true, pullupOff := true }) s

/-! ### prepareBundle -/

@[simp] theorem prepareBundle_sdcr1 (b : Bundle) (s : State) : (prepareBundle s b).sdcr1 = s.sdcr1 :=
  foldl_keeps (·.sdcr1) preparePin (fun a p => preparePin_sdcr1 p a) _ s
@[simp] theorem prepareBundle_sdcr2 (b : Bundle) (s : State) : (prepareBundle s b).sdcr2 = s.sdcr2 :=
  foldl_keeps (·.sdcr2) preparePin (fun a p => preparePin_sdcr2 p a) _ s
@[simp] theorem prepareBundle_sdtr1 (b : Bundle) (s : State) : (prepareBundle s b).sdtr1 = s.sdtr1 :=
  foldl_keeps (·.sdtr1) preparePin (fun a p => preparePin_sdtr1 p a) _ s
@[simp] theorem prepareBundle_sdtr2 (b : Bundle) (s : State) : (prepareBundle s b).sdtr2 = s.sdtr2 :=
  foldl_keeps (·.sdtr2) preparePin (fun a p => preparePin_sdtr2 p a) _ s
@[simp] theorem prepareBundle_sdcmr (b : Bundle) (s : State) : (prepareBundle s b).sdcmr = s.sdcmr :=
  foldl_keeps (·.sdcmr) preparePin (fun a p => preparePin_sdcmr p a) _ s
@[simp] theorem prepareBundle_sdrtr (b : Bundle) (s : State) : (prepareBundle s b).sdrtr = s.sdrtr :=
  foldl_keeps (·.sdrtr) preparePin (fun a p => preparePin_sdrtr p a) _ s
@[simp] theorem prepareBundle_clkGate (b : Bundle) (s : State) : (prepareBundle s b).clkGate = s.clkGate :=
  foldl_keeps (·.clkGate) preparePin (fun a p => preparePin_clkGate p a) _ s
@[simp] theorem prepareBundle_handle (b : Bundle) (s : State) : (prepareBundle s b).handle = s.handle :=
  foldl_keeps (·.handle) preparePin (fun a p => preparePin_handle p a) _ s
@[simp] theorem prepareBundle_phase1 (b : Bundle) (s : State) : (prepareBundle s b).phase1 = s.phase1 :=
  foldl_keeps (·.phase1) preparePin (fun a p => preparePin_phase1 p a) _ s
@[simp] theorem prepareBundle_phase2 (b : Bundle) (s : State) : (prepareBundle s b).phase2 = s.phase2 :=
  foldl_keeps (·.phase2) preparePin (fun a p => preparePin_phase2 p a) _ s
@[simp] theorem prepareBundle_delayOk1 (b : Bundle) (s : State) : (prepareBundle s b).delayOk1 = s.delayOk1 :=
  foldl_keeps (·.delayOk1) preparePin (fun a p => preparePin_delayOk1 p a) _ s
@[simp] theorem prepareBundle_delayOk2 (b : Bundle) (s : State) : (prepareBundle s b).delayOk2 = s.delayOk2 :=
  foldl_keeps (·.delayOk2) preparePin (fun a p => preparePin_delayOk2 p a) _ s
@[simp] theorem prepareBundle_refreshProgrammed (b : Bundle) (s : State) : (prepareBundle s b).refreshProgrammed = s.refreshProgrammed :=
  foldl_keeps (·.refreshProgrammed) preparePin (fun a p => preparePin_refreshProgrammed p a) _ s
@[simp] theorem prepareBundle_mem1 (b : Bundle) (s : State) : (prepareBundle s b).mem1 = s.mem1 :=
  foldl_keeps (·.mem1) preparePin (fun a p => preparePin_mem1 p a) _ s
@[simp] theorem prepareBundle_mem2 (b : Bundle) (s : State) : (prepareBundle s b).mem2 = s.mem2 :=
  foldl_keeps (·.mem2) preparePin (fun a p => preparePin_mem2 p a) _ s
@[simp] theorem prepareBundle_faulted (b : Bundle) (s : State) : (prepareBundle s b).faulted = s.faulted :=
  foldl_keeps (·.faulted) preparePin (fun a p => preparePin_faulted p a) _ s
@[simp] theorem prepareBundle_platform (b : Bundle) (s : State) : (prepareBundle s b).platform = s.platform :=
  foldl_keeps (·.platform) preparePin (fun a p => preparePin_platform p a) _ s
@[simp] theorem prepareBundle_bundles (b : Bundle) (s : State) : (prepareBundle s b).bundles = s.bundles :=
  foldl_keeps (·.bundles) preparePin (fun a p => preparePin_bundles p a) _ s
@[simp] theorem prepareBundle_configs (b : Bundle) (s : State) : (prepareBundle s b).configs = s.configs :=
  foldl_keeps (·.configs) preparePin (fun a p => preparePin_configs p a) _ s
@[simp] theorem prepareBundle_result (b : Bundle) (s : State) : (prepareBundle s b).result = s.result :=
  foldl_keeps (·.result) preparePin (fun a p => preparePin_result p a) _ s
@[simp] theorem prepareBundle_polling (b : Bundle) (s : State) : (prepareBundle s b).polling = s.polling :=
  foldl_keeps (·.polling) preparePin (fun a p => preparePin_polling p a) _ s
@[simp] theorem prepareBundle_draws (b : Bundle) (s : State) : (prepareBundle s b).draws = s.draws :=
  foldl_keeps (·.draws) preparePin (fun a p => preparePin_draws p a) _ s
@[simp] theorem prepareBundle_queue (b : Bundle) (s : State) : (prepareBundle s b).queue = s.queue :=
  foldl_keeps (·.queue) preparePin (fun a p => preparePin_queue p a) _ s

/-! ### gateAndPrepare -/

@[simp] theorem gateAndPrepare_sdcr1 (bs : List Bundle) (s : State) : (gateAndPrepare bs s).sdcr1 = s.sdcr1 :=
  foldl_keeps (·.sdcr1) prepareBundle (fun a b => prepareBundle_sdcr1 b a) bs _
@[simp] theorem gateAndPrepare_sdcr2 (bs : List Bundle) (s : State) : (gateAndPrepare bs s).sdcr2 = s.sdcr2 :=
  foldl_keeps (·.sdcr2) prepareBundle (fun a b => prepareBundle_sdcr2 b a) bs _
@[simp] theorem gateAndPrepare_sdtr1 (bs : List Bundle) (s : State) : (gateAndPrepare bs s).sdtr1 = s.sdtr1 :=
  foldl_keeps (·.sdtr1) prepareBundle (fun a b => prepareBundle_sdtr1 b a) bs _
@[simp] theorem gateAndPrepare_sdtr2 (bs : List Bundle) (s : State) : (gateAndPrepare bs s).sdtr2 = s.sdtr2 :=
  foldl_keeps (·.sdtr2) prepareBundle (fun a b => prepareBundle_sdtr2 b a) bs _
@[simp] theorem gateAndPrepare_sdcmr (bs : List Bundle) (s : State) : (gateAndPrepare bs s).sdcmr = s.sdcmr :=
  foldl_keeps (·.sdcmr) prepareBundle (fun a b => prepareBundle_sdcmr b a) bs _
@[simp] theorem gateAndPrepare_sdrtr (bs : List Bundle) (s : State) : (gateAndPrepare bs s).sdrtr = s.sdrtr :=
  foldl_keeps (·.sdrtr) prepareBundle (fun a b => prepareBundle_sdrtr b a) bs _
@[simp] theorem gateAndPrepare_handle (bs : List Bundle) (s : State) : (gateAndPrepare bs s).handle = s.handle :=
  foldl_keeps (·.handle) prepareBundle (fun a b => prepareBundle_handle b a) bs _
@[simp] theorem gateAndPrepare_phase1 (bs : List Bundle) (s : State) : (gateAndPrepare bs s).phase1 = s.phase1 :=
  foldl_keeps (·.phase1) prepareBundle (fun a b => prepareBundle_phase1 b a) bs _
@[simp] theorem gateAndPrepare_phase2 (bs : List Bundle) (s : State) : (gateAndPrepare bs s).phase2 = s.phase2 :=
  foldl_keeps (·.phase2) prepareBundle (fun a b => prepareBundle_phase2 b a) bs _
@[simp] theorem gateAndPrepare_delayOk1 (bs : List Bundle) (s : State) : (gateAndPrepare bs s).delayOk1 = s.delayOk1 :=
  foldl_keeps (·.delayOk1) prepareBundle (fun a b => prepareBundle_delayOk1 b a) bs _
@[simp] theorem gateAndPrepare_delayOk2 (bs : List Bundle) (s : State) : (gateAndPrepare bs s).delayOk2 = s.delayOk2 :=
  foldl_keeps (·.delayOk2) prepareBundle (fun a b => prepareBundle_delayOk2 b a) bs _
@[simp] theorem gateAndPrepare_refreshProgrammed (bs : List Bundle) (s : State) : (gateAndPrepare bs s).refreshProgrammed = s.refreshProgrammed :=
  foldl_keeps (·.refreshProgrammed) prepareBundle (fun a b => prepareBundle_refreshProgrammed b a) bs _
@[simp] theorem gateAndPrepare_mem1 (bs : List Bundle) (s : State) : (gateAndPrepare bs s).mem1 = s.mem1 :=
  foldl_keeps (·.mem1) prepareBundle (fun a b => prepareBundle_mem1 b a) bs _
@[simp] theorem gateAndPrepare_mem2 (bs : List Bundle) (s : State) : (gateAndPrepare bs s).mem2 = s.mem2 :=
  foldl_keeps (·.mem2) prepareBundle (fun a b => prepareBundle_mem2 b a) bs _
@[simp] theorem gateAndPrepare_faulted (bs : List Bundle) (s : State) : (gateAndPrepare bs s).faulted = s.faulted :=
  foldl_keeps (·.faulted) prepareBundle (fun a b => prepareBundle_faulted b a) bs _
@[simp] theorem gateAndPrepare_platform (bs : List Bundle) (s : State) : (gateAndPrepare bs s).platform = s.platform :=
  foldl_keeps (·.platform) prepareBundle (fun a b => prepareBundle_platform b a) bs _
@[simp] theorem gateAndPrepare_bundles (bs : List Bundle) (s : State) : (gateAndPrepare bs s).bundles = s.bundles :=
  foldl_keeps (·.bundles) prepareBundle (fun a b => prepareBundle_bundles b a) bs _
@[simp] theorem gateAndPrepare_configs (bs : List Bundle) (s : State) : (gateAndPrepare bs s).configs = s.configs :=
  foldl_keeps (·.configs) prepareBundle (fun a b => prepareBundle_configs b a) bs _
@[simp] theorem gateAndPrepare_result (bs : List Bundle) (s : State) : (gateAndPrepare bs s).result = s.result :=
  foldl_keeps (·.result) prepareBundle (fun a b => prepareBundle_result b a) bs _
@[simp] theorem gateAndPrepare_polling (bs : List Bundle) (s : State) : (gateAndPrepare bs s).polling = s.polling :=
  foldl_keeps (·.polling) prepareBundle (fun a b => prepareBundle_polling b a) bs _
@[simp] theorem gateAndPrepare_draws (bs : List Bundle) (s : State) : (gateAndPrepare bs s).draws = s.draws :=
  foldl_keeps (·.draws) prepareBundle (fun a b => prepareBundle_draws b a) bs _
@[simp] theorem gateAndPrepare_queue (bs : List Bundle) (s : State) : (gateAndPrepare bs s).queue = s.queue :=
  foldl_keeps (·.queue) prepareBundle (fun a b => prepareBundle_queue b a) bs _

@[simp] theorem gateAndPrepare_clkGate (bs : List Bundle) (s : State) : (gateAndPrepare bs s).clkGate = true :=
  foldl_keeps (·.clkGate) prepareBundle (fun a b => prepareBundle_clkGate b a) bs _

/-! ### Accessors -/

@[simp] theorem phaseOf_setTrack (b c : Bank) (p : Phase) (d : Bool) (s : State) :
    phaseOf (setTrack b p d s) c = if c = b then p else phaseOf s c := by
  cases b <;> cases c <;> rfl

@[simp] theorem delayOkOf_setTrack (b c : Bank) (p : Phase) (d : Bool) (s : State) :
    delayOkOf (setTrack b p d s) c = if c = b then d else delayOkOf s c := by
  cases b <;> cases c <;> rfl

@[simp] theorem memOf_setMem (b c : Bank) (m : Memory) (s : State) :
    memOf (setMem b m s) c = if c = b then m else memOf s c := by
  cases b <;> cases c <;> rfl

@[simp] theorem memOf_setTrack (b c : Bank) (p : Phase) (d : Bool) (s : State) :
    memOf (setTrack b p d s) c = memOf s c := by
  cases b <;> cases c <;> rfl

@[simp] theorem phaseOf_setMem (b c : Bank) (m : Memory) (s : State) : phaseOf (setMem b m s) c = phaseOf s c := by
  cases b <;> cases c <;> rfl

@[simp] theorem pinOf_setPin (p q : PinId) (r : PinState) (s : State) :
    pinOf (setPin p r s) q = if q = p then r else pinOf s q := by
  by_cases h : q = p
  · subst h; simp [pinOf]
  · have hv : p.val ≠ q.val := fun e => h (Fin.ext e.symm)
    simp [pinOf, h, Vector.getElem_set_ne _ _ hv]

/-- The pins of a state decide its pin records. -/
theorem pinOf_congr {s t : State} (h : t.pins = s.pins) (p : PinId) : pinOf t p = pinOf s p := by
  simp [pinOf, h]

/-- Two fields decide a bank's phase. -/
theorem phaseOf_congr {s t : State} (h1 : t.phase1 = s.phase1) (h2 : t.phase2 = s.phase2) (b : Bank) :
    phaseOf t b = phaseOf s b := by
  cases b <;> assumption

theorem delayOkOf_congr {s t : State} (h1 : t.delayOk1 = s.delayOk1) (h2 : t.delayOk2 = s.delayOk2) (b : Bank) :
    delayOkOf t b = delayOkOf s b := by
  cases b <;> assumption

theorem memOf_congr {s t : State} (h1 : t.mem1 = s.mem1) (h2 : t.mem2 = s.mem2) (b : Bank) : memOf t b = memOf s b := by
  cases b <;> assumption

@[simp] theorem pinOf_emit (e : Event) (s : State) (p : PinId) : pinOf (emit e s) p = pinOf s p := rfl

@[simp] theorem pinOf_engineTurn (s : State) (p : PinId) : pinOf (engineTurn s) p = pinOf s p :=
  pinOf_congr (engineTurn_pins s) p

/-- With nothing in flight the engine does nothing (42 R215: enabled iff a command is in flight). -/
@[simp] theorem engineTurn_idle {s : State} (h : s.inflight = none) : engineTurn s = s := by
  unfold engineTurn; simp [h]

end Sys2Proof.Machine
end

