-- ==== Sys2Proof/Laws/Memory.lean ====
section
/-! SUPPORT. The window contents: reading back what was listed, leaving every other offset alone, and the canonical
form, which every memory operation keeps. -/

namespace Sys2Proof.Machine

/-- Reading the offset just listed answers the byte; every other offset answers as before. -/
theorem cellAt_putCell (cells : List Host.Cell) (o x : Nat) (v : Byte) :
    cellAt (putCell cells o v) x = if x = o then some v else cellAt cells x := by
  induction cells with
  | nil => simp [putCell, cellAt, eq_comm]
  | cons c rest ih =>
    obtain ⟨a, w⟩ := c
    unfold putCell
    split
    · simp [cellAt, eq_comm]
    · split
      · rename_i h; subst h
        by_cases hx : x = a <;> simp [cellAt, hx, eq_comm]
      · rename_i h1 h2
        simp only [cellAt, ih]
        by_cases hx : a = x
        · subst hx; simp [h2]
        · simp [hx]

/-- An offset below every listed one is not listed. -/
theorem cellAt_of_lt (cells : List Host.Cell) (x : Nat) (h : ∀ c ∈ cells, x < c.1) : cellAt cells x = none := by
  induction cells with
  | nil => rfl
  | cons c rest ih =>
    obtain ⟨a, w⟩ := c
    have := h (a, w) List.mem_cons_self
    simp only [cellAt]
    rw [if_neg (by simp at this; omega)]
    exact ih fun c hc => h c (List.mem_cons_of_mem _ hc)

/-- The offsets listed after listing one more. -/
theorem mem_putCell {cells : List Host.Cell} {o : Nat} {v : Byte} {c : Host.Cell} (h : c ∈ putCell cells o v) :
    c = (o, v) ∨ c ∈ cells := by
  induction cells with
  | nil => simpa [putCell] using h
  | cons d rest ih =>
    obtain ⟨a, w⟩ := d
    unfold putCell at h
    split at h
    · simpa using h
    · split at h
      · rcases List.mem_cons.mp h with h | h
        · exact .inl h
        · exact .inr (List.mem_cons_of_mem _ h)
      · rcases List.mem_cons.mp h with h | h
        · exact .inr (h ▸ List.mem_cons_self)
        · exact (ih h).imp id (List.mem_cons_of_mem _)

/-- Listing a byte keeps the offsets strictly rising. -/
theorem putCell_sorted {cells : List Host.Cell} (o : Nat) (v : Byte) (hs : cells.Pairwise fun a b => a.1 < b.1) :
    (putCell cells o v).Pairwise fun a b => a.1 < b.1 := by
  induction cells with
  | nil => simp [putCell]
  | cons c rest ih =>
    obtain ⟨a, w⟩ := c
    have hs' := List.pairwise_cons.mp hs
    unfold putCell
    split
    · rename_i h
      refine List.pairwise_cons.mpr ⟨fun d hd => ?_, hs⟩
      rcases List.mem_cons.mp hd with rfl | hd
      · exact h
      · exact Nat.lt_trans h (hs'.1 d hd)
    · split
      · rename_i h; subst h
        exact List.pairwise_cons.mpr ⟨fun d hd => hs'.1 d hd, hs'.2⟩
      · rename_i h1 h2
        refine List.pairwise_cons.mpr ⟨fun d hd => ?_, ih hs'.2⟩
        rcases mem_putCell hd with rfl | hd
        · simp; omega
        · exact hs'.1 d hd

/-- Listing bytes one after another keeps the canonical form, if they lie inside the bank. -/
theorem writeCells_canonical {size : Nat} (bytes : List Byte) (cells : List Host.Cell) (o : Nat)
    (hs : cells.Pairwise fun a b => a.1 < b.1) (hb : ∀ c ∈ cells, c.1 < size) (ho : o + bytes.length ≤ size) :
    ((writeCells cells o bytes).Pairwise fun a b => a.1 < b.1) ∧ ∀ c ∈ writeCells cells o bytes, c.1 < size := by
  induction bytes generalizing cells o with
  | nil => exact ⟨hs, hb⟩
  | cons v rest ih =>
    simp only [List.length_cons] at ho
    refine ih (putCell cells o v) (o + 1) (putCell_sorted o v hs) (fun c hc => ?_) (by omega)
    rcases mem_putCell hc with rfl | hc
    · simp; omega
    · exact hb c hc

/-- Reading after several bytes were listed: inside them the byte listed, outside as before (20 R83). -/
theorem cellAt_writeCells (bytes : List Byte) (cells : List Host.Cell) (o x : Nat) :
    cellAt (writeCells cells o bytes) x =
      if h : o ≤ x ∧ x - o < bytes.length then some bytes[x - o] else cellAt cells x := by
  induction bytes generalizing cells o with
  | nil => simp [writeCells]
  | cons v rest ih =>
    rw [writeCells, ih, cellAt_putCell]
    by_cases hx : x = o
    · subst hx; simp
    · by_cases h : o + 1 ≤ x ∧ x - (o + 1) < rest.length
      · have h' : o ≤ x ∧ x - o < (v :: rest).length := by simp only [List.length_cons]; omega
        rw [dif_pos h, dif_pos h']
        congr 1
        have e : x - o = (x - (o + 1)) + 1 := by omega
        simp [e]
      · have h' : ¬ (o ≤ x ∧ x - o < (v :: rest).length) := by simp only [List.length_cons]; omega
        rw [dif_neg h, dif_neg h', if_neg hx]

/-- The canonical form, spelled out. -/
theorem memory_wf_iff (size : Nat) (m : Memory) :
    m.wf size = true ↔ (m.cells.Pairwise fun a b => a.1 < b.1) ∧ ∀ c ∈ m.cells, c.1 < size := by
  simp [Memory.wf]

/-- Writing bytes inside the bank keeps its memory canonical. -/
theorem memory_wf_writeCells {size : Nat} {m : Memory} (bytes : List Byte) (o : Nat) (h : m.wf size = true)
    (ho : o + bytes.length ≤ size) : ({ m with cells := writeCells m.cells o bytes } : Memory).wf size = true := by
  rw [memory_wf_iff] at h ⊢
  exact writeCells_canonical bytes m.cells o h.1 h.2 ho

/-- A bank drawn anew is canonical. -/
theorem memory_wf_drawn (size d : Nat) : ({ draw := d, cells := [] } : Memory).wf size = true := rfl

/-- At reset both memories are canonical. -/
theorem resetOn_memory_wf (p : Platform) :
    (State.resetOn p).mem1.wf p.bankSize = true ∧ (State.resetOn p).mem2.wf p.bankSize = true := ⟨rfl, rfl⟩

@[simp] theorem littleEndianBytes_length (n v : Nat) : (littleEndianBytes n v).length = n := by
  induction n generalizing v with
  | zero => rfl
  | succ n ih => simp [littleEndianBytes, ih]

/-- Byte `i` of a value's bytes is the value's `i`-th base-256 digit: the least significant byte stands first (20 R77). -/
theorem littleEndianBytes_eq_map (n v : Nat) :
    littleEndianBytes n v = (List.range n).map fun i => BitVec.ofNat 8 (v / 256 ^ i) := by
  induction n generalizing v with
  | zero => rfl
  | succ n ih =>
    rw [littleEndianBytes, ih, List.range_succ_eq_map]
    simp [Nat.div_div_eq_div_mul, Nat.pow_succ']

/-- The little-endian value of bytes fits their number, and its base-256 digits are the bytes (20 R77, R82). -/
theorem littleEndianValue_digits (bs : List Byte) :
    littleEndianValue bs < 256 ^ bs.length ∧
      ∀ i, (h : i < bs.length) → littleEndianValue bs / 256 ^ i % 256 = bs[i].toNat := by
  induction bs with
  | nil => simp [littleEndianValue]
  | cons b bs ih =>
    have hb := b.isLt
    refine ⟨?_, fun i h => ?_⟩
    · simp only [littleEndianValue, List.length_cons, Nat.pow_succ']
      omega
    · cases i with
      | zero => simp only [littleEndianValue, List.getElem_cons_zero, Nat.pow_zero, Nat.div_one]; omega
      | succ i =>
        have hd : (b.toNat + 256 * littleEndianValue bs) / 256 = littleEndianValue bs := by omega
        rw [littleEndianValue, Nat.pow_succ', ← Nat.div_div_eq_div_mul, hd]
        exact ih.2 i (by simpa using h)

/-- The little-endian value of a value's bytes is the value modulo its size (20 R77). -/
theorem littleEndianValue_bytes (n v : Nat) : littleEndianValue (littleEndianBytes n v) = v % 256 ^ n := by
  induction n generalizing v with
  | zero => simp [littleEndianBytes, littleEndianValue, Nat.mod_one]
  | succ n ih =>
    have h := Nat.mod_mul (a := 256) (b := 256 ^ n) (x := v)
    rw [littleEndianBytes, littleEndianValue, ih, BitVec.toNat_ofNat, Nat.pow_succ' (m := 256), h]

end Sys2Proof.Machine
end

