-- ==== Sys2Proof/Laws/Ops.lean ====
section
/-! SUPPORT. For each shared operation, once, everything it can do; later proofs cite these and do not unfold the
operation. -/

namespace Sys2Proof.Machine

/-! ### Ending an operation -/

/-- An operation that answers a next state either ran to its end or was marked faulted on the way. -/
theorem actEnd_next {x : Act Result} {t : State} (h : actEnd x = .next t) :
    (∃ r u, x = .done r u ∧ t = { u with result := some r }) ∨ ∃ u, x = .halt u ∧ t = { u with result := none } := by
  cases x with
  | done r u => exact .inl ⟨r, u, rfl, by simpa [actEnd] using h.symm⟩
  | halt u => exact .inr ⟨u, rfl, by simpa [actEnd] using h.symm⟩
  | refuse r => simp [actEnd] at h

theorem actThen_done {α β : Type} {x : Act α} {f : α → State → Act β} {b : β} {t : State}
    (h : actThen x f = .done b t) : ∃ a u, x = .done a u ∧ f a u = .done b t := by
  cases x with
  | done a u => exact ⟨a, u, rfl, h⟩
  | halt u => simp [actThen] at h
  | refuse r => simp [actThen] at h

theorem actThen_halt {α β : Type} {x : Act α} {f : α → State → Act β} {t : State} (h : actThen x f = .halt t) :
    x = .halt t ∨ ∃ a u, x = .done a u ∧ f a u = .halt t := by
  cases x with
  | done a u => exact .inr ⟨a, u, rfl, h⟩
  | halt u => exact .inl (by simpa [actThen] using h)
  | refuse r => simp [actThen] at h

@[simp] theorem actThen_of_done {α β : Type} (a : α) (s : State) (f : α → State → Act β) :
    actThen (.done a s) f = f a s := rfl

/-- What `reject` leaves: one event and the code for the host (60 R270). -/
theorem reject_next {code : Rejection} {s t : State} (h : reject code s = .next t) :
    t = { s with events := s.events ++ [.rejected (rejectionNumber code)], result := some (.rejected code) } := by
  simpa [reject, emit] using h.symm

/-! ### The engine -/

/-- The engine's turn does nothing, counts, or finishes the command in flight (42 R215). -/
theorem engineTurn_cases (s : State) :
    engineTurn s = s ∨ (∃ c n, s.inflight = some c ∧ engineTurn s = { s with busyLeft := some n }) ∨
      ∃ c, s.inflight = some c ∧ engineTurn s = engineStep s := by
  unfold engineTurn
  split
  · rename_i c h _; exact .inr (.inr ⟨c, h, rfl⟩)
  · rename_i c n h _; exact .inr (.inl ⟨c, n, h, rfl⟩)
  · exact .inl rfl
  · exact .inl rfl

@[simp] theorem busy_setBusy (s : State) : busy (setBusy s) = true := by
  simp [busy, setBusy, busyWord]

@[simp] theorem busy_clearBusy (s : State) : busy (clearBusy s) = false := by
  simp [busy, clearBusy, busyWord]

/-- The status word decides the flag. -/
theorem busy_congr {s t : State} (h : t.sdsr = s.sdsr) : busy t = busy s := by simp [busy, h]

@[simp] theorem busy_engineStep (s : State) : busy (engineStep s) = false := busy_clearBusy s

@[simp] theorem busy_issueCommand (c : Command) (s : State) : busy (issueCommand c s) = true :=
  (busy_congr (stepTracks_sdsr c _)).trans (busy_setBusy s)

/-- The flag and the command in flight agree after the engine's turn if they did before (10 R45). -/
theorem busyIffInflight_engineTurn {s : State} (h : BusyIffInflight s) : BusyIffInflight (engineTurn s) := by
  rcases engineTurn_cases s with e | ⟨c, n, -, e⟩ | ⟨c, -, e⟩
  · rwa [e]
  · rw [e]; exact h
  · rw [e]; simp [BusyIffInflight]

/-! ### Register transactions -/

/-- `RegRead` (20 R71, R72): the gate decides. -/
theorem regRead_eq (r : Reg) (s : State) :
    regRead r s =
      if s.clkGate then
        .done (regValue (engineTurn s) r) (emit (.regReadEv r (regValue (engineTurn s) r)) (engineTurn s))
      else .halt { engineTurn s with faulted := some .gateOff } := by
  simp [regRead, raiseFault]

/-- `RegRead` while no command is in flight. -/
theorem regRead_idle (r : Reg) {s : State} (hg : s.clkGate = true) (hi : s.inflight = none) :
    regRead r s = .done (regValue s r) (emit (.regReadEv r (regValue s r)) s) := by
  simp [regRead_eq, hg, hi]

/-- What a `RegWrite` that comes to its end leaves (20 R73). -/
inductive RegWritten (r : Reg) (v : Word) (u t : State) : Prop where
  | sdcr1 (hr : r = .sdcr1) (ht : t = { u with sdcr1 := v &&& maskCR })
  | sdcr2 (hr : r = .sdcr2) (ht : t = { u with sdcr2 := v &&& maskCR })
  | sdtr1 (hr : r = .sdtr1) (ht : t = { u with sdtr1 := v &&& maskTR })
  | sdtr2 (hr : r = .sdtr2) (ht : t = { u with sdtr2 := v &&& maskTR })
  | sdrtr (hr : r = .sdrtr) (ht : t = { u with sdrtr := v &&& maskRTR, refreshProgrammed := true })
  | sdsr (hr : r = .sdsr) (ht : t = u)
  | idle (hr : r = .sdcmr) (hb : busy u = false) (hm : cmdModeBits v = 0) (ht : t = { u with sdcmr := v &&& maskCMR })
  | issued (c : Command) (hr : r = .sdcmr) (hb : busy u = false) (hm : cmdModeBits v ≠ 0) (hc : commandOf v = some c)
      (ht : t = issueCommand c { u with sdcmr := v &&& maskCMR })

/-- Everything the write of `SDCMR` can do. -/
theorem writeCommand_done {w : Word} {u t : State} (h : writeCommand w u = .done () t) : RegWritten .sdcmr w u t := by
  unfold writeCommand at h
  split at h
  · simp [raiseFault] at h
  · rename_i hb
    have hb : busy u = false := by simpa using hb
    simp only at h
    split at h
    · rename_i hm
      exact .idle rfl hb hm (by simpa using h.symm)
    · rename_i hm
      split at h
      · rename_i c hc
        exact .issued c rfl hb hm hc (by simpa using h.symm)
      · simp at h

theorem writeCommand_halt {w : Word} {u t : State} (h : writeCommand w u = .halt t) :
    busy u = true ∧ t = { u with faulted := some .commandWhileBusy } := by
  unfold writeCommand at h
  split at h
  · rename_i hb
    exact ⟨hb, by simpa [raiseFault] using h.symm⟩
  · simp only at h
    split at h
    · simp at h
    · split at h <;> simp at h

/-- Everything a `RegWrite` that comes to its end can do: the engine's turn, the event, and then the register's own
effect (20 R73). -/
theorem regWrite_done {r : Reg} {v : Word} {s t : State} (h : regWrite r v s = .done () t) :
    s.clkGate = true ∧ RegWritten r v (emit (.regWritten r v) (engineTurn s)) t := by
  unfold regWrite at h
  simp only [engineTurn_clkGate] at h
  split at h
  · rename_i hg
    refine ⟨hg, ?_⟩
    cases r with
    | sdcr1 => exact .sdcr1 rfl (by simpa using h.symm)
    | sdcr2 => exact .sdcr2 rfl (by simpa using h.symm)
    | sdtr1 => exact .sdtr1 rfl (by simpa using h.symm)
    | sdtr2 => exact .sdtr2 rfl (by simpa using h.symm)
    | sdrtr => exact .sdrtr rfl (by simpa using h.symm)
    | sdsr => exact .sdsr rfl (by simpa using h.symm)
    | sdcmr => exact writeCommand_done h
  · simp [raiseFault] at h

/-- A `RegWrite` is marked faulted with the gate off, or at `SDCMR` while busy, and never otherwise (20 R71, R73). -/
theorem regWrite_halt {r : Reg} {v : Word} {s t : State} (h : regWrite r v s = .halt t) :
    (s.clkGate = false ∧ t = { engineTurn s with faulted := some .gateOff }) ∨
      (s.clkGate = true ∧ r = .sdcmr ∧ busy (engineTurn s) = true ∧
        t = { emit (.regWritten .sdcmr v) (engineTurn s) with faulted := some .commandWhileBusy }) := by
  unfold regWrite at h
  simp only [engineTurn_clkGate] at h
  split at h
  · rename_i hg
    cases r with
    | sdcmr =>
      obtain ⟨hb, ht⟩ := writeCommand_halt h
      exact .inr ⟨hg, rfl, hb, ht⟩
    | _ => simp at h
  · rename_i hg
    exact .inl ⟨by simpa using hg, by simpa [raiseFault] using h.symm⟩

/-- `RegWrite` of a register that is not `SDCMR`, with the gate on, comes to its end. -/
theorem regWrite_of_gate {r : Reg} (v : Word) {s : State} (hr : r ≠ .sdcmr) (hg : s.clkGate = true) :
    ∃ t, regWrite r v s = .done () t := by
  cases r <;> simp_all [regWrite]

/-- `SetFields` is one read and one write (20 R76). -/
theorem setFields_done {r : Reg} {fs : List (Field × Nat)} {s t : State} (h : setFields r fs s = .done () t) :
    s.clkGate = true ∧ ∃ u, u = emit (.regReadEv r (regValue (engineTurn s) r)) (engineTurn s) ∧
      regWrite r (insertFields (regValue (engineTurn s) r) fs) u = .done () t := by
  unfold setFields at h
  obtain ⟨a, u, hr, hw⟩ := actThen_done h
  rw [regRead_eq] at hr
  split at hr
  · rename_i hg
    injection hr with ha hu
    subst ha
    exact ⟨hg, u, hu.symm, hw⟩
  · simp at hr

/-- `SetFields` while no command is in flight: the write of the new word after the read of the old one (20 R76). -/
theorem setFields_idle (r : Reg) (fs : List (Field × Nat)) {s : State} (hg : s.clkGate = true)
    (hi : s.inflight = none) :
    setFields r fs s = regWrite r (insertFields (regValue s r) fs) (emit (.regReadEv r (regValue s r)) s) := by
  simp [setFields, regRead_idle r hg hi]

/-- `SetFields` is marked faulted exactly as its read or its write is. -/
theorem setFields_halt {r : Reg} {fs : List (Field × Nat)} {s t : State} (h : setFields r fs s = .halt t) :
    (s.clkGate = false ∧ t = { engineTurn s with faulted := some .gateOff }) ∨
      ∃ v u, u = emit (.regReadEv r (regValue (engineTurn s) r)) (engineTurn s) ∧ regWrite r v u = .halt t := by
  unfold setFields at h
  rcases actThen_halt h with hr | ⟨a, u, hr, hw⟩
  · rw [regRead_eq] at hr
    split at hr
    · simp at hr
    · rename_i hg
      exact .inl ⟨by simpa using hg, by simpa using hr.symm⟩
  · rw [regRead_eq] at hr
    split at hr
    · injection hr with ha hu
      exact .inr ⟨_, u, hu.symm, hw⟩
    · simp at hr

/-! ### Pins -/

@[simp] theorem updatePin_idle {s : State} (hi : s.inflight = none) (p : PinId) (f : PinState → PinState) :
    updatePin p f s = setPin p (f (pinOf s p)) s := by
  simp [updatePin, hi]

@[simp] theorem pinOf_updatePin (p q : PinId) (f : PinState → PinState) (s : State) :
    pinOf (updatePin p f s) q = if q = p then f (pinOf s p) else pinOf s q := by
  simp [updatePin]

/-- Marking pins sets `in_bundle` of exactly those pins (40 R143). -/
theorem pinOf_markPins (ps : List PinId) (s : State) (q : PinId) :
    pinOf (markPins ps s) q = if q ∈ ps then { pinOf s q with inBundle := true } else pinOf s q := by
  induction ps generalizing s with
  | nil => simp [markPins]
  | cons p ps ih =>
    show pinOf (markPins ps (updatePin p _ s)) q = _
    rw [ih, pinOf_updatePin]
    by_cases hq : q = p
    · subst hq; simp
    · simp [hq]

@[simp] theorem pinOf_preparePin (s : State) (p q : PinId) :
    pinOf (preparePin s p) q =
      if q = p then { pinOf s p with slewHigh := true, pullupOff := true } else pinOf s q := by
  simp [preparePin]

/-- Preparing pins sets both flags of exactly those pins (40 R151). -/
theorem pinOf_foldl_preparePin (ps : List PinId) (s : State) (q : PinId) :
    pinOf (ps.foldl preparePin s) q =
      if q ∈ ps then { pinOf s q with slewHigh := true, pullupOff := true } else pinOf s q := by
  induction ps generalizing s with
  | nil => simp
  | cons p ps ih =>
    rw [List.foldl_cons, ih, pinOf_preparePin]
    by_cases hq : q = p
    · subst hq; simp
    · simp [hq]

theorem pinOf_prepareBundle (s : State) (b : Bundle) (q : PinId) :
    pinOf (prepareBundle s b) q =
      if q ∈ bundlePins b then { pinOf s q with slewHigh := true, pullupOff := true } else pinOf s q :=
  pinOf_foldl_preparePin _ s q

/-- The checks of `take` pass exactly when every pin is bound to its position's role and free (40 R143). -/
theorem takeError_none_iff (pins : List PinId) (roles : List Role) (s : State) :
    takeError pins roles s = none ↔
      List.Forall₂ (fun p r => (pinOf s p).binding = .bound r ∧ (pinOf s p).inBundle = false) pins roles := by
  unfold takeError
  by_cases hl : pins.length = roles.length
  · simp only [hl, ne_eq, not_true_eq_false, if_false]
    induction pins generalizing roles with
    | nil => cases roles with
      | nil => simp [takeChecks]
      | cons r rs => simp at hl
    | cons p ps ih => cases roles with
      | nil => simp at hl
      | cons r rs =>
        simp only [List.zip_cons_cons, takeChecks, List.forall₂_cons]
        rw [← ih rs (by simpa using hl)]
        by_cases h1 : (pinOf s p).binding = .bound r
        · by_cases h2 : (pinOf s p).inBundle = true <;> simp [h1, h2]
        · simp [h1]
  · simp only [ne_eq, hl, not_false_eq_true, if_true, reduceCtorEq, false_iff]
    exact fun h => hl h.length_eq

/-- A constructor either rejects or takes its pins and returns its bundle (40 R143 to R150). -/
theorem makeBundle_cases (b : Bundle) (s : State) :
    (∃ e, makeBundle b s = reject e s) ∨
      (takeError (bundlePins b) (bundleRoles b) s = none ∧
        makeBundle b s = .next { markPins (bundlePins b) s with bundles := s.bundles ++ [b],
                                                                 result := some (.bundle b) }) := by
  unfold makeBundle
  split
  · exact .inl ⟨_, rfl⟩
  · rename_i h
    exact .inr ⟨h, by simp⟩

/-! ### Delay -/

/-- What setting a bank's tracker leaves alone, `DELAY` leaves alone (42 R217). -/
theorem observeDelay_keeps {γ : Type} (f : State → γ) (h : ∀ b p d s, f (setTrack b p d s) = f s) (b : Bank) (s : State) :
    f (observeDelay b s) = f s := by
  unfold observeDelay
  split
  · exact h ..
  · rfl

@[simp] theorem observeDelay_sdcr1 (b : Bank) (s : State) : (observeDelay b s).sdcr1 = s.sdcr1 :=
  observeDelay_keeps (·.sdcr1) setTrack_sdcr1 b s
@[simp] theorem observeDelay_sdcr2 (b : Bank) (s : State) : (observeDelay b s).sdcr2 = s.sdcr2 :=
  observeDelay_keeps (·.sdcr2) setTrack_sdcr2 b s
@[simp] theorem observeDelay_sdtr1 (b : Bank) (s : State) : (observeDelay b s).sdtr1 = s.sdtr1 :=
  observeDelay_keeps (·.sdtr1) setTrack_sdtr1 b s
@[simp] theorem observeDelay_sdtr2 (b : Bank) (s : State) : (observeDelay b s).sdtr2 = s.sdtr2 :=
  observeDelay_keeps (·.sdtr2) setTrack_sdtr2 b s
@[simp] theorem observeDelay_sdcmr (b : Bank) (s : State) : (observeDelay b s).sdcmr = s.sdcmr :=
  observeDelay_keeps (·.sdcmr) setTrack_sdcmr b s
@[simp] theorem observeDelay_sdrtr (b : Bank) (s : State) : (observeDelay b s).sdrtr = s.sdrtr :=
  observeDelay_keeps (·.sdrtr) setTrack_sdrtr b s
@[simp] theorem observeDelay_sdsr (b : Bank) (s : State) : (observeDelay b s).sdsr = s.sdsr :=
  observeDelay_keeps (·.sdsr) setTrack_sdsr b s
@[simp] theorem observeDelay_clkGate (b : Bank) (s : State) : (observeDelay b s).clkGate = s.clkGate :=
  observeDelay_keeps (·.clkGate) setTrack_clkGate b s
@[simp] theorem observeDelay_pins (b : Bank) (s : State) : (observeDelay b s).pins = s.pins :=
  observeDelay_keeps (·.pins) setTrack_pins b s
@[simp] theorem observeDelay_handle (b : Bank) (s : State) : (observeDelay b s).handle = s.handle :=
  observeDelay_keeps (·.handle) setTrack_handle b s
@[simp] theorem observeDelay_refreshProgrammed (b : Bank) (s : State) : (observeDelay b s).refreshProgrammed = s.refreshProgrammed :=
  observeDelay_keeps (·.refreshProgrammed) setTrack_refreshProgrammed b s
@[simp] theorem observeDelay_inflight (b : Bank) (s : State) : (observeDelay b s).inflight = s.inflight :=
  observeDelay_keeps (·.inflight) setTrack_inflight b s
@[simp] theorem observeDelay_events (b : Bank) (s : State) : (observeDelay b s).events = s.events :=
  observeDelay_keeps (·.events) setTrack_events b s
@[simp] theorem observeDelay_mem1 (b : Bank) (s : State) : (observeDelay b s).mem1 = s.mem1 :=
  observeDelay_keeps (·.mem1) setTrack_mem1 b s
@[simp] theorem observeDelay_mem2 (b : Bank) (s : State) : (observeDelay b s).mem2 = s.mem2 :=
  observeDelay_keeps (·.mem2) setTrack_mem2 b s
@[simp] theorem observeDelay_faulted (b : Bank) (s : State) : (observeDelay b s).faulted = s.faulted :=
  observeDelay_keeps (·.faulted) setTrack_faulted b s
@[simp] theorem observeDelay_platform (b : Bank) (s : State) : (observeDelay b s).platform = s.platform :=
  observeDelay_keeps (·.platform) setTrack_platform b s
@[simp] theorem observeDelay_bundles (b : Bank) (s : State) : (observeDelay b s).bundles = s.bundles :=
  observeDelay_keeps (·.bundles) setTrack_bundles b s
@[simp] theorem observeDelay_configs (b : Bank) (s : State) : (observeDelay b s).configs = s.configs :=
  observeDelay_keeps (·.configs) setTrack_configs b s
@[simp] theorem observeDelay_result (b : Bank) (s : State) : (observeDelay b s).result = s.result :=
  observeDelay_keeps (·.result) setTrack_result b s
@[simp] theorem observeDelay_polling (b : Bank) (s : State) : (observeDelay b s).polling = s.polling :=
  observeDelay_keeps (·.polling) setTrack_polling b s
@[simp] theorem observeDelay_busyLeft (b : Bank) (s : State) : (observeDelay b s).busyLeft = s.busyLeft :=
  observeDelay_keeps (·.busyLeft) setTrack_busyLeft b s
@[simp] theorem observeDelay_draws (b : Bank) (s : State) : (observeDelay b s).draws = s.draws :=
  observeDelay_keeps (·.draws) setTrack_draws b s
@[simp] theorem observeDelay_queue (b : Bank) (s : State) : (observeDelay b s).queue = s.queue :=
  observeDelay_keeps (·.queue) setTrack_queue b s

/-- `DELAY` moves no phase (42 R217). -/
@[simp] theorem phaseOf_observeDelay (b c : Bank) (s : State) : phaseOf (observeDelay b s) c = phaseOf s c := by
  unfold observeDelay
  split
  · rename_i h
    rw [phaseOf_setTrack]
    split
    · rename_i hc; rw [hc, h]
    · rfl
  · rfl

@[simp] theorem delayOkOf_observeDelay (b c : Bank) (s : State) :
    delayOkOf (observeDelay b s) c = (delayOkOf s c || (decide (c = b) && decide (phaseOf s b = .clockEnabled))) := by
  unfold observeDelay
  split
  · rename_i h
    rw [delayOkOf_setTrack]
    by_cases hc : c = b <;> simp [hc, h]
  · rename_i h
    simp [h]

/-! ### Window accesses -/

theorem insideWindow_iff (p : Platform) (b : Bank) (a n : Nat) :
    insideWindow p b a n = true ↔
      (bankBase p b).toNat ≤ a ∧ a + n ≤ (bankBase p b).toNat + p.bankSize := by
  unfold insideWindow
  rw [Bool.and_eq_true, decide_eq_true_iff, decide_eq_true_iff]

/-- A window access stands wholly inside one bank (20 R81). -/
theorem windowOf_some {p : Platform} {a n o : Nat} {b : Bank} (h : windowOf p a n = some (b, o)) :
    1 ≤ n ∧ a = (bankBase p b).toNat + o ∧ o + n ≤ p.bankSize := by
  unfold windowOf at h
  split at h
  · simp at h
  · rename_i hn
    split at h
    · rename_i hi
      have hi := (insideWindow_iff _ _ _ _).mp hi
      simp only [Option.some.injEq, Prod.mk.injEq] at h
      obtain ⟨rfl, rfl⟩ := h
      simp only [bankBase] at hi ⊢
      omega
    · split at h
      · rename_i hi
        have hi := (insideWindow_iff _ _ _ _).mp hi
        simp only [Option.some.injEq, Prod.mk.injEq] at h
        obtain ⟨rfl, rfl⟩ := h
        simp only [bankBase] at hi ⊢
        omega
      · simp at h

/-- A window read that answers is a `MemRead` inside one bank (20 R82). -/
theorem windowRead_next {a n : Nat} {s t : State} (h : windowRead a n s = .next t) :
    ∃ b o, windowOf s.platform a n = some (b, o) ∧ t = memRead b o a n s := by
  unfold windowRead at h
  split at h
  · rename_i b o hw
    exact ⟨b, o, hw, by simpa using h.symm⟩
  · simp at h

/-- A window write that answers is a `MemWrite` inside one bank (20 R83). -/
theorem windowWrite_next {a n v : Nat} {s t : State} (h : windowWrite a n v s = .next t) :
    ∃ b o, windowOf s.platform a n = some (b, o) ∧ t = memWrite b o a n v s := by
  unfold windowWrite at h
  split at h
  · rename_i b o hw
    exact ⟨b, o, hw, by simpa using h.symm⟩
  · simp at h

/-- A read of an element that answers is a window read at the element's address (43 R262). -/
theorem readElement_next {v : View} {i : Nat} {s t : State} (h : readElement v i s = .next t) :
    viewExists v s = true ∧ i < v.count ∧
      windowRead (elementAddr v.base v.elementSize i) v.elementSize s = .next t := by
  unfold readElement at h
  split at h
  · rename_i hv
    rw [Bool.and_eq_true, decide_eq_true_iff] at hv
    exact ⟨hv.1, hv.2, h⟩
  · simp at h

/-- A write of an element that answers is a window write at the element's address (43 R262). -/
theorem writeElement_next {v : View} {i x : Nat} {s t : State} (h : writeElement v i x s = .next t) :
    viewExists v s = true ∧ i < v.count ∧
      windowWrite (elementAddr v.base v.elementSize i) v.elementSize x s = .next t := by
  unfold writeElement at h
  split at h
  · rename_i hv
    rw [Bool.and_eq_true, decide_eq_true_iff] at hv
    exact ⟨hv.1, hv.2, h⟩
  · simp at h

/-- Readiness does not depend on the engine, on events or on what the host was told (10 R44). -/
theorem ready_congr {s t : State} (h1 : t.handle = s.handle) (h2 : ∀ b, phaseOf t b = phaseOf s b)
    (h3 : t.refreshProgrammed = s.refreshProgrammed) (h4 : t.faulted = s.faulted) (b : Bank) :
    ready t b = ready s b := by
  simp [ready, h1, h2 b, h3, h4]

/-- The engine's turn does not make a bank ready or unready (10 R44). -/
@[simp] theorem ready_engineTurn (s : State) (b : Bank) : ready (engineTurn s) b = ready s b :=
  ready_congr (by simp) (fun x => by cases x <;> simp [phaseOf]) (by simp) (by simp) b

/-- The effective configuration is one of the control and timing registers alone (10 R52). -/
theorem eff_congr {s t : State} (h1 : t.sdcr1 = s.sdcr1) (h2 : t.sdcr2 = s.sdcr2) (h3 : t.sdtr1 = s.sdtr1)
    (h4 : t.sdtr2 = s.sdtr2) (b : Bank) : eff t b = eff s b := by
  cases b <;> simp [eff, regValue, controlReg, timingReg, h1, h2, h3, h4]

/-- Everything a window read can be (20 R82). -/
theorem memRead_cases (b : Bank) (o a n : Nat) (s : State) :
    (ready s b = true ∧ memRead b o a n s =
      { emit (.memReadEv a n (memBytes (memOf (engineTurn s) b) o n)) (engineTurn s) with
        result := some (.value (littleEndianValue (memBytes (memOf (engineTurn s) b) o n))) }) ∨
    (ready s b = false ∧ memRead b o a n s =
      { emit (.memReadEv a n (drawBytes s.draws n)) (engineTurn s) with
        result := some (.value (littleEndianValue (drawBytes s.draws n))), draws := s.draws + 1 }) := by
  unfold memRead
  cases h : ready s b <;> simp [h]

/-- Everything a window write can be (20 R83). -/
theorem memWrite_cases (b : Bank) (o a n v : Nat) (s : State) :
    let t := { emit (.memWriteEv a n (littleEndianBytes n v)) (engineTurn s) with result := some .unit }
    (ready s b = true ∧ (eff s b).wp = 0 ∧ memWrite b o a n v s =
      setMem b { memOf t b with cells := writeCells (memOf t b).cells o (littleEndianBytes n v) } t) ∨
    (ready s b = true ∧ (eff s b).wp ≠ 0 ∧ memWrite b o a n v s = t) ∨
    (ready s b = false ∧
      memWrite b o a n v s = { setMem b { draw := s.draws, cells := [] } t with draws := s.draws + 1 }) := by
  intro t
  have hr : ready t b = ready s b := (ready_congr rfl (fun x => by cases x <;> rfl) rfl rfl b).trans (ready_engineTurn s b)
  have he : eff t b = eff s b :=
    eff_congr (engineTurn_sdcr1 s) (engineTurn_sdcr2 s) (engineTurn_sdtr1 s) (engineTurn_sdtr2 s) b
  have hd : t.draws = s.draws := engineTurn_draws s
  have e : memWrite b o a n v s = if ready t b then
      if (eff t b).wp = 0 then setMem b { memOf t b with cells := writeCells (memOf t b).cells o (littleEndianBytes n v) } t
      else t
    else { setMem b { draw := t.draws, cells := [] } t with draws := t.draws + 1 } := rfl
  rw [e, hr, he, hd]
  cases ready s b
  · exact .inr (.inr ⟨rfl, rfl⟩)
  · by_cases hw : (eff s b).wp = 0
    · exact .inl ⟨rfl, hw, by simp [hw]⟩
    · exact .inr (.inl ⟨rfl, hw, by simp [hw]⟩)

/-! ### The step -/

/-- Everything a step that answers a next state can be (60 R276, 42 R214, 70 R301). -/
theorem step_next {s t : State} (h : step s = .next t) :
    s.faulted = none ∧ platformOk s.platform = true ∧
      ((s.polling = true ∧ pollOnce s = .next t) ∨
        (s.polling = false ∧ s.queue = [] ∧ t = engineTurn s) ∨
        ∃ r rest, s.polling = false ∧ s.queue = r :: rest ∧ serve r { s with queue := rest } = .next t) := by
  unfold step at h
  split at h
  · simp at h
  · rename_i hf
    split at h
    · rename_i hp
      refine ⟨hf, hp, ?_⟩
      unfold hostTurn at h
      split at h
      · rename_i hpoll
        exact .inl ⟨hpoll, h⟩
      · rename_i hpoll
        have hpoll : s.polling = false := by simpa using hpoll
        split at h
        · rename_i hq
          exact .inr (.inl ⟨hpoll, hq, by simpa using h.symm⟩)
        · rename_i r rest hq
          exact .inr (.inr ⟨r, rest, hpoll, hq, h⟩)
    · simp at h

/-- A served packet is a decoded instruction run; a window access or a raw register transaction is the rest. -/
theorem serve_next {r : Request} {s t : State} (h : serve r s = .next t) :
    (∃ p i, r = .packet p ∧ decode p = .ok i ∧ exec i s = .next t) ∨
      (∃ a n b o, ((∃ w, r = .read w n ∧ a = w.toNat) ∨
          ∃ v i, r = .readElement v i ∧ viewExists v s = true ∧ i < v.count ∧
            a = elementAddr v.base v.elementSize i ∧ n = v.elementSize) ∧
        windowOf s.platform a n = some (b, o) ∧ t = memRead b o a n s) ∨
      (∃ a n x b o, ((∃ w, r = .write w n x ∧ a = w.toNat) ∨
          ∃ v i, r = .writeElement v i x ∧ viewExists v s = true ∧ i < v.count ∧
            a = elementAddr v.base v.elementSize i ∧ n = v.elementSize) ∧
        windowOf s.platform a n = some (b, o) ∧ t = memWrite b o a n x s) ∨
      (∃ a q, r = .read a 4 ∧ actEnd (actThen (regRead q s) fun w u => .done (.word w) u) = .next t) ∨
      ∃ a v q, r = .write a 4 v ∧
        actEnd (actThen (regWrite q (BitVec.ofNat 32 v) s) fun _ u => .done .unit u) = .next t := by
  cases r with
  | packet p =>
    simp only [serve, servePacket] at h
    split at h
    · rename_i i hd
      exact .inl ⟨p, i, rfl, hd, h⟩
    · simp at h
  | read a n =>
    simp only [serve, hostRead] at h
    split at h
    · rename_i b o hw
      exact .inr (.inl ⟨a.toNat, n, b, o, .inl ⟨a, rfl, rfl⟩, hw, by simpa using h.symm⟩)
    · split at h
      · split at h
        · rename_i q hq
          simp only [regOfAccess] at hq
          split at hq
          · rename_i hn
            exact .inr (.inr (.inr (.inl ⟨a, q, by rw [hn], h⟩)))
          · simp at hq
        · simp at h
      · simp at h
  | write a n v =>
    simp only [serve, hostWrite] at h
    split at h
    · rename_i b o hw
      exact .inr (.inr (.inl ⟨a.toNat, n, v, b, o, .inl ⟨a, rfl, rfl⟩, hw, by simpa using h.symm⟩))
    · split at h
      · split at h
        · rename_i q hq
          simp only [regOfAccess] at hq
          split at hq
          · rename_i hn
            exact .inr (.inr (.inr (.inr ⟨a, v, q, by rw [hn], h⟩)))
          · simp at hq
        · simp at h
      · simp at h
  | readElement v i =>
    obtain ⟨hv, hi, hr⟩ := readElement_next h
    obtain ⟨b, o, hw, ht⟩ := windowRead_next hr
    exact .inr (.inl ⟨_, _, b, o, .inr ⟨v, i, rfl, hv, hi, rfl, rfl⟩, hw, ht⟩)
  | writeElement v i x =>
    obtain ⟨hv, hi, hr⟩ := writeElement_next h
    obtain ⟨b, o, hw, ht⟩ := windowWrite_next hr
    exact .inr (.inr (.inl ⟨_, _, x, b, o, .inr ⟨v, i, rfl, hv, hi, rfl, rfl⟩, hw, ht⟩))

end Sys2Proof.Machine
end

