-- ==== Sys2Proof/Laws/Effect.lean ====
section
/-! SUPPORT. Said once: everything an instruction that answers a next state can do. A statement about every instruction
is proved by a case analysis of `Effect`. -/

namespace Sys2Proof.Machine

/-- `SetFields` of a register other than `SDCMR` with the gate on comes to its end (20 R71, R73, R76). -/
theorem setFields_of_gate {r : Reg} (fs : List (Field × Nat)) {s : State} (hr : r ≠ .sdcmr) (hg : s.clkGate = true) :
    ∃ t, setFields r fs s = .done () t := by
  unfold setFields
  rw [regRead_eq, if_pos hg, actThen_of_done]
  exact regWrite_of_gate _ hr (by simpa using hg)

theorem setFields_clkGate {r : Reg} {fs : List (Field × Nat)} {s t : State} (h : setFields r fs s = .done () t) :
    t.clkGate = s.clkGate := by
  obtain ⟨-, u, rfl, hw⟩ := setFields_done h
  obtain ⟨-, hw⟩ := regWrite_done hw
  cases hw <;> subst_vars <;> simp

/-- The register programmer with the gate on comes to its end (41 R182: `CONFIGURE` has no error return). -/
theorem programControl_of_gate (b : Bank) (cfg : Configuration) (ba : BankAccess) {s : State} (hg : s.clkGate = true) :
    ∃ t, programControl b cfg ba s = .done () t ∧ t.clkGate = true := by
  cases b with
  | bank1 =>
    obtain ⟨t, h⟩ := setFields_of_gate (r := .sdcr1) (sharedControlFields cfg ++ bankControlFields cfg ba) (by decide) hg
    exact ⟨t, h, (setFields_clkGate h).trans hg⟩
  | bank2 =>
    obtain ⟨u, hu⟩ := setFields_of_gate (r := .sdcr1) (sharedControlFields cfg) (by decide) hg
    have gu := (setFields_clkGate hu).trans hg
    obtain ⟨t, h⟩ := setFields_of_gate (r := .sdcr2) (bankControlFields cfg ba) (by decide) gu
    exact ⟨t, by simp [programControl, hu, h], (setFields_clkGate h).trans gu⟩

@[inherit_doc programControl_of_gate]
theorem programTiming_of_gate (b : Bank) (tm : Timing) {s : State} (hg : s.clkGate = true) :
    ∃ t, programTiming b tm s = .done () t ∧ t.clkGate = true := by
  cases b with
  | bank1 =>
    obtain ⟨t, h⟩ := setFields_of_gate (r := .sdtr1) (allTimingFields tm) (by decide) hg
    exact ⟨t, h, (setFields_clkGate h).trans hg⟩
  | bank2 =>
    obtain ⟨u, hu⟩ := setFields_of_gate (r := .sdtr1) (sharedTimingFields tm) (by decide) hg
    have gu := (setFields_clkGate hu).trans hg
    obtain ⟨t, h⟩ := setFields_of_gate (r := .sdtr2) (bankTimingFields tm) (by decide) gu
    exact ⟨t, by simp [programTiming, hu, h], (setFields_clkGate h).trans gu⟩

/-- What an instruction that answers a next state does. -/
inductive Effect (s : State) : Instr → State → Prop where
  /-- A rejection (60 R270). -/
  | rejected (i : Instr) (code : Rejection) :
      Effect s i { s with events := s.events ++ [.rejected (rejectionNumber code)], result := some (.rejected code) }
  /-- Only a value for the host. -/
  | told (i : Instr) (r : Result) (hr : ∀ code, r ≠ .rejected code) : Effect s i { s with result := some r }
  /-- 40 R142. -/
  | bound (p : PinId) (r : Role) (hc : p ∈ capOf s.platform r) (hu : (pinOf s p).binding = .unassigned) :
      Effect s (.bindPin p r)
        { updatePin p (fun q => { q with binding := .bound r }) s with result := some (.boundPin p r) }
  /-- 40 R143 to R150. -/
  | taken (i : Instr) (b : Bundle) (hi : constructedBundle i = some b)
      (ht : takeError (bundlePins b) (bundleRoles b) s = none) :
      Effect s i { markPins (bundlePins b) s with bundles := s.bundles ++ [b], result := some (.bundle b) }
  /-- 40 R151. -/
  | prepared (b : Bundle) (hb : b ∈ s.bundles) :
      Effect s (.preparePins b) { prepareBundle s b with result := some (.bundle b) }
  /-- 41 R181. -/
  | configMade (c : Configuration) (hc : configError c = none) (ha : .addr c.addrBus ∈ s.bundles)
      (hd : .data c.dataBus ∈ s.bundles) :
      Effect s (.makeConfig c) { s with configs := s.configs ++ [c], result := some (.config c) }
  /-- 41 R182 to R190. -/
  | configured (cfg : Configuration) (ba : BankAccess) (nbl : ByteEnable) (clk ras cas : PinId) (sel : CkeCs)
      (we : PinId) (u v : State) (hh : s.handle = none) (hc : cfg ∈ s.configs) (he : configError cfg = none)
      (hb : ∀ b ∈ configureBundles cfg ba nbl clk ras cas sel we, b ∈ s.bundles)
      (hu : programControl sel.bank cfg ba (gateAndPrepare (configureBundles cfg ba nbl clk ras cas sel we) s) =
        .done () u)
      (hv : programTiming sel.bank cfg.timing u = .done () v) :
      Effect s (.configure cfg ba nbl clk ras cas sel we)
        { takeHandle sel.bank cfg (configureBundles cfg ba nbl clk ras cas sel we) v with
            result := some (.handle sel.bank) }
  /-- 42 R212: the write of `SEND_COMMAND`. -/
  | sent (c : Command) (b : Bank) (u : State) (hh : s.handle = some b)
      (hw : regWrite .sdcmr (encodeCmd c) s = .done () u) :
      Effect s (.sendCommand c) { u with polling := true, result := none }
  /-- 42 R222, R226, R229: one field of the Handle's registers. -/
  | fieldSet (i : Instr) (r : Reg) (f : Field) (n : Nat) (b : Bank) (u : State) (hh : s.handle = some b)
      (hf : (r = .sdcmr ∧ f = fNRFS) ∨ (r = .sdrtr ∧ f = fCOUNT) ∨ (r = controlReg b ∧ f = fWP))
      (hw : setField r f n s = .done () u) : Effect s i { u with result := some .unit }
  /-- 42 R227. -/
  | flagRead (b : Bank) (w : Word) (u : State) (hh : s.handle = some b)
      (hw : regRead (controlReg b) s = .done w u) :
      Effect s .writeProtection { u with result := some (.flag (w.getLsbD 9)) }
  /-- 42 R217. -/
  | delayed (n : Nat) :
      Effect s (.delay n)
        { (if 1 ≤ n then observeDelay .bank2 (observeDelay .bank1 (emit (.delayed n) (engineTurn s)))
           else emit (.delayed n) (engineTurn s)) with result := some .unit }
  /-- 42 R218 to R223: the write of a raw command word. -/
  | rawWritten (i : Instr) (w : Word) (u : State) (hw : regWrite .sdcmr w s = .done () u) :
      Effect s i { u with result := some .unit }
  /-- 60 R276: a read marked faulted. -/
  | readFaulted (i : Instr) (r : Reg) (u : State) (hr : regRead r s = .halt u) : Effect s i { u with result := none }
  /-- 60 R276: a write marked faulted. -/
  | writeFaulted (i : Instr) (r : Reg) (w : Word) (u : State) (hw : regWrite r w s = .halt u) :
      Effect s i { u with result := none }
  /-- 60 R276: a read-modify-write marked faulted. -/
  | fieldFaulted (i : Instr) (r : Reg) (f : Field) (n : Nat) (u : State) (hw : setField r f n s = .halt u) :
      Effect s i { u with result := none }

theorem effect_of_reject {i : Instr} {code : Rejection} {s t : State} (h : reject code s = .next t) : Effect s i t := by
  rw [reject_next h]; exact .rejected i code

theorem effect_of_makeBundle {i : Instr} {b : Bundle} {s t : State} (hi : constructedBundle i = some b)
    (h : makeBundle b s = .next t) : Effect s i t := by
  rcases makeBundle_cases b s with ⟨e, he⟩ | ⟨ht, he⟩
  · exact effect_of_reject (he ▸ h)
  · rw [he] at h
    injection h with h
    subst h
    exact .taken i b hi ht

theorem effect_of_setField {i : Instr} {r : Reg} {f : Field} {n : Nat} {b : Bank} {s t : State} (hh : s.handle = some b)
    (hf : (r = .sdcmr ∧ f = fNRFS) ∨ (r = .sdrtr ∧ f = fCOUNT) ∨ (r = controlReg b ∧ f = fWP))
    (h : actEnd (actThen (setField r f n s) fun _ t => .done .unit t) = .next t) : Effect s i t := by
  rcases actEnd_next h with ⟨x, u, hx, rfl⟩ | ⟨u, hx, rfl⟩
  · obtain ⟨_, v, hv, hd⟩ := actThen_done hx
    injection hd with h1 h2
    subst h1 h2
    exact .fieldSet i r f n b _ hh hf hv
  · rcases actThen_halt hx with hv | ⟨_, v, hv, hd⟩
    · exact .fieldFaulted i r f n u hv
    · simp at hd

theorem effect_of_rawWrite {i : Instr} {w : Word} {s t : State}
    (h : actEnd (actThen (regWrite .sdcmr w s) fun _ t => .done .unit t) = .next t) : Effect s i t := by
  rcases actEnd_next h with ⟨x, u, hx, rfl⟩ | ⟨u, hx, rfl⟩
  · obtain ⟨_, v, hv, hd⟩ := actThen_done hx
    injection hd with h1 h2
    subst h1 h2
    exact .rawWritten i w _ hv
  · rcases actThen_halt hx with hv | ⟨_, v, hv, hd⟩
    · exact .writeFaulted i _ w u hv
    · simp at hd

theorem gateAndPrepare_clkGate_true (bs : List Bundle) (s : State) : (gateAndPrepare bs s).clkGate = true := by simp

/-- Every instruction that answers a next state does one of the things `Effect` lists. -/
theorem exec_next {i : Instr} {s t : State} (h : exec i s = .next t) : Effect s i t := by
  cases i with
  | bindPin p r =>
    simp only [exec, execBindPin] at h
    split at h
    · rename_i hc
      split at h
      · rename_i hu
        injection h with h; subst h
        exact .bound p r hc hu
      · exact effect_of_reject h
    · exact effect_of_reject h
  | makeAddrBus v ps => exact effect_of_makeBundle rfl h
  | makeDataBus v ps => exact effect_of_makeBundle rfl h
  | makeBankAccess v ps => exact effect_of_makeBundle rfl h
  | makeByteEnable v ps => exact effect_of_makeBundle rfl h
  | makeCkecsBank1 cke cs =>
    simp only [exec, execMakeCkecsBank1] at h
    split at h
    · exact effect_of_reject h
    · exact effect_of_makeBundle rfl h
  | makeCkecsBank2 cke cs =>
    simp only [exec, execMakeCkecsBank2] at h
    split at h
    · exact effect_of_reject h
    · exact effect_of_makeBundle rfl h
  | makeSingle k p => exact effect_of_makeBundle rfl h
  | preparePins b =>
    simp only [exec, execPreparePins] at h
    split at h
    · rename_i hb
      injection h with h; subst h
      exact .prepared b (by simpa [holdsBundle] using hb)
    · simp at h
  | width b =>
    simp only [exec, execWidth] at h
    split at h
    · injection h with h; subst h
      exact .told _ _ (by simp)
    · simp at h
  | bankOfPins b =>
    simp only [exec, execBankOfPins] at h
    split at h
    · injection h with h; subst h
      exact .told _ _ (by simp)
    · simp at h
  | makeConfig c =>
    simp only [exec, execMakeConfig] at h
    split at h
    · exact effect_of_reject h
    · rename_i hc
      split at h
      · rename_i hb
        simp only [holdsBundle, Bool.and_eq_true, decide_eq_true_eq] at hb
        injection h with h; subst h
        exact .configMade c hc hb.1 hb.2
      · simp at h
  | configure cfg ba nbl clk ras cas sel we =>
    simp only [exec, execConfigure] at h
    split at h
    · exact effect_of_reject h
    · rename_i hh
      split at h
      · rename_i hb
        simp only [holdsConfig, holdsBundle, Bool.and_eq_true, decide_eq_true_eq, List.all_eq_true,
          Option.isNone_iff_eq_none] at hb
        obtain ⟨u, hu, gu⟩ := programControl_of_gate sel.bank cfg ba
          (gateAndPrepare_clkGate_true (configureBundles cfg ba nbl clk ras cas sel we) s)
        obtain ⟨v, hv, -⟩ := programTiming_of_gate sel.bank cfg.timing gu
        rw [hu, actThen_of_done, hv, actThen_of_done] at h
        simp only [actEnd] at h
        injection h with h; subst h
        exact .configured cfg ba nbl clk ras cas sel we u v (by simpa using hh) hb.1.1 hb.1.2 hb.2 hu hv
      · simp at h
  | sendCommand c =>
    simp only [exec, execSendCommand] at h
    split at h
    · exact effect_of_reject h
    · rename_i b hh
      split at h
      · rename_i u hw
        injection h with h; subst h
        exact .sent c b u hh hw
      · rename_i u hw
        injection h with h; subst h
        exact .writeFaulted _ _ _ u hw
      · simp at h
  | setWriteProtection e =>
    simp only [exec, execSetWriteProtection] at h
    split at h
    · exact effect_of_reject h
    · rename_i b hh
      exact effect_of_setField hh (.inr (.inr ⟨rfl, rfl⟩)) h
  | setAutoRefreshCount n =>
    simp only [exec, execSetAutoRefreshCount] at h
    split at h
    · exact effect_of_reject h
    · rename_i b hh
      split at h
      · exact effect_of_reject h
      · exact effect_of_setField hh (.inl ⟨rfl, rfl⟩) h
  | setRefreshInterval n =>
    simp only [exec, execSetRefreshInterval] at h
    split at h
    · exact effect_of_reject h
    · rename_i b hh
      split at h
      · exact effect_of_reject h
      · exact effect_of_setField hh (.inr (.inl ⟨rfl, rfl⟩)) h
  | writeProtection =>
    simp only [exec, execWriteProtection] at h
    split at h
    · exact effect_of_reject h
    · rename_i b hh
      rcases actEnd_next h with ⟨x, u, hx, rfl⟩ | ⟨u, hx, rfl⟩
      · obtain ⟨w, v, hv, hd⟩ := actThen_done hx
        injection hd with h1 h2
        subst h1 h2
        exact .flagRead b w _ hh hv
      · rcases actThen_halt hx with hv | ⟨_, v, hv, hd⟩
        · exact .readFaulted _ _ u hv
        · simp at hd
  | bank =>
    simp only [exec, execBank] at h
    split at h
    · exact effect_of_reject h
    · injection h with h; subst h
      exact .told _ _ (by simp)
  | delay n =>
    simp only [exec, execDelay] at h
    injection h with h; subst h
    exact .delayed n
  | memoryView e n =>
    simp only [exec, execMemoryView] at h
    split at h
    · exact effect_of_reject h
    · split at h
      · exact effect_of_reject h
      · injection h with h; subst h
        exact .told _ _ (by simp)
  | cmdIdle ops => exact effect_of_rawWrite h
  | cmdClkEnable ops => exact effect_of_rawWrite h
  | cmdPall ops => exact effect_of_rawWrite h
  | cmdAutoRefresh ops => exact effect_of_rawWrite h
  | cmdLoadMode ops => exact effect_of_rawWrite h
  | cmdSelfRefresh ops => simp [exec, execCmdSelfRefresh] at h
  | cmdPowerDown ops => simp [exec, execCmdPowerDown] at h
  | cmdReserved7 ops => simp [exec, execCmdReserved7] at h

end Sys2Proof.Machine
end

