-- ==== Sys2Proof/Laws/PerInstr.lean ====
section
/-! SUPPORT. Statements about every instruction, one lemma per constructor. `OpcodeMatch`: what the encoder writes carries
the fixed bits of the instruction's row of spec/opcode_table.json (30_encoding R100, R110). -/

namespace Sys2Proof.Laws.OpcodeMatch

/-- The width of the row's format and the value of its fixed bits: the op byte of a HOSTOP, bits [2:0] of a CMDW. -/
def fixedBits : Packet → Nat × Nat
  | .hostOp [] => (8, 0)
  | .hostOp (op :: _) => (8, op.toNat)
  | .cmdWord w => (32, (cmdModeBits w).toNat)

/-- The row of each instruction, copied from spec/opcode_table.json: the format's width and `match`. -/
def tableRow : Instr → Nat × Nat
  | .bindPin _ _ => (8, 0x01)
  | .makeAddrBus _ _ => (8, 0x02)
  | .makeDataBus _ _ => (8, 0x03)
  | .makeBankAccess _ _ => (8, 0x04)
  | .makeByteEnable _ _ => (8, 0x05)
  | .makeCkecsBank1 _ _ => (8, 0x06)
  | .makeCkecsBank2 _ _ => (8, 0x07)
  | .makeSingle _ _ => (8, 0x08)
  | .preparePins _ => (8, 0x09)
  | .width _ => (8, 0x0A)
  | .bankOfPins _ => (8, 0x0B)
  | .makeConfig _ => (8, 0x10)
  | .configure _ _ _ _ _ _ _ _ => (8, 0x11)
  | .sendCommand _ => (8, 0x20)
  | .setWriteProtection _ => (8, 0x21)
  | .setAutoRefreshCount _ => (8, 0x22)
  | .setRefreshInterval _ => (8, 0x23)
  | .writeProtection => (8, 0x24)
  | .bank => (8, 0x25)
  | .delay _ => (8, 0x26)
  | .memoryView _ _ => (8, 0x30)
  | .cmdIdle _ => (32, 0x00)
  | .cmdClkEnable _ => (32, 0x01)
  | .cmdPall _ => (32, 0x02)
  | .cmdAutoRefresh _ => (32, 0x03)
  | .cmdLoadMode _ => (32, 0x04)
  | .cmdSelfRefresh _ => (32, 0x05)
  | .cmdPowerDown _ => (32, 0x06)
  | .cmdReserved7 _ => (32, 0x07)

/-- The encoder writes the fixed bits of the instruction's row. -/
def Statement (i : Instr) : Prop := fixedBits (encode i) = tableRow i

/-- The low three bits of an assembled command word are its `MODE` (30 R110). -/
theorem assembleCmd_low (mode : BitVec 3) (ops : CmdOperands) : (cmdModeBits (assembleCmd mode ops)).toNat = mode.toNat := by
  congr 1
  ext i hi
  simp only [cmdModeBits, assembleCmd]
  interval_cases i <;> simp

end Sys2Proof.Laws.OpcodeMatch

open Sys2Proof Sys2Proof.Laws.OpcodeMatch

theorem Sys2Proof.Laws.OpcodeMatch.bindPin (pin : PinId) (role : Role) :
    Statement (.bindPin pin role) := rfl

theorem Sys2Proof.Laws.OpcodeMatch.makeAddrBus (variant : AddrVariant) (pins : List PinId) :
    Statement (.makeAddrBus variant pins) := rfl

theorem Sys2Proof.Laws.OpcodeMatch.makeDataBus (variant : DataVariant) (pins : List PinId) :
    Statement (.makeDataBus variant pins) := rfl

theorem Sys2Proof.Laws.OpcodeMatch.makeBankAccess (variant : BankAccessVariant) (pins : List PinId) :
    Statement (.makeBankAccess variant pins) := rfl

theorem Sys2Proof.Laws.OpcodeMatch.makeByteEnable (variant : ByteEnableVariant) (pins : List PinId) :
    Statement (.makeByteEnable variant pins) := rfl

theorem Sys2Proof.Laws.OpcodeMatch.makeCkecsBank1 (cke : PinId) (cs : PinId) :
    Statement (.makeCkecsBank1 cke cs) := rfl

theorem Sys2Proof.Laws.OpcodeMatch.makeCkecsBank2 (cke : PinId) (cs : PinId) :
    Statement (.makeCkecsBank2 cke cs) := rfl

theorem Sys2Proof.Laws.OpcodeMatch.makeSingle (kind : SingleKind) (pin : PinId) :
    Statement (.makeSingle kind pin) := rfl

theorem Sys2Proof.Laws.OpcodeMatch.preparePins (bundle : Bundle) :
    Statement (.preparePins bundle) := rfl

theorem Sys2Proof.Laws.OpcodeMatch.width (bus : DataBus) :
    Statement (.width bus) := rfl

theorem Sys2Proof.Laws.OpcodeMatch.bankOfPins (sel : CkeCs) :
    Statement (.bankOfPins sel) := rfl

theorem Sys2Proof.Laws.OpcodeMatch.makeConfig (cfg : Configuration) :
    Statement (.makeConfig cfg) := rfl

theorem Sys2Proof.Laws.OpcodeMatch.configure (cfg : Configuration) (bankAccess : BankAccess) (byteEnable : ByteEnable) (clockPin : PinId) (rasPin : PinId) (casPin : PinId)
    (clockAndChipEnable : CkeCs) (writeEnablePin : PinId) :
    Statement (.configure cfg bankAccess byteEnable clockPin rasPin casPin clockAndChipEnable writeEnablePin) := rfl

theorem Sys2Proof.Laws.OpcodeMatch.sendCommand (cmd : Command) :
    Statement (.sendCommand cmd) := rfl

theorem Sys2Proof.Laws.OpcodeMatch.setWriteProtection (enable : Bool) :
    Statement (.setWriteProtection enable) := rfl

theorem Sys2Proof.Laws.OpcodeMatch.setAutoRefreshCount (n : Nat) :
    Statement (.setAutoRefreshCount n) := rfl

theorem Sys2Proof.Laws.OpcodeMatch.setRefreshInterval (count : Nat) :
    Statement (.setRefreshInterval count) := rfl

theorem Sys2Proof.Laws.OpcodeMatch.writeProtection :
    Statement .writeProtection := rfl

theorem Sys2Proof.Laws.OpcodeMatch.bank :
    Statement .bank := rfl

theorem Sys2Proof.Laws.OpcodeMatch.delay (ticks : Nat) :
    Statement (.delay ticks) := rfl

theorem Sys2Proof.Laws.OpcodeMatch.memoryView (elementSize : Nat) (byteLength : Nat) :
    Statement (.memoryView elementSize byteLength) := rfl

theorem Sys2Proof.Laws.OpcodeMatch.cmdIdle (ops : CmdOperands) :
    Statement (.cmdIdle ops) := congrArg (Prod.mk 32) (assembleCmd_low _ _)

theorem Sys2Proof.Laws.OpcodeMatch.cmdClkEnable (ops : CmdOperands) :
    Statement (.cmdClkEnable ops) := congrArg (Prod.mk 32) (assembleCmd_low _ _)

theorem Sys2Proof.Laws.OpcodeMatch.cmdPall (ops : CmdOperands) :
    Statement (.cmdPall ops) := congrArg (Prod.mk 32) (assembleCmd_low _ _)

theorem Sys2Proof.Laws.OpcodeMatch.cmdAutoRefresh (ops : CmdOperands) :
    Statement (.cmdAutoRefresh ops) := congrArg (Prod.mk 32) (assembleCmd_low _ _)

theorem Sys2Proof.Laws.OpcodeMatch.cmdLoadMode (ops : CmdOperands) :
    Statement (.cmdLoadMode ops) := congrArg (Prod.mk 32) (assembleCmd_low _ _)

theorem Sys2Proof.Laws.OpcodeMatch.cmdSelfRefresh (ops : CmdOperands) :
    Statement (.cmdSelfRefresh ops) := congrArg (Prod.mk 32) (assembleCmd_low _ _)

theorem Sys2Proof.Laws.OpcodeMatch.cmdPowerDown (ops : CmdOperands) :
    Statement (.cmdPowerDown ops) := congrArg (Prod.mk 32) (assembleCmd_low _ _)

theorem Sys2Proof.Laws.OpcodeMatch.cmdReserved7 (ops : CmdOperands) :
    Statement (.cmdReserved7 ops) := congrArg (Prod.mk 32) (assembleCmd_low _ _)
end

