-- ==== Sys2Proof/Laws/Relation.lean ====
section
/-! SUPPORT. The induction over what a step does, packaged once: a reflexive and transitive relation that every small
update keeps holds between the states before and after a step. -/

namespace Sys2Proof.Machine

/-- A relation kept by every small update a step is made of. -/
structure StepRel (R : State → State → Prop) : Prop where
  refl : ∀ s, R s s
  trans : ∀ {s t u}, R s t → R t u → R s u
  turn : ∀ s, R s (engineTurn s)
  event : ∀ e s, R s (emit e s)
  host : ∀ s r p q, R s { s with result := r, polling := p, queue := q }
  held : ∀ s bs cs, R s { s with bundles := bs, configs := cs }
  fault : ∀ s f, R s { s with faulted := some f }
  bind : ∀ p r s, p ∈ capOf s.platform r → (pinOf s p).binding = .unassigned →
    R s (setPin p { pinOf s p with binding := .bound r } s)
  mark : ∀ p s, R s (setPin p { pinOf s p with inBundle := true } s)
  prepare : ∀ p s, R s (setPin p { pinOf s p with slewHigh := true, pullupOff := true } s)
  gate : ∀ s, R s { s with clkGate := true }
  handle : ∀ b s, s.handle = none → R s { s with handle := some b }
  write : ∀ {r v s t}, RegWritten r v s t → R s t
  delay : ∀ b s, R s (observeDelay b s)
  draw : ∀ s, R s { s with draws := s.draws + 1 }
  memory : ∀ b m s, ((memOf s b).wf s.platform.bankSize = true → m.wf s.platform.bankSize = true) → R s (setMem b m s)

namespace StepRel

variable {R : State → State → Prop} (h : StepRel R)
include h

theorem result (s : State) (r : Option Result) : R s { s with result := r } := h.host s r s.polling s.queue

theorem returned (s : State) (bs : List Bundle) (cs : List Configuration) (r : Option Result) :
    R s { s with bundles := bs, configs := cs, result := r } :=
  h.trans (h.held s bs cs) (h.result { s with bundles := bs, configs := cs } r)

theorem drawn (s : State) (r : Option Result) : R s { s with result := r, draws := s.draws + 1 } :=
  h.trans (h.draw s) (h.result { s with draws := s.draws + 1 } r)

theorem afterEvent {s t : State} (e : Event) (hr : R s t) : R s (emit e t) := h.trans hr (h.event e t)

theorem regRead {r : Reg} {s t : State} {w : Word} (hd : regRead r s = .done w t) : R s t := by
  rw [regRead_eq] at hd
  split at hd
  · injection hd with _ ht
    subst ht
    exact h.afterEvent _ (h.turn s)
  · simp at hd

theorem regReadHalt {r : Reg} {s t : State} (hd : Machine.regRead r s = .halt t) : R s t := by
  rw [regRead_eq] at hd
  split at hd
  · simp at hd
  · injection hd with ht
    subst ht
    exact h.trans (h.turn s) (h.fault _ _)

theorem regWrite {r : Reg} {v : Word} {s t : State} (hd : regWrite r v s = .done () t) : R s t :=
  h.trans (h.afterEvent _ (h.turn s)) (h.write (regWrite_done hd).2)

theorem regWriteHalt {r : Reg} {v : Word} {s t : State} (hd : Machine.regWrite r v s = .halt t) : R s t := by
  rcases regWrite_halt hd with ⟨-, rfl⟩ | ⟨-, -, -, rfl⟩
  · exact h.trans (h.turn s) (h.fault _ _)
  · exact h.trans (h.afterEvent _ (h.turn s)) (h.fault _ _)

theorem setFields {r : Reg} {fs : List (Field × Nat)} {s t : State} (hd : setFields r fs s = .done () t) : R s t := by
  obtain ⟨-, u, rfl, hw⟩ := setFields_done hd
  exact h.trans (h.afterEvent _ (h.turn s)) (h.regWrite hw)

theorem setFieldsHalt {r : Reg} {fs : List (Field × Nat)} {s t : State} (hd : Machine.setFields r fs s = .halt t) :
    R s t := by
  rcases setFields_halt hd with ⟨-, rfl⟩ | ⟨v, u, rfl, hw⟩
  · exact h.trans (h.turn s) (h.fault _ _)
  · exact h.trans (h.afterEvent _ (h.turn s)) (h.regWriteHalt hw)

theorem markPins (ps : List PinId) (s : State) : R s (markPins ps s) := by
  induction ps generalizing s with
  | nil => exact h.refl s
  | cons p ps ih => exact h.trans (h.trans (h.turn s) (h.mark p _)) (ih _)

theorem preparePins (ps : List PinId) (s : State) : R s (ps.foldl preparePin s) := by
  induction ps generalizing s with
  | nil => exact h.refl s
  | cons p ps ih => exact h.trans (h.afterEvent _ (h.trans (h.turn s) (h.prepare p _))) (ih _)

theorem prepareBundles (bs : List Bundle) (s : State) : R s (bs.foldl prepareBundle s) := by
  induction bs generalizing s with
  | nil => exact h.refl s
  | cons b bs ih => exact h.trans (h.preparePins _ s) (ih _)

theorem programControl {b : Bank} {cfg : Configuration} {ba : BankAccess} {s t : State}
    (hd : programControl b cfg ba s = .done () t) : R s t := by
  cases b with
  | bank1 => exact h.setFields hd
  | bank2 =>
    obtain ⟨_, u, hu, ht⟩ := actThen_done hd
    exact h.trans (h.setFields hu) (h.setFields ht)

theorem programTiming {b : Bank} {tm : Timing} {s t : State} (hd : programTiming b tm s = .done () t) : R s t := by
  cases b with
  | bank1 => exact h.setFields hd
  | bank2 =>
    obtain ⟨_, u, hu, ht⟩ := actThen_done hd
    exact h.trans (h.setFields hu) (h.setFields ht)

end StepRel

theorem setFields_handle {r : Reg} {fs : List (Field × Nat)} {s t : State} (h : setFields r fs s = .done () t) :
    t.handle = s.handle := by
  obtain ⟨-, u, rfl, hw⟩ := setFields_done h
  obtain ⟨-, hw⟩ := regWrite_done hw
  cases hw <;> subst_vars <;> simp

theorem programControl_handle {b : Bank} {cfg : Configuration} {ba : BankAccess} {s t : State}
    (hd : programControl b cfg ba s = .done () t) : t.handle = s.handle := by
  cases b with
  | bank1 => exact setFields_handle hd
  | bank2 =>
    obtain ⟨_, u, hu, ht⟩ := actThen_done hd
    exact (setFields_handle ht).trans (setFields_handle hu)

theorem programTiming_handle {b : Bank} {tm : Timing} {s t : State} (hd : programTiming b tm s = .done () t) :
    t.handle = s.handle := by
  cases b with
  | bank1 => exact setFields_handle hd
  | bank2 =>
    obtain ⟨_, u, hu, ht⟩ := actThen_done hd
    exact (setFields_handle ht).trans (setFields_handle hu)

/-- A relation kept by every small update holds over every instruction. -/
theorem StepRel.effect {R : State → State → Prop} (h : StepRel R) {i : Instr} {s t : State} (he : Effect s i t) :
    R s t := by
  cases he with
  | rejected i code => exact h.trans (h.event _ s) (h.result _ _)
  | told i r hr => exact h.result s _
  | bound p r hc hu =>
    refine h.trans (h.trans (h.turn s) (h.bind p r (engineTurn s) ?_ ?_)) (h.result _ _)
    · simpa using hc
    · simpa using hu
  | taken i b hi ht => exact h.trans (h.markPins _ s) (h.returned _ _ _ _)
  | prepared b hb => exact h.trans (h.preparePins _ s) (h.result _ _)
  | configMade c hc ha hd => exact h.returned s s.bundles _ _
  | configured cfg ba nbl clk ras cas sel we u v hh hc he hb hu hv =>
    have hv' : v.handle = none := by
      rw [programTiming_handle hv, programControl_handle hu]
      simpa using hh
    refine h.trans (h.trans (h.trans ?_ (h.programControl hu)) (h.programTiming hv))
      (h.trans (h.handle sel.bank v hv') (h.returned { v with handle := some sel.bank } _ _ _))
    exact h.trans (h.afterEvent _ (h.gate s)) (h.prepareBundles _ _)
  | sent c b u hh hw => exact h.trans (h.regWrite hw) (h.host _ _ _ _)
  | fieldSet i r f n b u hh hf hw => exact h.trans (h.setFields hw) (h.result _ _)
  | flagRead b w u hh hw => exact h.trans (h.regRead hw) (h.result _ _)
  | delayed n =>
    refine h.trans ?_ (h.result _ _)
    have hd := h.afterEvent (.delayed n) (h.turn s)
    split
    · exact h.trans hd (h.trans (h.delay _ _) (h.delay _ _))
    · exact hd
  | rawWritten i w u hw => exact h.trans (h.regWrite hw) (h.result _ _)
  | readFaulted i r u hr => exact h.trans (h.regReadHalt hr) (h.result _ _)
  | writeFaulted i r w u hw => exact h.trans (h.regWriteHalt hw) (h.result _ _)
  | fieldFaulted i r f n u hw => exact h.trans (h.setFieldsHalt hw) (h.result _ _)

theorem StepRel.memRead {R : State → State → Prop} (h : StepRel R) (b : Bank) (o a n : Nat)
    (s : State) : R s (memRead b o a n s) := by
  unfold Machine.memRead
  simp only
  split
  · exact h.trans (h.afterEvent _ (h.turn s)) (h.result _ _)
  · exact h.trans (h.afterEvent _ (h.turn s)) (h.drawn _ _)

theorem StepRel.memWrite {R : State → State → Prop} (h : StepRel R) (b : Bank) (o a n v : Nat)
    (s : State) (ho : o + n ≤ s.platform.bankSize) : R s (memWrite b o a n v s) := by
  unfold Machine.memWrite
  have hs := h.trans (h.afterEvent (.memWriteEv a n (littleEndianBytes n v)) (h.turn s)) (h.result _ (some .unit))
  simp only
  split
  · split
    · refine h.trans hs (h.memory _ _ _ fun hm => ?_)
      exact memory_wf_writeCells _ _ hm (by simpa using ho)
    · exact hs
  · refine h.trans hs (h.trans (h.memory b { draw := s.draws, cells := [] } _ fun _ => memory_wf_drawn _ _) ?_)
    simpa using h.draw (setMem b { draw := s.draws, cells := [] } _)

/-- A relation kept by every small update holds over every step. -/
theorem StepRel.step {R : State → State → Prop} (h : StepRel R) {s t : State} (hs : step s = .next t) : R s t := by
  obtain ⟨-, -, ⟨-, hp⟩ | ⟨-, -, rfl⟩ | ⟨r, rest, -, -, hr⟩⟩ := step_next hs
  · unfold pollOnce at hp
    split at hp
    · rename_i w u hu
      split at hp
      · injection hp with hp; subst hp
        exact h.regRead hu
      · injection hp with hp; subst hp
        exact h.trans (h.regRead hu) (h.host _ _ _ _)
    · rename_i u hu
      injection hp with hp; subst hp
      exact h.trans (h.regReadHalt hu) (h.host _ _ _ _)
    · simp at hp
  · exact h.turn s
  · refine h.trans (h.host s s.result s.polling rest) ?_
    rcases serve_next hr with ⟨p, i, rfl, -, hx⟩ | ⟨a, n, b, o, -, hw, rfl⟩ | ⟨a, n, v, b, o, -, hw, rfl⟩ |
      ⟨a, q, rfl, hx⟩ | ⟨a, v, q, rfl, hx⟩
    · exact h.effect (exec_next hx)
    · exact h.memRead ..
    · exact h.memWrite _ _ _ _ _ _ (windowOf_some hw).2.2
    · rcases actEnd_next hx with ⟨x, u, hd, rfl⟩ | ⟨u, hd, rfl⟩
      · obtain ⟨w, y, hy, hd⟩ := actThen_done hd
        injection hd with h1 h2
        subst h1 h2
        exact h.trans (h.regRead hy) (h.result _ _)
      · rcases actThen_halt hd with hy | ⟨_, y, _, hd⟩
        · exact h.trans (h.regReadHalt hy) (h.result _ _)
        · simp at hd
    · rcases actEnd_next hx with ⟨x, u, hd, rfl⟩ | ⟨u, hd, rfl⟩
      · obtain ⟨w, y, hy, hd⟩ := actThen_done hd
        injection hd with h1 h2
        subst h1 h2
        exact h.trans (h.regWrite hy) (h.result _ _)
      · rcases actThen_halt hd with hy | ⟨_, y, _, hd⟩
        · exact h.trans (h.regWriteHalt hy) (h.result _ _)
        · simp at hd

end Sys2Proof.Machine
end

