-- ==== Sys2Proof/Machine/Text.lean ====
section
/-! DEFINITION. The textual syntax of the host operations (30_encoding R120): one operation a line, given the names the
host uses for its bundle and Configuration values. The raw command words have no textual form in the spec. -/

namespace Sys2Proof.Machine

/-- The name of a pin: `P`, the port's letter, the line (log 3). -/
def pinName (p : PinId) : String :=
  "P" ++ String.singleton (Char.ofNat (65 + p.val / 16)) ++ toString (p.val % 16)

/-- The name of a role (30 R122). -/
def roleName : Role → String
  | .a i => "A" ++ toString i.val
  | .d i => "D" ++ toString i.val
  | .nbl i => "NBL" ++ toString i.val
  | .ba i => "BA" ++ toString i.val
  | .sdcke .bank1 => "SDCKE0"
  | .sdcke .bank2 => "SDCKE1"
  | .sdne .bank1 => "SDNE0"
  | .sdne .bank2 => "SDNE1"
  | .sdnwe => "SDNWE"
  | .sdclk => "SDCLK"
  | .sdnras => "SDNRAS"
  | .sdncas => "SDNCAS"

def pinListText (ps : List PinId) : String := "[" ++ ",".intercalate (ps.map pinName) ++ "]"

def bitText (b : Bool) : String := if b then "1" else "0"

def modeText : CmdMode → String
  | .clockEnable => "clk_enable"
  | .prechargeAll => "pall"
  | .autoRefresh => "auto_refresh"
  | .loadModeRegister => "load_mode"

/-- `target=`: `ctb1` is Bank1, `ctb2` is Bank2 (30 R120). -/
def targetText (ctb1 ctb2 : Bool) : String :=
  match ctb1, ctb2 with
  | false, false => "none"
  | true, false => "b1"
  | false, true => "b2"
  | true, true => "both"

def kindText : SingleKind → String
  | .clock => "clock"
  | .ras => "ras"
  | .cas => "cas"
  | .we => "we"

/-- One operation as a line of text (30 R120). -/
def operationText (bundleName : Bundle → String) (configName : Configuration → String) : Instr → Option String
  | .bindPin p r => some ("bind_pin pin=" ++ pinName p ++ " role=" ++ roleName r)
  | .makeAddrBus v ps => some ("make_addr_bus variant=a" ++ toString v.lines ++ " pins=" ++ pinListText ps ++ " -> " ++
      bundleName (.addr ⟨v, ps⟩))
  | .makeDataBus v ps => some ("make_data_bus variant=d" ++ toString v.lines ++ " pins=" ++ pinListText ps ++ " -> " ++
      bundleName (.data ⟨v, ps⟩))
  | .makeBankAccess v ps => some ("make_bank_access variant=ba" ++ toString v.lines ++ " pins=" ++ pinListText ps ++
      " -> " ++ bundleName (.bankAccess ⟨v, ps⟩))
  | .makeByteEnable v ps => some ("make_byte_enable variant=nbl" ++ toString v.lines ++ " pins=" ++ pinListText ps ++
      " -> " ++ bundleName (.byteEnable ⟨v, ps⟩))
  | .makeCkecsBank1 cke cs => some ("make_ckecs_bank1 cke=" ++ pinName cke ++ " cs=" ++ pinName cs ++ " -> " ++
      bundleName (.ckeCs ⟨.bank1, cke, cs⟩))
  | .makeCkecsBank2 cke cs => some ("make_ckecs_bank2 cke=" ++ pinName cke ++ " cs=" ++ pinName cs ++ " -> " ++
      bundleName (.ckeCs ⟨.bank2, cke, cs⟩))
  | .makeSingle k p => some ("make_single kind=" ++ kindText k ++ " pin=" ++ pinName p ++ " -> " ++
      bundleName (.single k p))
  | .preparePins b => some ("prepare_pins bundle=" ++ bundleName b)
  | .width b => some ("width bus=" ++ bundleName (.data b))
  | .bankOfPins b => some ("bank_of_pins sel=" ++ bundleName (.ckeCs b))
  | .makeConfig c => some ("make_config addr=" ++ bundleName (.addr c.addrBus) ++ " data=" ++
      bundleName (.data c.dataBus) ++ " col=" ++ toString c.columnBits ++ " row=" ++ toString c.rowBits ++ " div=" ++
      toString c.clockDivisor ++ " rpipe=" ++ toString c.pipelineDelay ++ " wp=" ++ bitText c.writeProtection ++
      " rburst=" ++ bitText c.burstRead ++ " cas=" ++ toString c.timing.cas ++ " t_mrd=" ++ toString c.timing.tMrd ++
      " t_xsr=" ++ toString c.timing.tXsr ++ " t_ras=" ++ toString c.timing.tRas ++ " t_rc=" ++
      toString c.timing.tRc ++ " t_wr=" ++ toString c.timing.tWr ++ " t_rp=" ++ toString c.timing.tRp ++ " t_rcd=" ++
      toString c.timing.tRcd ++ " -> " ++ configName c)
  | .configure c ba nbl clk ras cas sel we => some ("configure cfg=" ++ configName c ++ " ba=" ++
      bundleName (.bankAccess ba) ++ " nbl=" ++ bundleName (.byteEnable nbl) ++ " clk=" ++
      bundleName (.single .clock clk) ++ " ras=" ++ bundleName (.single .ras ras) ++ " cas=" ++
      bundleName (.single .cas cas) ++ " ckecs=" ++ bundleName (.ckeCs sel) ++ " we=" ++ bundleName (.single .we we))
  | .sendCommand c => some ("send_command mode=" ++ modeText c.mode ++ " target=" ++ targetText c.ctb1 c.ctb2 ++
      " nrfs=" ++ toString c.nrfs.toNat ++ " mrd=" ++ toString c.mrd.toNat)
  | .setWriteProtection e => some ("set_write_protection enable=" ++ bitText e)
  | .setAutoRefreshCount n => some ("set_auto_refresh_count n=" ++ toString n)
  | .setRefreshInterval n => some ("set_refresh_interval count=" ++ toString n)
  | .writeProtection => some "write_protection"
  | .bank => some "bank"
  | .delay n => some ("delay ticks=" ++ toString n)
  | .memoryView e n => some ("memory_view elem=" ++ toString e ++ " bytes=" ++ toString n)
  | .cmdIdle _ => none
  | .cmdClkEnable _ => none
  | .cmdPall _ => none
  | .cmdAutoRefresh _ => none
  | .cmdLoadMode _ => none
  | .cmdSelfRefresh _ => none
  | .cmdPowerDown _ => none
  | .cmdReserved7 _ => none

end Sys2Proof.Machine
end

