-- ==== Sys2Proof/Tests/Slice0.lean ====
section
/-! SUPPORT. The package's own tests: the smoke test of WellFormed, the decoding of a written-out word for every
constructor, small vectors of spec/95_test_vectors.md, and for every obligation with hypotheses a witness that meets
them. Expected values come from the spec; each test names its vector or rule. -/

namespace Sys2Proof.Tests

open Sys2Proof Sys2Proof.Machine

/-! ### Helpers -/

/-- One field of the state an operation leaves. -/
def after {α : Type} (f : State → α) (o : Host.Outcome State Fault Refusal) : Option α :=
  match o with
  | .next t => some (f t)
  | _ => none

/-- Why an operation was refused. -/
def refusal (o : Host.Outcome State Fault Refusal) : Option Refusal :=
  match o with
  | .refused r => some r
  | _ => none

/-- Pin records other than those of reset. -/
def pinsWith (l : List (PinId × PinState)) : Vector PinState 256 :=
  l.foldl (fun v x => v.set x.1.val x.2) (Vector.replicate 256 {})

def boundTo (r : Role) : PinState := { binding := .bound r }

def takenAs (r : Role) : PinState := { binding := .bound r, inBundle := true }

/-! Pins of the default capability table (93 G12). -/
def pc0 : PinId := 0x20
def pc1 : PinId := 0x21
def pc2 : PinId := 0x22
def pc3 : PinId := 0x23
def pb5 : PinId := 0x15
def pb6 : PinId := 0x16
def ph5 : PinId := 0x75
def pg4 : PinId := 0x64
def pg5 : PinId := 0x65
def pg8 : PinId := 0x68
def pf11 : PinId := 0x5B
def pg15 : PinId := 0x6F

/-- A state with some pins bound and free. -/
def bound (l : List (PinId × Role)) : State := { State.reset with pins := pinsWith (l.map fun x => (x.1, boundTo x.2)) }

/-- A Handle for Bank2 with the registers of program P1 (95 part 3). -/
def handle2 : State :=
  { State.reset with clkGate := true, handle := some .bank2, sdcr1 := 0x00002AD0, sdcr2 := 0x000001D4,
                     sdtr1 := 0x0F1F6FFF, sdtr2 := 0x01F2F361 }

/-- A Handle for Bank1 with the registers of program P2. -/
def handle1 : State :=
  { State.reset with clkGate := true, handle := some .bank1, sdcr1 := 0x00001F69, sdtr1 := 0x032197F0 }

/-- Bank2 ready. -/
def ready2 : State := { handle2 with phase2 := .modeLoaded, delayOk2 := true, refreshProgrammed := true }

/-- Bank1 ready and write-protected. -/
def ready1 : State := { handle1 with phase1 := .modeLoaded, delayOk1 := true, refreshProgrammed := true }

/-- A command in flight, the host polling, `n` polls of busy duration left. -/
def inFlight (n : Option Nat) : State :=
  { handle2 with inflight := some ⟨.prechargeAll, false, true, 0, 0⟩, sdsr := busyWord, busyLeft := n, polling := true }

/-- One request to be served. -/
def asking (r : Request) (s : State) : State := { s with queue := [r] }

/-- The base operands of `MAKE_CONFIG` in 95 section 2.2, with an 11-line address bus and an 8-line data bus. -/
def addr11 : AddrBus := ⟨.a11, [0x50, 0x51, 0x52, 0x53, 0x54, 0x55, 0x5C, 0x5D, 0x5E, 0x5F, 0x60]⟩
def data8 : DataBus := ⟨.d8, [0x3E, 0x3F, 0x30, 0x31, 0x47, 0x48, 0x49, 0x4A]⟩
def time0 : Timing := { cas := 3, tMrd := 2, tXsr := 7, tRas := 4, tRc := 7, tWr := 3, tRp := 2, tRcd := 2 }
def cfg0 : Configuration :=
  { addrBus := addr11, dataBus := data8, columnBits := 8, rowBits := 12, clockDivisor := 2, pipelineDelay := 1,
    writeProtection := false, burstRead := false, timing := time0 }

/-- A `CONFIGURE` with this clock-enable and chip-select pair. -/
def configureWith (sel : CkeCs) : Instr :=
  .configure cfg0 ⟨.ba2, [pg4, pg5]⟩ ⟨.nbl1, [0x40]⟩ pg8 pf11 pg15 sel pc0

/-- A host that holds the Configuration and the nine bundles of `configureWith sel`. -/
def holding (sel : CkeCs) : State :=
  { State.reset with configs := [cfg0],
                     bundles := configureBundles cfg0 ⟨.ba2, [pg4, pg5]⟩ ⟨.nbl1, [0x40]⟩ pg8 pf11 pg15 sel pc0 }

/-- A field read after an operation shows that the operation answered a next state. -/
theorem next_of_after {α : Type} {f : State → α} {o : Host.Outcome State Fault Refusal} {x : α}
    (h : after f o = some x) : ∃ t, o = .next t ∧ f t = x := by
  cases o with
  | next t => exact ⟨t, rfl, by simpa [after] using h⟩
  | fault f => simp [after] at h
  | refused r => simp [after] at h

/-! ### WellFormed refuses one ill-formed term for each check -/

theorem test_wf_addr : (Instr.preparePins (.addr ⟨.a11, [0x50]⟩)).wellFormed = false := by decide
theorem test_wf_data : (Instr.width ⟨.d8, []⟩).wellFormed = false := by decide
theorem test_wf_bank_access : (Instr.preparePins (.bankAccess ⟨.ba2, [0x64]⟩)).wellFormed = false := by decide
theorem test_wf_byte_enable : (Instr.preparePins (.byteEnable ⟨.nbl1, [0x40, 0x41]⟩)).wellFormed = false := by decide
theorem test_wf_config_addr :
    (Instr.makeConfig { cfg0 with addrBus := ⟨.a12, addr11.pins⟩ }).wellFormed = false := by decide
theorem test_wf_config_data :
    (Instr.makeConfig { cfg0 with dataBus := ⟨.d16, data8.pins⟩ }).wellFormed = false := by decide
theorem test_wf_configure :
    (Instr.configure cfg0 ⟨.ba2, [pg4]⟩ ⟨.nbl1, [0x40]⟩ pg8 pf11 pg15 ⟨.bank1, pc3, pc2⟩ pc0).wellFormed = false := by
  decide
theorem test_wf_accepts :
    (Instr.configure cfg0 ⟨.ba2, [pg4, pg5]⟩ ⟨.nbl1, [0x40]⟩ pg8 pf11 pg15 ⟨.bank1, pc3, pc2⟩ pc0).wellFormed = true := by
  decide

/-! ### Decoding of written-out words: every constructor (30 R100, R110; the byte form of operands is log 2) -/

theorem test_decode_bind_pin : decode (.hostOp [0x01, 0x20, 55]) = .ok (.bindPin pc0 .sdnwe) := by decide
theorem test_decode_make_addr_bus :
    decode (.hostOp [0x02, 0, 2, 0x50, 0x51]) = .ok (.makeAddrBus .a11 [0x50, 0x51]) := by decide
theorem test_decode_make_data_bus : decode (.hostOp [0x03, 2, 1, 0x3E]) = .ok (.makeDataBus .d32 [0x3E]) := by decide
theorem test_decode_make_bank_access :
    decode (.hostOp [0x04, 1, 2, 0x64, 0x65]) = .ok (.makeBankAccess .ba2 [pg4, pg5]) := by decide
theorem test_decode_make_byte_enable : decode (.hostOp [0x05, 1, 0]) = .ok (.makeByteEnable .nbl2 []) := by decide
theorem test_decode_make_ckecs_bank1 :
    decode (.hostOp [0x06, 0x23, 0x22]) = .ok (.makeCkecsBank1 pc3 pc2) := by decide
theorem test_decode_make_ckecs_bank2 :
    decode (.hostOp [0x07, 0x15, 0x16]) = .ok (.makeCkecsBank2 pb5 pb6) := by decide
theorem test_decode_make_single : decode (.hostOp [0x08, 3, 0x20]) = .ok (.makeSingle .we pc0) := by decide
theorem test_decode_prepare_pins :
    decode (.hostOp [0x09, 4, 1, 0x15, 0x16]) = .ok (.preparePins (.ckeCs ⟨.bank2, pb5, pb6⟩)) := by decide
theorem test_decode_width :
    decode (.hostOp [0x0A, 0, 0x3E, 0x3F, 0x30, 0x31, 0x47, 0x48, 0x49, 0x4A]) = .ok (.width data8) := by decide
theorem test_decode_bank_of_pins :
    decode (.hostOp [0x0B, 0, 0x23, 0x22]) = .ok (.bankOfPins ⟨.bank1, pc3, pc2⟩) := by decide
theorem test_decode_make_config :
    decode (.hostOp ([0x10, 0, 0x50, 0x51, 0x52, 0x53, 0x54, 0x55, 0x5C, 0x5D, 0x5E, 0x5F, 0x60] ++
      [0, 0x3E, 0x3F, 0x30, 0x31, 0x47, 0x48, 0x49, 0x4A] ++ [8, 12, 2, 1, 0, 0] ++ [3, 2, 7, 4, 7, 3, 2, 2])) =
      .ok (.makeConfig cfg0) := by decide
theorem test_decode_configure :
    decode (.hostOp ([0x11, 0, 0x50, 0x51, 0x52, 0x53, 0x54, 0x55, 0x5C, 0x5D, 0x5E, 0x5F, 0x60] ++
      [0, 0x3E, 0x3F, 0x30, 0x31, 0x47, 0x48, 0x49, 0x4A] ++ [8, 12, 2, 1, 0, 0] ++ [3, 2, 7, 4, 7, 3, 2, 2] ++
      [1, 0x64, 0x65] ++ [0, 0x40] ++ [0x68, 0x5B, 0x6F] ++ [0, 0x23, 0x22] ++ [0x20])) =
      .ok (.configure cfg0 ⟨.ba2, [pg4, pg5]⟩ ⟨.nbl1, [0x40]⟩ pg8 pf11 pg15 ⟨.bank1, pc3, pc2⟩ pc0) := by decide
theorem test_decode_send_command :
    decode (.hostOp [0x20, 3, 0, 1, 4, 0x30, 0x02]) = .ok (.sendCommand ⟨.loadModeRegister, false, true, 4, 0x0230⟩) := by
  decide
theorem test_decode_set_write_protection : decode (.hostOp [0x21, 1]) = .ok (.setWriteProtection true) := by decide
theorem test_decode_set_auto_refresh_count : decode (.hostOp [0x22, 8]) = .ok (.setAutoRefreshCount 8) := by decide
theorem test_decode_set_refresh_interval :
    decode (.hostOp [0x23, 0xEA, 10]) = .ok (.setRefreshInterval 1386) := by decide
theorem test_decode_write_protection : decodeTableWord 8 0x24 = some .writeProtection := by decide
theorem test_decode_bank : decodeTableWord 8 0x25 = some .bank := by decide
theorem test_decode_delay : decode (.hostOp [0x26, 100]) = .ok (.delay 100) := by decide
theorem test_decode_memory_view : decode (.hostOp [0x30, 8, 0x40]) = .ok (.memoryView 8 64) := by decide
theorem test_decode_cmd_idle : decodeTableWord 32 0x00046100 = some (.cmdIdle ⟨false, false, 8, 0x0230, 0⟩) := by decide
theorem test_decode_cmd_clk_enable :
    decodeTableWord 32 0x00000009 = some (.cmdClkEnable ⟨true, false, 0, 0, 0⟩) := by decide
theorem test_decode_cmd_pall : decodeTableWord 32 0x00000012 = some (.cmdPall ⟨false, true, 0, 0, 0⟩) := by decide
theorem test_decode_cmd_auto_refresh :
    decodeTableWord 32 0x0000008B = some (.cmdAutoRefresh ⟨true, false, 4, 0, 0⟩) := by decide
theorem test_decode_cmd_load_mode :
    decodeTableWord 32 0x0004600C = some (.cmdLoadMode ⟨true, false, 0, 0x0230, 0⟩) := by decide
theorem test_decode_cmd_self_refresh :
    decodeTableWord 32 0x00000005 = some (.cmdSelfRefresh ⟨false, false, 0, 0, 0⟩) := by decide
theorem test_decode_cmd_power_down :
    decodeTableWord 32 0x00000006 = some (.cmdPowerDown ⟨false, false, 0, 0, 0⟩) := by decide
theorem test_decode_cmd_reserved7 :
    decodeTableWord 32 0xFFFFFFFF = some (.cmdReserved7 ⟨true, true, 15, 0xFFFF, 0x7F⟩) := by decide
theorem test_decode_unlisted : decode (.hostOp [0x0C]) = .error (.noOperation 0x0C) := by rfl
theorem test_decode_truncated : decode (.hostOp [0x01, 0x20]) = .error .truncated := by rfl
theorem test_decode_bad_operand : decode (.hostOp [0x01, 0x20, 59]) = .error .badOperand := by rfl
theorem test_decode_trailing : decode (.hostOp [0x24, 0, 1]) = .error .trailing := by rfl

/-! ### Command words (95 section 2.3, and T-CS-64) -/

/-- T-CS-4. -/
theorem test_encode_load_mode : encodeCmd ⟨.loadModeRegister, false, true, 0, 0x0230⟩ = 0x0004600C := by decide
/-- T-CS-10. -/
theorem test_encode_largest : encodeCmd ⟨.loadModeRegister, true, true, 15, 0xFFFF⟩ = 0x01FFFFFC := by decide
/-- T-CS-64. -/
theorem test_init_sequence :
    (initSequence false true 4 0x0230 1386 1).map (fun i =>
      match i with
      | .sendCommand c => (encodeCmd c).toNat
      | .delay n => n
      | .setRefreshInterval n => 2 * n
      | _ => 0) = [0x00046089, 1, 0x0004608A, 0x0004608B, 0x0004608C, 0x00000AD4] := by decide
/-- 30 R120. -/
theorem test_text : operationText (fun _ => "x") (fun _ => "c") (.sendCommand ⟨.autoRefresh, false, true, 4, 0⟩) =
    some "send_command mode=auto_refresh target=b2 nrfs=4 mrd=0" := by rfl

/-! ### One operation on a small state (95 sections 2.1 to 2.8) -/

/-- T-PIN-1. -/
theorem test_bind_pin : after (fun t => (pinOf t pc0).binding) (exec (.bindPin pc0 .sdnwe) State.reset) =
    some (.bound .sdnwe) := by decide
/-- T-PIN-2. -/
theorem test_bind_pin_e1 : after (·.events) (exec (.bindPin pc1 .sdnwe) State.reset) = some [.rejected 1] := by decide
/-- T-PIN-7: 11 pins for a 12-line bus. -/
theorem test_make_addr_bus_e3 :
    after (·.events) (exec (.makeAddrBus .a12 addr11.pins) (bound (addr11.pins.zip (addrRoles .a11)))) =
      some [.rejected 3] := by decide
theorem test_make_addr_bus :
    after (·.result) (exec (.makeAddrBus .a11 addr11.pins) (bound (addr11.pins.zip (addrRoles .a11)))) =
      some (some (.bundle (.addr addr11))) := by decide
/-- T-PIN-9: the last pin is not bound. -/
theorem test_make_data_bus_e3 :
    after (·.events) (exec (.makeDataBus .d8 data8.pins) (bound ((data8.pins.zip (dataRoles .d8)).take 7))) =
      some [.rejected 3] := by decide
/-- T-PIN-11: one pin at two positions. -/
theorem test_make_bank_access_e3 :
    after (·.events) (exec (.makeBankAccess .ba2 [pg4, pg4]) (bound [(pg4, .ba 0)])) = some [.rejected 3] := by decide
/-- T-PIN-10: `PG4` is in a bundle already; `PG5` is not marked. -/
theorem test_make_bank_access_e2 :
    after (fun t => (t.events, (pinOf t pg5).inBundle)) (exec (.makeBankAccess .ba2 [pg4, pg5])
      { State.reset with pins := pinsWith [(pg4, takenAs (.ba 0)), (pg5, boundTo (.ba 1))] }) =
      some ([.rejected 2], false) := by decide
theorem test_make_byte_enable :
    after (fun t => (pinOf t 0x41).inBundle) (exec (.makeByteEnable .nbl2 [0x40, 0x41])
      (bound [(0x40, .nbl 0), (0x41, .nbl 1)])) = some true := by decide
/-- T-PIN-12. -/
theorem test_make_ckecs_bank1_e4 :
    after (·.events) (exec (.makeCkecsBank1 pb5 pc2) (bound [(pb5, .sdcke .bank2), (pc2, .sdne .bank1)])) =
      some [.rejected 4] := by decide
/-- T-PIN-15: swapped, no E4. -/
theorem test_make_ckecs_bank1_e3 :
    after (·.events) (exec (.makeCkecsBank1 pc2 pc3) (bound [(pc3, .sdcke .bank1), (pc2, .sdne .bank1)])) =
      some [.rejected 3] := by decide
/-- T-PIN-13. -/
theorem test_make_ckecs_bank2_e4 :
    after (·.events) (exec (.makeCkecsBank2 pb5 pc2) (bound [(pb5, .sdcke .bank2), (pc2, .sdne .bank1)])) =
      some [.rejected 4] := by decide
theorem test_make_ckecs_bank2 :
    after (·.result) (exec (.makeCkecsBank2 pb5 pb6) (bound [(pb5, .sdcke .bank2), (pb6, .sdne .bank2)])) =
      some (some (.bundle (.ckeCs ⟨.bank2, pb5, pb6⟩))) := by decide
/-- T-PIN-21: the role check precedes the in-bundle check. -/
theorem test_make_single_e3 :
    after (·.events) (exec (.makeSingle .ras pg8) { State.reset with pins := pinsWith [(pg8, takenAs .sdclk)] }) =
      some [.rejected 3] := by decide
/-- T-PIN-18. -/
theorem test_prepare_pins :
    after (·.events) (exec (.preparePins (.bankAccess ⟨.ba2, [pg4, pg5]⟩))
      { State.reset with bundles := [.bankAccess ⟨.ba2, [pg4, pg5]⟩] }) =
      some [.pinPrepared pg4, .pinPrepared pg5] := by decide
/-- T-PIN-16. -/
theorem test_width : after (·.result) (exec (.width data8) { State.reset with bundles := [.data data8] }) =
    some (some (.code 0)) := by decide
/-- T-PIN-17. -/
theorem test_bank_of_pins :
    after (·.result) (exec (.bankOfPins ⟨.bank2, pb5, pb6⟩)
      { State.reset with bundles := [.ckeCs ⟨.bank2, pb5, pb6⟩] }) = some (some (.bank .bank2)) := by decide
/-- T-RP-15: a zero member is reported before a large one. -/
theorem test_make_config_e5 :
    configError { cfg0 with timing := { time0 with tMrd := 17, tRcd := 0 } } = some .timingZero := by decide
/-- T-RP-18. -/
theorem test_make_config_e6 :
    configError { cfg0 with timing := { time0 with cas := 0 } } = some .fieldOutOfRange := by decide
/-- T-RP-2, with the codes of a 16-line bus written out. -/
theorem test_route_control_bank2 :
    (insertFields 0x000002D0 (sharedControlFields cfg0), insertFields 0x000002D0 [(fNC, 0), (fNR, 1), (fMWID, 1),
      (fNB, 1), (fCAS, 3), (fWP, 0)]) = (0x00002AD0, 0x000001D4) := by decide
/-- T-RP-7. -/
theorem test_route_timing_bank2 :
    (insertFields 0x0FFFFFFF (sharedTimingFields time0), insertFields 0x0FFFFFFF (bankTimingFields time0)) =
      (0x0F1F6FFF, 0x01F2F361) := by decide
/-- `CONFIGURE` of Bank1: T-RP-1 with an 8-line bus (`MWID` 0), and T-RP-6. -/
theorem test_configure_bank1 :
    after (fun t => (t.sdcr1, t.sdtr1, t.handle)) (exec (configureWith ⟨.bank1, pc3, pc2⟩) (holding ⟨.bank1, pc3, pc2⟩)) =
      some (0x000029C4, 0x01126361, some .bank1) := by decide
/-- `CONFIGURE` of Bank2: T-RP-2 with an 8-line bus (`MWID` 0), and T-RP-7. -/
theorem test_configure_bank2 :
    after (fun t => (t.sdcr1, t.sdcr2, t.sdtr1, t.sdtr2)) (exec (configureWith ⟨.bank2, pb5, pb6⟩)
      (holding ⟨.bank2, pb5, pb6⟩)) = some (0x00002AD0, 0x000001C4, 0x0F1F6FFF, 0x01F2F361) := by decide
/-- T-CS-2: the word and the event of the command. -/
theorem test_send_command :
    after (·.events) (exec (.sendCommand ⟨.prechargeAll, false, true, 0, 0⟩) handle2) =
      some [.regWritten .sdcmr 0x0000000A, .cmdIssued ⟨.prechargeAll, false, true, 0, 0⟩] := by decide
/-- T-CS-20: one poll. -/
theorem test_poll_last : after (fun t => (t.events, t.polling)) (pollOnce (inFlight (some 0))) =
    some ([.cmdDone, .regReadEv .sdsr 0], false) := by decide
/-- T-CS-50. -/
theorem test_set_write_protection :
    after (fun t => (t.sdcr2, t.sdcr1)) (exec (.setWriteProtection true) handle2) = some (0x000003D4, 0x00002AD0) := by
  decide
/-- T-CS-53. -/
theorem test_set_write_protection_bank1 :
    after (·.sdcr1) (exec (.setWriteProtection false) handle1) = some 0x00001D69 := by decide
/-- T-CS-54. -/
theorem test_set_auto_refresh_count :
    after (fun t => (t.sdcmr, t.events)) (exec (.setAutoRefreshCount 8) { handle2 with sdcmr := 0x00046000 }) =
      some (0x00046100, [.regReadEv .sdcmr 0x00046000, .regWritten .sdcmr 0x00046100]) := by decide
/-- T-CS-58. -/
theorem test_set_refresh_interval :
    after (fun t => (t.sdrtr, t.refreshProgrammed)) (exec (.setRefreshInterval 8191) handle2) =
      some (0x00003FFE, true) := by decide
/-- T-CS-60. -/
theorem test_set_refresh_interval_e6 :
    after (·.events) (exec (.setRefreshInterval 8192) handle2) = some [.rejected 6] := by decide
/-- T-CS-51. -/
theorem test_write_protection :
    after (·.result) (exec .writeProtection { handle2 with sdcr2 := 0x000003D4 }) = some (some (.flag true)) := by decide
/-- T-CS-62. -/
theorem test_bank : after (fun t => (t.result, t.events)) (exec .bank handle2) = some (some (.bank .bank2), []) := by
  decide
/-- T-CS-32. -/
theorem test_delay :
    after (·.delayOk2) (exec (.delay 1) { handle2 with phase2 := .clockEnabled }) = some true := by decide
/-- T-CS-42. -/
theorem test_delay_too_early : after (·.delayOk2) (exec (.delay 5) handle2) = some false := by decide
/-- T-MV-1. -/
theorem test_memory_view :
    after (·.result) (exec (.memoryView 8 0x00800000) handle2) = some (some (.view 0xD0000000 1048576)) := by decide
/-- T-MV-7. -/
theorem test_memory_view_e9 : after (·.events) (exec (.memoryView 0 64) handle2) = some [.rejected 9] := by decide
/-- T-MV-10; and an element past `2^32`, whose address 43 R262 does not wrap (U12: outside a window, refused). -/
theorem test_element_addr :
    elementAddr 0xD0000000 8 5 = 0xD0000028 ∧ elementAddr 0xD0000000 1 0xD0000000 = 0x1A0000000 ∧
      refusal (readElement ⟨0xD0000000, 0xD0000001, 1⟩ 0xD0000000 ready2) = some .outsideWindows := by decide
/-- T-CS-15. -/
theorem test_cmd_idle :
    after (fun t => (t.sdcmr, t.inflight)) (exec (.cmdIdle ⟨false, false, 8, 0x0230, 0⟩) handle2) =
      some (0x00046100, none) := by decide
/-- T-CS-30. -/
theorem test_cmd_clk_enable :
    after (fun t => (t.phase2, t.delayOk2)) (exec (.cmdClkEnable ⟨true, false, 0, 0, 0⟩) handle2) =
      some (.clockEnabled, false) := by decide
/-- T-CS-33. -/
theorem test_cmd_pall :
    after (fun t => (t.phase2, t.delayOk2)) (exec (.cmdPall ⟨true, false, 0, 0, 0⟩)
      { handle2 with phase2 := .clockEnabled, delayOk2 := true }) = some (.precharged, true) := by decide
/-- T-CS-17: reserved bits ignored, no bank targeted. -/
theorem test_cmd_auto_refresh :
    after (fun t => (t.sdcmr, busy t, t.phase1, t.phase2)) (exec (.cmdAutoRefresh ⟨false, false, 0, 0, 0x7F⟩) handle2) =
      some (0, true, .powerUp, .powerUp) := by decide
/-- T-CS-16, T-CS-36. -/
theorem test_cmd_load_mode :
    after (fun t => (t.sdcmr, t.phase2)) (exec (.cmdLoadMode ⟨true, false, 0, 0x0230, 0⟩)
      { handle2 with phase2 := .refreshed }) = some (0x00046000, .modeLoaded) := by decide
/-- T-CS-18. -/
theorem test_cmd_refused :
    [refusal (exec (.cmdSelfRefresh ⟨false, false, 0, 0, 0⟩) handle2),
     refusal (exec (.cmdPowerDown ⟨false, false, 0, 0, 0⟩) handle2),
     refusal (exec (.cmdReserved7 ⟨false, false, 0, 0, 0⟩) handle2)] =
      [some .selfRefresh, some .powerDown, some .reservedMode] := by decide
/-- T-CS-19, by a raw register write of a refused mode while busy: R73 faults first. -/
theorem test_raw_write_while_busy :
    after (·.faulted) (hostWrite 0x40000010 4 0x00000005 (inFlight none)) = some (some .commandWhileBusy) := by decide
/-- T-RS-5, by a raw register write. -/
theorem test_raw_write_sdrtr :
    after (fun t => (t.sdrtr, t.refreshProgrammed)) (hostWrite 0x40000014 4 0xFFFFFFFF handle2) =
      some (0x00003FFE, true) := by decide
/-- T-MV-11, the write. -/
theorem test_window_write :
    after (fun t => (readByte t .bank2 0x10, readByte t .bank2 0x13)) (hostWrite 0xD0000010 4 0x11223344 ready2) =
      some (0x44, 0x11) := by decide
/-- T-MV-11, the unaligned read. -/
theorem test_window_read :
    after (·.result) (hostRead 0xD0000011 2
      { ready2 with mem2 := ⟨1, [(0x10, 0x44), (0x11, 0x33), (0x12, 0x22), (0x13, 0x11)]⟩ }) =
      some (some (.value 0x2233)) := by decide
/-- 43 R262: element 2 of a view of 2-byte elements is bytes 4 and 5; there is no element at the count. -/
theorem test_write_element :
    after (fun t => (readByte t .bank2 4, readByte t .bank2 5)) (writeElement ⟨0xD0000000, 3, 2⟩ 2 0x1122 ready2) =
      some (0x22, 0x11) ∧
    refusal (writeElement ⟨0xD0000000, 3, 2⟩ 3 0 ready2) = some .noSuchValue := by decide
/-- T-MV-17, at the end of the default window. -/
theorem test_window_end : refusal (hostRead 0xDFFFFFFE 4 ready2) = some .outsideWindows := by decide
/-- T-RS-1. -/
theorem test_reset_registers :
    (State.reset.sdcr1, State.reset.sdcr2, State.reset.sdtr1, State.reset.sdtr2, State.reset.sdcmr, State.reset.sdrtr,
      State.reset.sdsr) = (0x000002D0, 0x000002D0, 0x0FFFFFFF, 0x0FFFFFFF, 0, 0, 0) := by decide
/-- T-RS-8. -/
theorem test_bad_reset_regs : resetRegsOk { defaultResetRegs with sdcr1 := 0x00008000 } = false := by decide
/-- T-CS-61: E8 before E6. -/
theorem test_no_handle_first : after (·.events) (exec (.setAutoRefreshCount 16) State.reset) = some [.rejected 8] := by
  decide
/-- An empty window has no address in common with the register block (log 24). -/
theorem test_empty_window :
    regionsOk { defaultPlatform with bankSize := 0, bankBase1 := 0x40000004 } = true := by decide
/-- The default platform passes R141, R79 and R50. -/
theorem test_default_platform : platformOk defaultPlatform = true := by decide

/-! ### Witnesses: for each obligation with hypotheses, values that meet them -/

theorem witness_DecodeEncodeRoundTrip : (configureWith ⟨.bank1, pc3, pc2⟩).wellFormed = true := by decide

theorem witness_DecodedIsWellFormed : decode (.hostOp (0x0A :: 0 :: data8.pins.map fun p => BitVec.ofNat 8 p.val)) =
    .ok (.width data8) := by decide

theorem witness_DecodeCmdUndoesEncodeCmd : (0xFE000003 : Word).toNat % 2 ^ 25 = (0x00000003 : Word).toNat % 2 ^ 25 := by
  decide

theorem witness_UnlistedOpIsRefused :
    (∀ op ∈ [(0x00 : Byte), 0x0C, 0x0F, 0x12, 0x1F, 0x27, 0x2F, 0x31, 0xFF], op.toNat ∉ [0x01, 0x02, 0x03, 0x04, 0x05,
      0x06, 0x07, 0x08, 0x09, 0x0A, 0x0B, 0x10, 0x11, 0x20, 0x21, 0x22, 0x23, 0x24, 0x25, 0x26, 0x30]) ∧
    (asking (.packet (.hostOp [0x0C])) State.reset).faulted = none ∧
    platformOk (asking (.packet (.hostOp [0x0C])) State.reset).platform = true ∧
    (asking (.packet (.hostOp [0x0C])) State.reset).polling = false ∧
    (asking (.packet (.hostOp [0x0C])) State.reset).queue = [.packet (.hostOp (0x0C :: []))] := by decide

/-- A packet, a read, a write, both accesses to an element, an empty queue; and a host that polls. -/
theorem witness_StepRunsDecodedInstruction :
    (∀ s ∈ [asking (.packet (.cmdWord 9)) handle2, asking (.read 0xD0000000 4) handle2,
      asking (.write 0xD0000000 4 1) handle2, asking (.readElement ⟨0xD0000000, 1, 4⟩ 0) handle2,
      asking (.writeElement ⟨0xD0000000, 1, 4⟩ 0 1) handle2, handle2],
      s.faulted = none ∧ platformOk s.platform = true ∧ s.polling = false) ∧
    decode (.cmdWord 9) = .ok (.cmdClkEnable ⟨true, false, 0, 0, 0⟩) ∧ handle2.queue = [] ∧
    (inFlight none).faulted = none ∧ platformOk (inFlight none).platform = true ∧ (inFlight none).polling = true := by
  decide

theorem witness_StepMarksOnlyTheNamedFaults :
    (∃ t, step (asking (.packet (.cmdWord 9)) State.reset) = .next t ∧ t.faulted = some .gateOff) ∧
    ∃ t, step (asking (.packet (.cmdWord 9)) { inFlight none with polling := false }) = .next t ∧
      t.faulted = some .commandWhileBusy :=
  ⟨next_of_after (by decide), next_of_after (by decide)⟩

/-- The two windows overlap and wrap. -/
theorem witness_BadPlatformIsRefused :
    let s := { State.reset with platform := { defaultPlatform with bankSize := 0x40000000 } }
    s.faulted = none ∧ platformOk s.platform = false := by decide

theorem witness_ResetSatisfiesInvariant : platformOk defaultPlatform = true := by decide

/-- A state past `CONFIGURE`, not reset, satisfies the invariant, and a step runs in it. -/
theorem inv_ready2 (q : List Request) : Inv { ready2 with queue := q } where
  reserved := show ReservedBitsZero ready2 by unfold ReservedBitsZero; decide
  busyInflight := show busy ready2 = ready2.inflight.isSome by decide
  gate := rfl
  untouched h := by simp [ready2, handle2] at h
  memory := ⟨rfl, rfl⟩
  cap p r h := by simp [pinOf, ready2, handle2, State.reset, State.resetOn] at h
  owned b hb := by simp [ready2, handle2, State.reset, State.resetOn] at hb
  disjoint := ⟨List.Pairwise.nil, fun b hb => by simp [ready2, handle2, State.reset, State.resetOn] at hb⟩
  configs c hc := by simp [ready2, handle2, State.reset, State.resetOn] at hc
  delaySeen b h := by cases b <;> simp_all [phaseOf, delayOkOf, ready2, handle2, State.reset, State.resetOn]
  polling h := by simp [ready2, handle2, State.reset, State.resetOn] at h

theorem witness_StepKeepsInvariant :
    Inv (asking (.packet (.cmdWord 9)) ready2) ∧ ∃ t, step (asking (.packet (.cmdWord 9)) ready2) = .next t ∧
      t.phase2 = .violated :=
  ⟨inv_ready2 _, next_of_after (by decide)⟩

theorem witness_StepKeepsReservedBitsZero :
    ReservedBitsZero (asking (.write 0x40000000 4 0xFFFFFFFF) handle2) ∧
      ∃ t, step (asking (.write 0x40000000 4 0xFFFFFFFF) handle2) = .next t ∧ t.sdcr1 = 0x00007FFF :=
  ⟨by unfold ReservedBitsZero; decide, next_of_after (by decide)⟩

theorem witness_BusyIffCommandInFlight :
    (handle2.clkGate = true ∧ handle2.inflight = none ∧ busy handle2 = false ∧
      commandOf 9 = some ⟨.clockEnable, false, true, 0, 0⟩ ∧ ∃ t, regWrite .sdcmr 9 handle2 = .done () t) ∧
    BusyIffInflight (inFlight (some 1)) ∧ ∃ t, step (inFlight (some 1)) = .next t ∧ busy t = true :=
  ⟨⟨rfl, rfl, by decide, by decide, _, rfl⟩, show busy (inFlight (some 1)) = true by decide, next_of_after (by decide)⟩

/-- A host that holds one bundle, about to make a second. -/
def oneBundle : State :=
  { State.reset with pins := pinsWith [(pg4, takenAs (.ba 0)), (pg5, takenAs (.ba 1)), (pg8, boundTo .sdclk)],
                     bundles := [.bankAccess ⟨.ba2, [pg4, pg5]⟩], queue := [.packet (.hostOp [0x08, 0, 0x68])] }

theorem witness_StepKeepsBundlesExclusive :
    BundlesOwned oneBundle ∧ BundlesDisjoint oneBundle ∧ ∃ t, step oneBundle = .next t ∧ t.bundles.length = 2 := by
  refine ⟨fun b hb => ?_, ⟨List.pairwise_singleton _ _, fun b hb => ?_⟩, next_of_after (by decide)⟩
  · obtain rfl := List.mem_singleton.mp hb
    exact .cons (by decide) (.cons (by decide) .nil)
  · obtain rfl := List.mem_singleton.mp hb
    decide

theorem witness_HandleIsFixedForLife :
    (asking (.packet (.hostOp [0x25])) handle2).handle = some .bank2 ∧
      ∃ t, step (asking (.packet (.hostOp [0x25])) handle2) = .next t ∧ t.result = some (.bank .bank2) :=
  ⟨rfl, next_of_after (by decide)⟩

theorem witness_EventHistoryOnlyGrows :
    ∃ t, step (asking (.packet (.hostOp [0x26, 1])) State.reset) = .next t ∧ t.events = [.delayed 1] :=
  next_of_after (by decide)

/-- A pin with every flag set, and a step. -/
theorem witness_PinsAreNeverGivenBack :
    let s := asking (.packet (.hostOp [0x26, 1])) { State.reset with
      pins := pinsWith [(pg8, { binding := .bound .sdclk, inBundle := true, slewHigh := true, pullupOff := true })] }
    (∃ t, step s = .next t ∧ t.events = [.delayed 1]) ∧ (pinOf s pg8).binding ≠ .unassigned ∧
      (pinOf s pg8).inBundle = true ∧ (pinOf s pg8).slewHigh = true ∧ (pinOf s pg8).pullupOff = true :=
  ⟨next_of_after (by decide), by decide⟩

theorem witness_PhaseMovesOnlyByIssuedCommand :
    phaseOf (asking (.packet (.cmdWord 9)) handle2) .bank2 = .powerUp ∧
      ∃ t, step (asking (.packet (.cmdWord 9)) handle2) = .next t ∧ phaseOf t .bank2 = .clockEnabled :=
  ⟨rfl, next_of_after (by decide)⟩

theorem witness_RefreshProgrammedIsKept :
    (∃ t, regWrite .sdrtr 0 handle2 = .done () t) ∧
    (∃ t, step (asking (.packet (.hostOp [0x25])) ready2) = .next t ∧ ready2.refreshProgrammed = true) ∧
    ∃ t, step (asking (.packet (.hostOp [0x23, 1])) handle2) = .next t ∧ t.sdrtr = 2 :=
  ⟨⟨_, rfl⟩, next_of_after (f := fun _ => true) (by decide), next_of_after (by decide)⟩

theorem witness_PlatformNeverChanges : ∃ t, step (asking (.packet (.hostOp [0x25])) handle2) = .next t ∧ t.queue = [] :=
  next_of_after (by decide)

theorem witness_InflightCommandIsNotReplaced :
    BusyIffInflight (inFlight (some 0)) ∧ (inFlight (some 0)).inflight = some ⟨.prechargeAll, false, true, 0, 0⟩ ∧
      ∃ t, step (inFlight (some 0)) = .next t ∧ t.inflight = none :=
  ⟨show busy (inFlight (some 0)) = true by decide, rfl, next_of_after (by decide)⟩

theorem witness_AdmittedRunsNeverFault :
    Inv (asking (.packet (.hostOp [0x20, 0, 0, 1, 0, 0, 0])) ready2) ∧
      AdmittedRun (asking (.packet (.hostOp [0x20, 0, 0, 1, 0, 0, 0])) ready2) ∧
      ∃ t, step (asking (.packet (.hostOp [0x20, 0, 0, 1, 0, 0, 0])) ready2) = .next t ∧ t.polling = true :=
  ⟨inv_ready2 _, ⟨by decide, rfl, fun h => by simp [asking, ready2, handle2, State.reset, State.resetOn] at h⟩,
    next_of_after (by decide)⟩

theorem witness_RejectionIsPrecise :
    ∃ t, exec .bank State.reset = .next t ∧ t.result = some (.rejected .noHandle) := next_of_after (by decide)

/-- One pin for each clause: not in `CAP`, bound already, free; the pin numbers 0 and 255 have no capability. -/
theorem witness_BindPinBindsOnce :
    (pc1 ∉ capOf State.reset.platform .sdnwe ∧ (0 : PinId) ∉ capOf State.reset.platform (.a 0) ∧
      (255 : PinId) ∉ capOf State.reset.platform .sdncas) ∧
    (pc0 ∈ capOf (bound [(pc0, .sdnwe)]).platform .sdnwe ∧ (pinOf (bound [(pc0, .sdnwe)]) pc0).binding ≠ .unassigned) ∧
    pc0 ∈ capOf State.reset.platform .sdnwe ∧ (pinOf State.reset pc0).binding = .unassigned ∧
      State.reset.inflight = none := by decide

theorem witness_ConstructorTakesItsPins :
    constructedBundle (.makeCkecsBank2 pb5 pb6) = some (.ckeCs ⟨.bank2, pb5, pb6⟩) ∧
      (bound [(pb5, .sdcke .bank2), (pb6, .sdne .bank2)]).inflight = none ∧
      List.Forall₂ (fun p r => (pinOf (bound [(pb5, .sdcke .bank2), (pb6, .sdne .bank2)]) p).binding = .bound r ∧
        (pinOf (bound [(pb5, .sdcke .bank2), (pb6, .sdne .bank2)]) p).inBundle = false)
        (bundlePins (.ckeCs ⟨.bank2, pb5, pb6⟩)) (bundleRoles (.ckeCs ⟨.bank2, pb5, pb6⟩)) :=
  ⟨rfl, rfl, .cons (by decide) (.cons (by decide) .nil)⟩

/-- E4; E3 for the length; E3 for a role and E2, at the first and at the second position. -/
theorem witness_ConstructorRejectsInOrder :
    (constructedBundle (.makeCkecsBank1 pb5 pc2) = some (.ckeCs ⟨.bank1, pb5, pc2⟩) ∧
      OtherBankPin (bound [(pb5, .sdcke .bank2)]) (.ckeCs ⟨.bank1, pb5, pc2⟩)) ∧
    (constructedBundle (.makeBankAccess .ba2 [pg4]) = some (.bankAccess ⟨.ba2, [pg4]⟩) ∧
      (bundlePins (.bankAccess ⟨.ba2, [pg4]⟩)).length ≠ (bundleRoles (.bankAccess ⟨.ba2, [pg4]⟩)).length) ∧
    ((bundlePins (.bankAccess ⟨.ba2, [pg4, pg5]⟩)).zip (bundleRoles (.bankAccess ⟨.ba2, [pg4, pg5]⟩)) =
        [(pg4, .ba 0)] ++ (pg5, .ba 1) :: [] ∧
      (pinOf (bound [(pg4, .ba 0)]) pg4).binding = .bound (.ba 0) ∧
      (pinOf (bound [(pg4, .ba 0)]) pg4).inBundle = false ∧
      (pinOf (bound [(pg4, .ba 0)]) pg5).binding ≠ .bound (.ba 1)) ∧
    ((bundlePins (.bankAccess ⟨.ba2, [pg4, pg5]⟩)).zip (bundleRoles (.bankAccess ⟨.ba2, [pg4, pg5]⟩)) =
        [] ++ (pg4, .ba 0) :: [(pg5, .ba 1)] ∧
      (pinOf oneBundle pg4).binding = .bound (.ba 0) ∧ (pinOf oneBundle pg4).inBundle = true) := by
  refine ⟨⟨rfl, .inl ?_⟩, ?_⟩ <;> decide

theorem witness_PreparePinsPreparesEveryPin :
    .bankAccess ⟨.ba2, [pg4, pg5]⟩ ∈ oneBundle.bundles ∧ oneBundle.inflight = none := by decide

theorem witness_WidthReportsTheCode : .data data8 ∈ (holding ⟨.bank1, pc3, pc2⟩).bundles := by decide

theorem witness_BankOfPinsReportsTheBank : .ckeCs ⟨.bank1, pc3, pc2⟩ ∈ (holding ⟨.bank1, pc3, pc2⟩).bundles := by decide

theorem witness_MissingValueIsRefused :
    .addr addr11 ∉ State.reset.bundles ∧ .data data8 ∉ State.reset.bundles ∧
      .ckeCs ⟨.bank1, pc3, pc2⟩ ∉ State.reset.bundles ∧ configError cfg0 = none ∧
      .addr cfg0.addrBus ∉ State.reset.bundles ∧ State.reset.handle = none ∧ cfg0 ∉ State.reset.configs ∧
      ∃ b ∈ configureBundles cfg0 ⟨.ba2, [pg4, pg5]⟩ ⟨.nbl1, [0x40]⟩ pg8 pf11 pg15 ⟨.bank1, pc3, pc2⟩ pc0,
        b ∉ (holding ⟨.bank2, pb5, pb6⟩).bundles := by decide

/-- A zero member with a large one; the largest and the smallest admitted values; each value just outside. -/
theorem witness_MakeConfigChecksRanges :
    (0 ∈ timingMembers { time0 with tMrd := 17, tRcd := 0 }) ∧
    (0 ∉ timingMembers ⟨3, 16, 16, 16, 16, 16, 16, 16⟩ ∧ (∀ v ∈ timingMembers ⟨3, 16, 16, 16, 16, 16, 16, 16⟩, v ≤ 16)) ∧
    (0 ∉ timingMembers ⟨1, 1, 1, 1, 1, 1, 1, 1⟩ ∧ (∀ v ∈ timingMembers ⟨1, 1, 1, 1, 1, 1, 1, 1⟩, v ≤ 16)) ∧
    (configError { cfg0 with columnBits := 11, rowBits := 13, clockDivisor := 3, pipelineDelay := 2,
                             timing := ⟨3, 16, 16, 16, 16, 16, 16, 16⟩ } = none) ∧
    (configError { cfg0 with columnBits := 8, rowBits := 11, clockDivisor := 2, pipelineDelay := 0,
                             timing := ⟨1, 1, 1, 1, 1, 1, 1, 1⟩ } = none) ∧
    (∀ c ∈ [{ cfg0 with timing := { time0 with tXsr := 17 } }, { cfg0 with timing := { time0 with cas := 4 } },
      { cfg0 with columnBits := 7 }, { cfg0 with columnBits := 12 }, { cfg0 with rowBits := 10 },
      { cfg0 with rowBits := 14 }, { cfg0 with clockDivisor := 1 }, { cfg0 with clockDivisor := 4 },
      { cfg0 with pipelineDelay := 3 }], 0 ∉ timingMembers c.timing ∧ configError c = some .fieldOutOfRange) ∧
    .addr cfg0.addrBus ∈ (holding ⟨.bank1, pc3, pc2⟩).bundles ∧
    .data cfg0.dataBus ∈ (holding ⟨.bank1, pc3, pc2⟩).bundles := by decide

theorem witness_SecondConfigureIsRejected : handle2.handle ≠ none := by decide

theorem witness_ConfigurePostcondition :
    ∀ sel ∈ [(⟨.bank1, pc3, pc2⟩ : CkeCs), ⟨.bank2, pb5, pb6⟩],
      (holding sel).handle = none ∧ (holding sel).inflight = none ∧ cfg0 ∈ (holding sel).configs ∧
      configError cfg0 = none ∧
      ∀ b ∈ configureBundles cfg0 ⟨.ba2, [pg4, pg5]⟩ ⟨.nbl1, [0x40]⟩ pg8 pf11 pg15 sel pc0, b ∈ (holding sel).bundles := by
  decide

theorem witness_ConfigureBankOneWritesWholeWords :
    (holding ⟨.bank1, pc3, pc2⟩).handle = none ∧ configError cfg0 = none ∧
      ∃ t, exec (configureWith ⟨.bank1, pc3, pc2⟩) (holding ⟨.bank1, pc3, pc2⟩) = .next t ∧ t.sdcr2 = 0x000002D0 :=
  ⟨rfl, by decide, next_of_after (by decide)⟩

theorem witness_ConfigureBankTwoKeepsOtherBits :
    (holding ⟨.bank2, pb5, pb6⟩).handle = none ∧ ReservedBitsZero (holding ⟨.bank2, pb5, pb6⟩) ∧
      ∃ t, exec (configureWith ⟨.bank2, pb5, pb6⟩) (holding ⟨.bank2, pb5, pb6⟩) = .next t ∧ t.sdcr1 = 0x00002AD0 :=
  ⟨rfl, by unfold ReservedBitsZero; decide, next_of_after (by decide)⟩

theorem witness_NoHandleComesFirst : State.reset.handle = none := rfl

theorem witness_SendCommandIssues :
    handle2.handle ≠ none ∧ handle2.clkGate = true ∧ handle2.inflight = none ∧ busy handle2 = false := by decide

/-- At the boundary of no busy poll and with three of them. -/
theorem witness_PollsExactlyOneMoreThanBusy :
    ∀ n ∈ [0, 3], (inFlight (some n)).faulted = none ∧ platformOk (inFlight (some n)).platform = true ∧
      (inFlight (some n)).polling = true ∧ (inFlight (some n)).clkGate = true ∧
      (inFlight (some n)).inflight = some ⟨.prechargeAll, false, true, 0, 0⟩ ∧ (inFlight (some n)).sdsr = busyWord ∧
      (inFlight (some n)).busyLeft = some n := by decide

theorem witness_StuckBusyPollsForEver :
    (inFlight none).faulted = none ∧ platformOk (inFlight none).platform = true ∧ (inFlight none).polling = true ∧
      (inFlight none).clkGate = true ∧ (inFlight none).inflight = some ⟨.prechargeAll, false, true, 0, 0⟩ ∧
      (inFlight none).sdsr = busyWord ∧ (inFlight none).busyLeft = none := by decide

theorem witness_DelayMarksClockEnabledBanks : handle2.inflight = none := rfl

theorem witness_SetWriteProtectionChangesOneBit :
    State.reset.handle = none ∧
      (handle2.handle = some .bank2 ∧ handle2.clkGate = true ∧ handle2.inflight = none ∧ ReservedBitsZero handle2) ∧
      handle1.handle = some .bank1 ∧ handle1.clkGate = true ∧ handle1.inflight = none ∧ ReservedBitsZero handle1 := by
  unfold ReservedBitsZero; decide

/-- Both sides of the bound. -/
theorem witness_SetAutoRefreshCountIssuesNothing :
    State.reset.handle = none ∧ handle2.handle ≠ none ∧ 15 < 16 ∧ 15 ≤ 15 ∧ handle2.clkGate = true ∧ handle2.inflight = none ∧
      busy handle2 = false ∧ ReservedBitsZero handle2 := by
  unfold ReservedBitsZero; decide

/-- Both sides of the bound. -/
theorem witness_SetRefreshIntervalProgramsTheTimer :
    State.reset.handle = none ∧ handle2.handle ≠ none ∧ 8191 < 8192 ∧ 8191 ≤ 8191 ∧ handle2.clkGate = true ∧ handle2.inflight = none ∧
      ReservedBitsZero handle2 := by
  unfold ReservedBitsZero; decide

theorem witness_AccessorsReportTheHandle :
    State.reset.handle = none ∧ handle1.handle = some .bank1 ∧ handle1.clkGate = true ∧ handle1.inflight = none := by
  decide

theorem witness_MemoryViewBaseAndCount : State.reset.handle = none ∧ handle2.handle = some .bank2 ∧ (0 : Nat) = 0 ∧ (1 : Nat) ≠ 0 := by
  decide

/-- The first byte, the last byte, and an unaligned word of the window of the ready bank; a ready, protected bank; the
first and the last element of a view. -/
theorem witness_WindowReadsBackWhatWasWritten :
    (windowOf ready2.platform 0xD0000000 1 = some (.bank2, 0) ∧
      windowOf ready2.platform 0xDFFFFFFF 1 = some (.bank2, 0x0FFFFFFF) ∧
      windowOf ready2.platform 0xD0000011 4 = some (.bank2, 0x11)) ∧
    ready ready2 .bank2 = true ∧ (eff ready2 .bank2).wp = 0 ∧
    ready2.inflight = none ∧
    (windowOf ready1.platform 0xAFFFFFFF 1 = some (.bank1, 0x0FFFFFFF) ∧ ready ready1 .bank1 = true ∧
      (eff ready1 .bank1).wp ≠ 0 ∧ ready1.inflight = none) ∧
    windowOf ready2.platform (0xDFFFFFFF : Word).toNat 1 ≠ none ∧
    ready2.handle = some .bank2 ∧ (⟨0xD0000000, 3, 2⟩ : View).base = bankBase ready2.platform .bank2 ∧
      (⟨0xD0000000, 3, 2⟩ : View).elementSize ≠ 0 ∧ ∀ i ∈ [0, 2], i < (⟨0xD0000000, 3, 2⟩ : View).count := by decide

theorem witness_ProtectedWriteIsIgnored :
    windowOf ready1.platform 0xA0000000 4 = some (.bank1, 0) ∧ ready ready1 .bank1 = true ∧
      (eff ready1 .bank1).wp ≠ 0 ∧ ready1.inflight = none := by decide

/-- T-MV-15: the window of the bank the Handle is not for. -/
theorem witness_NotReadyAccessesAreDraws :
    windowOf ready2.platform 0xA0000000 4 = some (.bank1, 0) ∧ ready ready2 .bank1 = false ∧ ready2.inflight = none := by
  decide

/-- The first and the last byte of a window, no bytes, a byte past the window, an address past `2^32`; raw accesses outside
everything, and a half word and an unaligned word of the register block; the element at the count, an element size of 0, a
base of the other bank, no Handle. -/
theorem witness_StrayAccessIsRefused :
    platformOk State.reset.platform = true ∧
    (windowOf ready2.platform 0xD0000000 1 = some (.bank2, 0) ∧
      windowOf ready2.platform 0xDFFFFFFF 1 = some (.bank2, 0x0FFFFFFF)) ∧
    (∀ x ∈ [(0xD0000000, 0), (0xDFFFFFFF, 2), (0xE0000000, 1), (2 ^ 32, 1)],
      windowOf ready2.platform x.1 x.2 = none) ∧
    (windowOf State.reset.platform (0xD0000000 : Word).toNat 0 = none ∧
      inRegisterBlock State.reset.platform 0xD0000000 = false) ∧
    ((⟨0xD0000000, 3, 2⟩ : View).count ≤ 3 ∧ (⟨0xD0000000, 3, 0⟩ : View).elementSize = 0 ∧
      (⟨0xA0000000, 3, 2⟩ : View).base ≠ bankBase ready2.platform .bank2 ∧ State.reset.handle = none) ∧
    (windowOf State.reset.platform 0x30000000 4 = none ∧ inRegisterBlock State.reset.platform 0x30000000 = false) ∧
    (windowOf State.reset.platform 0x4000001C 4 = none ∧ inRegisterBlock State.reset.platform 0x4000001C = false) ∧
    (windowOf State.reset.platform 0x40000000 2 = none ∧ inRegisterBlock State.reset.platform 0x40000000 = true) ∧
    windowOf State.reset.platform 0x4000001B 4 = none ∧ inRegisterBlock State.reset.platform 0x4000001B = true ∧
      ((0x4000001B : Word).toNat - State.reset.platform.regBase.toNat) % 4 ≠ 0 := by decide

theorem witness_IdleWordIssuesNothing : handle2.clkGate = true ∧ handle2.inflight = none ∧ busy handle2 = false := by
  decide

theorem witness_RawCommandWordIssues : handle1.clkGate = true ∧ handle1.inflight = none ∧ busy handle1 = false := by
  decide

theorem witness_CommandWhileBusyFaults :
    (∃ m, Instr.cmdPall ⟨true, false, 0, 0, 0⟩ = rawInstr m ⟨true, false, 0, 0, 0⟩ ∧
        (0x0000000A : Word) = assembleCmd (modeCode m) ⟨true, false, 0, 0, 0⟩) ∧
      (0x00000008 : Word) = assembleCmd 0 ⟨true, false, 0, 0, 0⟩ ∧
      ∀ n ∈ [none, some 1], (inFlight n).clkGate = true ∧ busy (inFlight n) = true ∧ (inFlight n).busyLeft ≠ some 0 :=
  ⟨⟨.prechargeAll, rfl, by decide⟩, by decide⟩

theorem witness_GateOffFaults : State.reset.clkGate = false ∧ State.reset.inflight = none := by decide

theorem witness_RegWriteStoresWritableBits :
    (∀ r ∈ [Reg.sdcr1, .sdcr2, .sdtr1, .sdtr2, .sdrtr, .sdsr], r ≠ .sdcmr) ∧ handle2.clkGate = true ∧
      handle2.inflight = none ∧ platformOk handle2.platform = true ∧
      (0x40000000 : Word).toNat = handle2.platform.regBase.toNat + 0x00 ∧
      (0x40000018 : Word).toNat = handle2.platform.regBase.toNat + 0x18 := by decide

end Sys2Proof.Tests
end

/-! The scope rules (00_scope): what one step dispatches to, and that no step changes the platform. -/

namespace Sys2Proof.Machine

/-! ### What a step dispatches to -/

/-- A machine that is not faulted, on an admitted platform, gives the host its turn. -/
theorem step_eq_hostTurn {s : State} (hf : s.faulted = none) (hp : platformOk s.platform = true) :
    step s = hostTurn s := by
  simp [step, hf, hp]

theorem hostTurn_of_polling {s : State} (h : s.polling = true) : hostTurn s = pollOnce s := by
  simp [hostTurn, h]

theorem hostTurn_of_empty {s : State} (h : s.polling = false) (hq : s.queue = []) :
    hostTurn s = .next (engineTurn s) := by
  simp [hostTurn, h, hq]

theorem hostTurn_of_request {s : State} {r : Request} {rest : List Request} (h : s.polling = false)
    (hq : s.queue = r :: rest) : hostTurn s = serve r { s with queue := rest } := by
  simp [hostTurn, h, hq]

theorem serve_packet_of_decode {p : Packet} {i : Instr} (h : decode p = .ok i) (s : State) :
    serve (.packet p) s = exec i s := by
  simp [serve, servePacket, h]

/-- Settles O8: the host's turn by what the host does next, and a request by its kind. -/
theorem stepRunsDecodedInstruction : Obligations.StepRunsDecodedInstruction := by
  intro s hf hp
  rw [step_eq_hostTurn hf hp]
  refine ⟨fun hn => ⟨?packet, ?read, ?write, ?readElement, ?writeElement, hostTurn_of_empty hn⟩, hostTurn_of_polling⟩
  case packet =>
    intro p rest i hq hd
    rw [hostTurn_of_request hn hq, serve_packet_of_decode hd]
  case read => exact fun a n rest hq => hostTurn_of_request hn hq
  case write => exact fun a n v rest hq => hostTurn_of_request hn hq
  case readElement => exact fun v i rest hq => hostTurn_of_request hn hq
  case writeElement => exact fun v i x rest hq => hostTurn_of_request hn hq

/-! ### The platform -/

/-- A register write stores a word or issues a command; neither touches the platform (10 R51). -/
theorem RegWritten.platform_eq {r : Reg} {v : Word} {s t : State} (h : RegWritten r v s t) :
    t.platform = s.platform := by
  cases h with
  | issued c _ _ _ _ ht => rw [ht, issueCommand_platform]
  | sdcr1 _ ht | sdcr2 _ ht | sdtr1 _ ht | sdtr2 _ ht | sdrtr _ ht | sdsr _ ht | idle _ _ _ ht => rw [ht]

/-- Every small update a step is made of leaves the platform as it is. -/
theorem stepRel_samePlatform : StepRel fun s t => t.platform = s.platform where
  refl _ := rfl
  trans hst htu := htu.trans hst
  turn := engineTurn_platform
  event := emit_platform
  host _ _ _ _ := rfl
  held _ _ _ := rfl
  fault _ _ := rfl
  bind _ _ _ _ _ := setPin_platform ..
  mark _ _ := setPin_platform ..
  prepare _ _ := setPin_platform ..
  gate _ := rfl
  handle _ _ _ := rfl
  write := RegWritten.platform_eq
  delay := observeDelay_platform
  draw _ := rfl
  memory b m s _ := setMem_platform b m s

/-- Settles O23: the platform is kept by every small update, so by every step. -/
theorem platformNeverChanges : Obligations.PlatformNeverChanges :=
  fun _ _ => stepRel_samePlatform.step

end Sys2Proof.Machine

/-! What the decoder answers: every bundle operand has the pins of its variant (10_state R34). -/

namespace Sys2Proof

/-- Every value a reader answers has this property. -/
def Yields {α : Type} (p : Parse α) (P : α → Prop) : Prop := ∀ bs a rest, p bs = .ok (a, rest) → P a

theorem yields_true {α : Type} (p : Parse α) : Yields p fun _ => True := fun _ _ _ _ => trivial

theorem yields_error {α : Type} (e : DecodeError) (P : α → Prop) : Yields (fun _ => .error e) P := by
  intro bs a rest h
  cases h

theorem yields_done {α : Type} {a : α} {P : α → Prop} (h : P a) : Yields (parseDone a) P := by
  intro bs b rest hb
  cases hb
  exact h

/-- What follows a reader may count on what the reader yields. -/
theorem Yields.andThen {α β : Type} {p : Parse α} {f : α → Parse β} {Q : α → Prop} {P : β → Prop} (hp : Yields p Q)
    (hf : ∀ a, Q a → Yields (f a) P) : Yields (parseThen p f) P := by
  intro bs b rest h
  unfold parseThen at h
  split at h
  · rename_i a bs' ha
    exact hf a (hp _ _ _ ha) _ _ _ h
  · cases h

/-- A reader whose value does not matter to what follows. -/
theorem yields_after {α β : Type} {p : Parse α} {f : α → Parse β} {P : β → Prop} (hf : ∀ a, Yields (f a) P) :
    Yields (parseThen p f) P :=
  (yields_true p).andThen fun a _ => hf a

theorem getPins_yields (n : Nat) : Yields (getPins n) (·.length = n) := by
  induction n with
  | zero => exact yields_done rfl
  | succ n ih => exact yields_after fun _ => ih.andThen fun _ h => yields_done (congrArg (· + 1) h)

theorem getAddrBus_yields : Yields getAddrBus (·.wf = true) :=
  yields_after fun v => (getPins_yields v.lines).andThen fun _ h => yields_done (beq_iff_eq.mpr h)

theorem getDataBus_yields : Yields getDataBus (·.wf = true) :=
  yields_after fun v => (getPins_yields v.lines).andThen fun _ h => yields_done (beq_iff_eq.mpr h)

theorem getBankAccess_yields : Yields getBankAccess (·.wf = true) :=
  yields_after fun v => (getPins_yields v.lines).andThen fun _ h => yields_done (beq_iff_eq.mpr h)

theorem getByteEnable_yields : Yields getByteEnable (·.wf = true) :=
  yields_after fun v => (getPins_yields v.lines).andThen fun _ h => yields_done (beq_iff_eq.mpr h)

/-- The byte for a bundle's type selects the reader of that type. -/
theorem getBundle_yields : Yields getBundle (·.wf = true) := by
  refine yields_after fun t => ?_
  split
  · exact getAddrBus_yields.andThen fun _ h => yields_done h
  · exact getDataBus_yields.andThen fun _ h => yields_done h
  · exact getBankAccess_yields.andThen fun _ h => yields_done h
  · exact getByteEnable_yields.andThen fun _ h => yields_done h
  · exact yields_after fun _ => yields_done rfl
  · exact yields_after fun _ => yields_after fun _ => yields_done rfl
  · exact yields_error _ _

theorem getConfiguration_yields : Yields getConfiguration (·.wf = true) :=
  getAddrBus_yields.andThen fun _ ha => getDataBus_yields.andThen fun _ hd =>
    yields_after fun _ => yields_after fun _ => yields_after fun _ => yields_after fun _ => yields_after fun _ =>
      yields_after fun _ => yields_after fun _ => yields_done (Bool.and_eq_true_iff.mpr ⟨ha, hd⟩)

theorem getConfigure_yields : Yields getConfigure (·.wellFormed = true) :=
  getConfiguration_yields.andThen fun _ hc => getBankAccess_yields.andThen fun _ hb =>
    getByteEnable_yields.andThen fun _ hn =>
      yields_after fun _ => yields_after fun _ => yields_after fun _ => yields_after fun _ => yields_after fun _ =>
        yields_done (Bool.and_eq_true_iff.mpr ⟨Bool.and_eq_true_iff.mpr ⟨hc, hb⟩, hn⟩)

/-- One reader per op number: the four that read bundles, and the others, whose instruction has no bundle operand. -/
theorem getOperands_yields (op : Nat) : Yields (getOperands op) (·.wellFormed = true) := by
  unfold getOperands
  split
  -- PREPARE_PINS
  case h_9 => exact getBundle_yields.andThen fun _ h => yields_done h
  -- WIDTH
  case h_10 => exact getDataBus_yields.andThen fun _ h => yields_done h
  -- MAKE_CONFIG
  case h_12 => exact getConfiguration_yields.andThen fun _ h => yields_done h
  -- CONFIGURE
  case h_13 => exact getConfigure_yields
  -- no operation
  case h_22 => exact yields_error _ _
  -- WRITE_PROTECTION, BANK
  case h_18 | h_19 => exact yields_done rfl
  -- BANK_OF_PINS, SEND_COMMAND, the three SET operations, DELAY: one operand
  case h_11 | h_14 | h_15 | h_16 | h_17 | h_20 => exact yields_after fun _ => yields_done rfl
  -- two operands
  all_goals exact yields_after fun _ => yields_after fun _ => yields_done rfl

theorem decodeCmdWord_wellFormed (w : Word) : (decodeCmdWord w).wellFormed = true := by
  unfold decodeCmdWord
  dsimp only
  split <;> rfl

theorem decodeHostOp_wellFormed {bs : List Byte} {i : Instr} (h : decodeHostOp bs = .ok i) : i.wellFormed = true := by
  unfold decodeHostOp at h
  split at h
  · cases h
  · split at h
    · rename_i j rest hj
      split at h
      · cases h
        exact getOperands_yields _ _ _ _ hj
      · cases h
    · cases h

/-- Settles O3, by the kind of the packet. -/
theorem decodedIsWellFormed : Obligations.DecodedIsWellFormed := by
  intro p i h
  cases p with
  | hostOp bs => exact decodeHostOp_wellFormed h
  | cmdWord w =>
    cases h
    exact decodeCmdWord_wellFormed w

end Sys2Proof

/-! The state: what reset leaves, and what every step keeps of the history, the Handle, the pins, the registers and the
refresh mark (10_state R31 to R52). -/

namespace Sys2Proof.Machine

/-! ### Faults and missing values -/

/-- The outcome is a next state or a refusal. -/
def NoFault (o : Host.Outcome State Fault Refusal) : Prop := ∀ f, o ≠ .fault f

theorem noFault_next (s : State) : NoFault (.next s) := fun _ h => nomatch h

theorem noFault_refused (r : Refusal) : NoFault (.refused r) := fun _ h => nomatch h

theorem noFault_reject (code : Rejection) (s : State) : NoFault (reject code s) := noFault_next _

/-- An operation that meets a fault answers a marked next state (log 12). -/
theorem noFault_actEnd (x : Act Result) : NoFault (actEnd x) := by
  cases x with
  | done r s => exact noFault_next _
  | halt s => exact noFault_next _
  | refuse r => exact noFault_refused _

theorem noFault_makeBundle (b : Bundle) (s : State) : NoFault (makeBundle b s) := by
  rcases makeBundle_cases b s with ⟨e, h⟩ | ⟨-, h⟩
  · exact h ▸ noFault_reject e s
  · exact h ▸ noFault_next _

/-- Every instruction ends in a next state or a refusal. -/
theorem noFault_exec (i : Instr) (s : State) : NoFault (exec i s) := by
  cases i with
  | bindPin p r =>
    simp only [exec, execBindPin]
    split
    · split
      · exact noFault_next _
      · exact noFault_reject _ _
    · exact noFault_reject _ _
  | makeAddrBus | makeDataBus | makeBankAccess | makeByteEnable | makeSingle => exact noFault_makeBundle _ _
  | makeCkecsBank1 cke cs | makeCkecsBank2 cke cs =>
    simp only [exec, execMakeCkecsBank1, execMakeCkecsBank2]
    split
    · exact noFault_reject _ _
    · exact noFault_makeBundle _ _
  | preparePins | width | bankOfPins =>
    simp only [exec, execPreparePins, execWidth, execBankOfPins]
    split
    · exact noFault_next _
    · exact noFault_refused _
  | makeConfig c =>
    simp only [exec, execMakeConfig]
    split
    · exact noFault_reject _ _
    · split
      · exact noFault_next _
      · exact noFault_refused _
  | configure =>
    simp only [exec, execConfigure]
    split
    · exact noFault_reject _ _
    · split
      · exact noFault_actEnd _
      · exact noFault_refused _
  | sendCommand c =>
    simp only [exec, execSendCommand]
    split
    · exact noFault_reject _ _
    · split
      · exact noFault_next _
      · exact noFault_next _
      · exact noFault_refused _
  | setWriteProtection | writeProtection =>
    simp only [exec, execSetWriteProtection, execWriteProtection]
    split
    · exact noFault_reject _ _
    · exact noFault_actEnd _
  | setAutoRefreshCount n | setRefreshInterval n =>
    simp only [exec, execSetAutoRefreshCount, execSetRefreshInterval]
    split
    · exact noFault_reject _ _
    · split
      · exact noFault_reject _ _
      · exact noFault_actEnd _
  | bank =>
    simp only [exec, execBank]
    split
    · exact noFault_reject _ _
    · exact noFault_next _
  | delay n => exact noFault_next _
  | memoryView e n =>
    simp only [exec, execMemoryView]
    split
    · exact noFault_reject _ _
    · split
      · exact noFault_reject _ _
      · exact noFault_next _
  | cmdIdle | cmdClkEnable | cmdPall | cmdAutoRefresh | cmdLoadMode => exact noFault_actEnd _
  | cmdSelfRefresh | cmdPowerDown | cmdReserved7 => exact noFault_refused _

theorem noFault_windowRead (a n : Nat) (s : State) : NoFault (windowRead a n s) := by
  unfold windowRead
  split
  · exact noFault_next _
  · exact noFault_refused _

theorem noFault_windowWrite (a n v : Nat) (s : State) : NoFault (windowWrite a n v s) := by
  unfold windowWrite
  split
  · exact noFault_next _
  · exact noFault_refused _

/-- Every request ends in a next state or a refusal. -/
theorem noFault_serve (r : Request) (s : State) : NoFault (serve r s) := by
  cases r with
  | packet p =>
    simp only [serve, servePacket]
    split
    · exact noFault_exec _ _
    · exact noFault_refused _
  | read a n | write a n v =>
    simp only [serve, hostRead, hostWrite]
    split
    · exact noFault_next _
    · split
      · split
        · exact noFault_actEnd _
        · exact noFault_refused _
      · exact noFault_refused _
  | readElement v i =>
    simp only [serve, readElement]
    split
    · exact noFault_windowRead _ _ _
    · exact noFault_refused _
  | writeElement v i x =>
    simp only [serve, writeElement]
    split
    · exact noFault_windowWrite _ _ _ _
    · exact noFault_refused _

theorem noFault_pollOnce (s : State) : NoFault (pollOnce s) := by
  unfold pollOnce
  split
  · split
    · exact noFault_next _
    · exact noFault_next _
  · exact noFault_next _
  · exact noFault_refused _

theorem noFault_hostTurn (s : State) : NoFault (hostTurn s) := by
  unfold hostTurn
  split
  · exact noFault_pollOnce s
  · split
    · exact noFault_next _
    · exact noFault_serve _ _

/-- Settles O9: a marked state answers its mark at once, and the host's turn of an unmarked one ends without a fault. -/
theorem faultedStateEndsTheRun : Obligations.FaultedStateEndsTheRun := by
  intro s f
  unfold step
  split
  · rename_i g hg
    rw [hg, Host.Outcome.fault.injEq, Option.some.injEq]
  · rename_i hn
    rw [hn]
    split
    · exact iff_of_false (noFault_hostTurn s f) nofun
    · exact iff_of_false (noFault_refused _ f) nofun

theorem holdsBundle_of_not_mem {s : State} {b : Bundle} (h : b ∉ s.bundles) : holdsBundle s b = false :=
  decide_eq_false h

theorem holdsConfig_of_not_mem {s : State} {c : Configuration} (h : c ∉ s.configs) : holdsConfig s c = false := by
  simp [holdsConfig, h]

/-- `MAKE_CONFIG` past its checks refuses a bus the host does not hold (log 8). -/
theorem execMakeConfig_of_missing {c : Configuration} {s : State} (hc : configError c = none)
    (h : .addr c.addrBus ∉ s.bundles ∨ .data c.dataBus ∉ s.bundles) :
    execMakeConfig c s = .refused .noSuchValue := by
  rcases h with h | h <;> simp [execMakeConfig, hc, holdsBundle_of_not_mem h]

/-- `CONFIGURE` without a Handle refuses a Configuration or a bundle the host does not hold (log 8). -/
theorem execConfigure_of_missing {cfg : Configuration} {ba : BankAccess} {nbl : ByteEnable} {clk ras cas : PinId}
    {sel : CkeCs} {we : PinId} {s : State} (hh : s.handle = none)
    (h : cfg ∉ s.configs ∨ ∃ b ∈ configureBundles cfg ba nbl clk ras cas sel we, b ∉ s.bundles) :
    execConfigure cfg ba nbl clk ras cas sel we s = .refused .noSuchValue := by
  have hm : (holdsConfig s cfg && (configureBundles cfg ba nbl clk ras cas sel we).all (holdsBundle s)) = false := by
    rcases h with h | ⟨b, hb, h⟩
    · rw [holdsConfig_of_not_mem h, Bool.false_and]
    · rw [List.all_eq_false.mpr ⟨b, hb, by simp [holdsBundle_of_not_mem h]⟩, Bool.and_false]
  simp [execConfigure, hh, hm]

/-- Settles O33, operation by operation. -/
theorem missingValueIsRefused : Obligations.MissingValueIsRefused := by
  intro s
  refine ⟨fun b h => ?_, fun b h => ?_, fun b h => ?_, fun c hc h => execMakeConfig_of_missing hc h,
    fun _ _ _ _ _ _ _ _ hh h => execConfigure_of_missing hh h⟩
  · simp [exec, execPreparePins, holdsBundle_of_not_mem h]
  · simp [exec, execWidth, holdsBundle_of_not_mem h]
  · simp [exec, execBankOfPins, holdsBundle_of_not_mem h]

/-! ### Reset -/

@[simp] theorem pinOf_resetOn (p : Platform) (q : PinId) : pinOf (State.resetOn p) q = {} := by
  simp [pinOf, State.resetOn]

@[simp] theorem phaseOf_resetOn (p : Platform) (b : Bank) : phaseOf (State.resetOn p) b = .powerUp := by
  cases b <;> rfl

@[simp] theorem delayOkOf_resetOn (p : Platform) (b : Bank) : delayOkOf (State.resetOn p) b = false := by
  cases b <;> rfl

/-- No byte of a bank is listed at reset, so each is the free byte of the bank's draw (log 15). -/
theorem readByte_resetOn (p : Platform) (b : Bank) (o : Nat) :
    readByte (State.resetOn p) b o = Config.freeByte (memOf (State.resetOn p) b).draw o := by
  cases b <;> rfl

/-- Settles O12, field by field. -/
theorem resetLeavesTheStatedValues : Obligations.ResetLeavesTheStatedValues := by
  intro p
  exact ⟨rfl, rfl, rfl, rfl, rfl, rfl, rfl, rfl, pinOf_resetOn p, rfl,
    fun b => ⟨phaseOf_resetOn p b, delayOkOf_resetOn p b⟩, rfl, rfl, rfl, rfl, readByte_resetOn p⟩

/-- R50's condition on `RESET_REGS` is that the reset registers have no reserved bit set (R31). -/
theorem reservedBitsZero_resetOn {p : Platform} (h : platformOk p = true) : ReservedBitsZero (State.resetOn p) := by
  simp only [platformOk, resetRegsOk, Bool.and_eq_true, beq_iff_eq] at h
  obtain ⟨-, ⟨⟨⟨⟨⟨hcr1, hcr2⟩, htr1⟩, htr2⟩, hcmr⟩, hrtr⟩, -⟩ := h
  exact ⟨hcr1, hcr2, htr1, htr2, hcmr, hrtr, BitVec.zero_and⟩

/-- Settles O13: the registers by the platform's checks, the pins unassigned, everything else empty. -/
theorem resetSatisfiesInvariant : Obligations.ResetSatisfiesInvariant := by
  intro p hp
  exact
    { reserved := reservedBitsZero_resetOn hp
      busyInflight := by simp [BusyIffInflight, busy, State.resetOn]
      gate := rfl
      untouched := fun _ => ⟨rfl, rfl, rfl, rfl, rfl, rfl, rfl, rfl, rfl, rfl, rfl⟩
      memory := resetOn_memory_wf p
      cap := fun q r h => by simp at h
      owned := fun b hb => nomatch hb
      disjoint := ⟨.nil, fun b hb => nomatch hb⟩
      configs := fun c hc => nomatch hc
      delaySeen := fun b h => by simp at h
      polling := fun h => nomatch h }

/-! ### Register writes -/

/-- The state with everything set aside that a register write may change (20 R73, 42 R213). What is left is the gate,
the pins, the Handle, the memories, the platform and the host's own values and position. -/
def unwritten (s : State) : State :=
  { s with
    sdcr1 := 0, sdcr2 := 0, sdtr1 := 0, sdtr2 := 0, sdcmr := 0, sdrtr := 0, sdsr := 0, phase1 := .powerUp,
    phase2 := .powerUp, delayOk1 := false, delayOk2 := false, refreshProgrammed := false, inflight := none,
    events := [], busyLeft := none, draws := 0 }

theorem unwritten_issueCommand (c : Command) (s : State) : unwritten (issueCommand c s) = unwritten s :=
  stepTracks_keeps unwritten (fun _ b _ => by cases b <;> rfl) c _

/-- What only the fields that are left decide, a register write leaves alone. -/
theorem RegWritten.keeps {r : Reg} {v : Word} {s t : State} (h : RegWritten r v s t) {γ : Type} (f : State → γ)
    (hf : ∀ x, f (unwritten x) = f x) : f t = f s := by
  have hu : unwritten t = unwritten s := by
    cases h with
    | issued c _ _ _ _ ht => rw [ht, unwritten_issueCommand]; rfl
    | sdcr1 _ ht | sdcr2 _ ht | sdtr1 _ ht | sdtr2 _ ht | sdrtr _ ht | idle _ _ _ ht => rw [ht]; rfl
    | sdsr _ ht => rw [ht]
  rw [← hf t, hu, hf s]

theorem RegWritten.handle_eq {r : Reg} {v : Word} {s t : State} (h : RegWritten r v s t) : t.handle = s.handle :=
  h.keeps (·.handle) fun _ => rfl

theorem RegWritten.pins_eq {r : Reg} {v : Word} {s t : State} (h : RegWritten r v s t) : t.pins = s.pins :=
  h.keeps (·.pins) fun _ => rfl

/-! ### The event history -/

/-- Each register write stores a word or issues a command, which is an event of its own (10 R47). -/
theorem RegWritten.events_grow {r : Reg} {v : Word} {s t : State} (h : RegWritten r v s t) :
    s.events <+: t.events := by
  cases h with
  | issued c _ _ _ _ ht => rw [ht, issueCommand_events]; exact List.prefix_append ..
  | sdcr1 _ ht | sdcr2 _ ht | sdtr1 _ ht | sdtr2 _ ht | sdrtr _ ht | sdsr _ ht | idle _ _ _ ht => rw [ht]

theorem engineTurn_events_grow (s : State) : s.events <+: (engineTurn s).events := by
  rcases engineTurn_cases s with h | ⟨_, _, _, h⟩ | ⟨_, _, h⟩
  · rw [h]
  · rw [h]
  · rw [h, engineStep_events]; exact List.prefix_append ..

/-- Every small update a step is made of leaves the history or appends to it. -/
theorem stepRel_eventsGrow : StepRel fun s t => s.events <+: t.events where
  refl _ := List.prefix_rfl
  trans := List.IsPrefix.trans
  turn := engineTurn_events_grow
  event _ _ := List.prefix_append ..
  host _ _ _ _ := List.prefix_rfl
  held _ _ _ := List.prefix_rfl
  fault _ _ := List.prefix_rfl
  bind _ _ _ _ _ := List.prefix_rfl
  mark _ _ := List.prefix_rfl
  prepare _ _ := List.prefix_rfl
  gate _ := List.prefix_rfl
  handle _ _ _ := List.prefix_rfl
  write := RegWritten.events_grow
  delay b s := by rw [observeDelay_events]
  draw _ := List.prefix_rfl
  memory b m s _ := by rw [setMem_events]

/-- Settles O19: the history is kept or grown by every small update, so by every step. -/
theorem eventHistoryOnlyGrows : Obligations.EventHistoryOnlyGrows := by
  intro s t h
  obtain ⟨es, he⟩ := stepRel_eventsGrow.step h
  exact ⟨es, he.symm⟩

/-! ### The Handle -/

/-- Every small update keeps a Handle that exists; one is made only where there is none (41 R183). -/
theorem stepRel_keepsHandle : StepRel fun s t => ∀ b, s.handle = some b → t.handle = some b where
  refl _ _ h := h
  trans hst htu b h := htu b (hst b h)
  turn s b h := (engineTurn_handle s).trans h
  event _ _ _ h := h
  host _ _ _ _ _ h := h
  held _ _ _ _ h := h
  fault _ _ _ h := h
  bind _ _ _ _ _ _ h := h
  mark _ _ _ h := h
  prepare _ _ _ h := h
  gate _ _ h := h
  handle _ s hn b h := by rw [hn] at h; cases h
  write hw b h := hw.handle_eq.trans h
  delay c s b h := (observeDelay_handle c s).trans h
  draw _ _ h := h
  memory c m s _ b h := (setMem_handle c m s).trans h

/-- Settles O18: the Handle is kept by every small update, so by every step. -/
theorem handleIsFixedForLife : Obligations.HandleIsFixedForLife :=
  fun _ _ b hb hs => stepRel_keepsHandle.step hs b hb

/-! ### Pins -/

/-- A pin's record after it kept its role and its flags (10 R33). -/
def PinKept (q r : PinState) : Prop :=
  (q.binding ≠ .unassigned → r.binding = q.binding) ∧ (q.inBundle = true → r.inBundle = true) ∧
    (q.slewHigh = true → r.slewHigh = true) ∧ (q.pullupOff = true → r.pullupOff = true)

theorem PinKept.refl {q : PinState} : PinKept q q := ⟨fun _ => rfl, id, id, id⟩

theorem PinKept.of_eq {q r : PinState} (h : r = q) : PinKept q r := h ▸ PinKept.refl

theorem PinKept.trans {q r u : PinState} (hqr : PinKept q r) (hru : PinKept r u) : PinKept q u := by
  obtain ⟨hb, hi, hs, hp⟩ := hqr
  obtain ⟨hb', hi', hs', hp'⟩ := hru
  exact ⟨fun h => (hb' (by rwa [hb h])).trans (hb h), hi' ∘ hi, hs' ∘ hs, hp' ∘ hp⟩

/-- Replacing one pin's record by one that keeps its role and flags keeps those of every pin. -/
theorem pinKept_setPin {p : PinId} {r : PinState} {s : State} (h : PinKept (pinOf s p) r) (q : PinId) :
    PinKept (pinOf s q) (pinOf (setPin p r s) q) := by
  rw [pinOf_setPin]
  split
  · rename_i hq; exact hq ▸ h
  · exact .refl

/-- A pin is bound only while it is unassigned, and marking or preparing it only sets flags. -/
theorem stepRel_keepsPins : StepRel fun s t => ∀ p, PinKept (pinOf s p) (pinOf t p) where
  refl _ _ := .refl
  trans hst htu p := (hst p).trans (htu p)
  turn s p := .of_eq (pinOf_engineTurn s p)
  event _ _ _ := .refl
  host _ _ _ _ _ := .refl
  held _ _ _ _ := .refl
  fault _ _ _ := .refl
  bind _ _ _ _ hu := pinKept_setPin ⟨fun h => absurd hu h, id, id, id⟩
  mark _ _ := pinKept_setPin ⟨fun _ => rfl, fun _ => rfl, id, id⟩
  prepare _ _ := pinKept_setPin ⟨fun _ => rfl, id, fun _ => rfl, fun _ => rfl⟩
  gate _ _ := .refl
  handle _ _ _ _ := .refl
  write hw p := .of_eq (pinOf_congr hw.pins_eq p)
  delay b s p := .of_eq (pinOf_congr (observeDelay_pins b s) p)
  draw _ _ := .refl
  memory b m s _ p := .of_eq (pinOf_congr (setMem_pins b m s) p)

/-- Settles O20: every pin is kept by every small update, so by every step. -/
theorem pinsAreNeverGivenBack : Obligations.PinsAreNeverGivenBack :=
  fun _ _ p hs => stepRel_keepsPins.step hs p

/-! ### Reserved bits -/

/-- Setting `BUSY` sets no reserved bit of the status word. -/
theorem or_busyWord_reserved {w : Word} (h : w &&& ~~~ busyWord = 0) : (w ||| busyWord) &&& ~~~ busyWord = 0 := by
  rw [BitVec.and_or_distrib_right]
  simp [h]

/-- Clearing `BUSY` leaves a status word without reserved bits. -/
theorem and_not_busyWord_reserved {w : Word} (h : w &&& ~~~ busyWord = 0) :
    (w &&& ~~~ busyWord) &&& ~~~ busyWord = 0 := by
  simp [h]

/-- The registers decide whether reserved bits are 0. -/
theorem reservedBitsZero_congr {s t : State} (hs : ReservedBitsZero s) (h : ∀ r, regValue t r = regValue s r) :
    ReservedBitsZero t := by
  obtain ⟨h1, h2, h3, h4, h5, h6, h7⟩ := hs
  have e1 : t.sdcr1 = s.sdcr1 := h .sdcr1
  have e2 : t.sdcr2 = s.sdcr2 := h .sdcr2
  have e3 : t.sdtr1 = s.sdtr1 := h .sdtr1
  have e4 : t.sdtr2 = s.sdtr2 := h .sdtr2
  have e5 : t.sdcmr = s.sdcmr := h .sdcmr
  have e6 : t.sdrtr = s.sdrtr := h .sdrtr
  have e7 : t.sdsr = s.sdsr := h .sdsr
  exact ⟨e1 ▸ h1, e2 ▸ h2, e3 ▸ h3, e4 ▸ h4, e5 ▸ h5, e6 ▸ h6, e7 ▸ h7⟩

theorem engineStep_reservedBitsZero {s : State} (h : ReservedBitsZero s) : ReservedBitsZero (engineStep s) := by
  obtain ⟨h1, h2, h3, h4, h5, h6, h7⟩ := h
  exact ⟨h1, h2, h3, h4, h5, h6, and_not_busyWord_reserved h7⟩

theorem engineTurn_reservedBitsZero {s : State} (h : ReservedBitsZero s) : ReservedBitsZero (engineTurn s) := by
  rcases engineTurn_cases s with e | ⟨_, _, _, e⟩ | ⟨_, _, e⟩
  · rwa [e]
  · rw [e]; exact h
  · rw [e]; exact engineStep_reservedBitsZero h

theorem issueCommand_reservedBitsZero {c : Command} {s : State} (h : ReservedBitsZero s) :
    ReservedBitsZero (issueCommand c s) := by
  obtain ⟨h1, h2, h3, h4, h5, h6, h7⟩ := h
  exact ⟨by simpa, by simpa, by simpa, by simpa, by simpa, by simpa, by simpa using or_busyWord_reserved h7⟩

/-- A write stores the value cut to the register's writable mask (10 R31, 20 R73). -/
theorem RegWritten.reservedBitsZero {r : Reg} {v : Word} {s t : State} (hw : RegWritten r v s t)
    (h : ReservedBitsZero s) : ReservedBitsZero t := by
  obtain ⟨h1, h2, h3, h4, h5, h6, h7⟩ := h
  cases hw with
  | sdcr1 _ ht => exact ht ▸ ⟨and_mask_not .., h2, h3, h4, h5, h6, h7⟩
  | sdcr2 _ ht => exact ht ▸ ⟨h1, and_mask_not .., h3, h4, h5, h6, h7⟩
  | sdtr1 _ ht => exact ht ▸ ⟨h1, h2, and_mask_not .., h4, h5, h6, h7⟩
  | sdtr2 _ ht => exact ht ▸ ⟨h1, h2, h3, and_mask_not .., h5, h6, h7⟩
  | sdrtr _ ht => exact ht ▸ ⟨h1, h2, h3, h4, h5, and_mask_not .., h7⟩
  | sdsr _ ht => exact ht ▸ ⟨h1, h2, h3, h4, h5, h6, h7⟩
  | idle _ _ _ ht => exact ht ▸ ⟨h1, h2, h3, h4, and_mask_not .., h6, h7⟩
  | issued c _ _ _ _ ht =>
    exact ht ▸ issueCommand_reservedBitsZero ⟨h1, h2, h3, h4, and_mask_not .., h6, h7⟩

/-- Only the engine and register writes change a register, and both keep its reserved bits 0. -/
theorem stepRel_keepsReservedBits : StepRel fun s t => ReservedBitsZero s → ReservedBitsZero t where
  refl _ := id
  trans hst htu := htu ∘ hst
  turn _ := engineTurn_reservedBitsZero
  event _ _ := id
  host _ _ _ _ := id
  held _ _ _ := id
  fault _ _ := id
  bind _ _ _ _ _ := id
  mark _ _ := id
  prepare _ _ := id
  gate _ := id
  handle _ _ _ := id
  write := RegWritten.reservedBitsZero
  delay b s h := reservedBitsZero_congr h fun r => by cases r <;> simp [regValue]
  draw _ := id
  memory b m s _ h := reservedBitsZero_congr h fun r => by cases r <;> simp [regValue]

/-- Settles O15: reserved bits are kept 0 by every small update, so by every step. -/
theorem stepKeepsReservedBitsZero : Obligations.StepKeepsReservedBitsZero :=
  fun _ _ h hs => stepRel_keepsReservedBits.step hs h

/-! ### `BUSY` and the command in flight -/

/-- `BUSY` and the command in flight decide the invariant of 10 R45. -/
theorem busyIffInflight_congr {s t : State} (h : BusyIffInflight s) (hb : t.sdsr = s.sdsr)
    (hi : t.inflight = s.inflight) : BusyIffInflight t := by
  unfold BusyIffInflight
  rw [busy_congr hb, hi]
  exact h

theorem issueCommand_busyIffInflight (c : Command) (s : State) : BusyIffInflight (issueCommand c s) := by
  simp [BusyIffInflight]

theorem RegWritten.busyIffInflight {r : Reg} {v : Word} {s t : State} (hw : RegWritten r v s t)
    (h : BusyIffInflight s) : BusyIffInflight t := by
  cases hw with
  | issued c _ _ _ _ ht => exact ht ▸ issueCommand_busyIffInflight c _
  | sdcr1 _ ht | sdcr2 _ ht | sdtr1 _ ht | sdtr2 _ ht | sdrtr _ ht | sdsr _ ht | idle _ _ _ ht =>
    exact ht ▸ busyIffInflight_congr h rfl rfl

/-- Only the engine and an issued command change `BUSY` or `inflight`, and both change the two together. -/
theorem stepRel_keepsBusyIffInflight : StepRel fun s t => BusyIffInflight s → BusyIffInflight t where
  refl _ := id
  trans hst htu := htu ∘ hst
  turn _ := busyIffInflight_engineTurn
  event _ _ := id
  host _ _ _ _ := id
  held _ _ _ := id
  fault _ _ := id
  bind _ _ _ _ _ := id
  mark _ _ := id
  prepare _ _ := id
  gate _ := id
  handle _ _ _ := id
  write := RegWritten.busyIffInflight
  delay b s h := busyIffInflight_congr h (observeDelay_sdsr b s) (observeDelay_inflight b s)
  draw _ := id
  memory b m s _ h := busyIffInflight_congr h (setMem_sdsr b m s) (setMem_inflight b m s)

theorem cmdModeBits_ne_zero_of_command {w : Word} {c : Command} (h : commandOf w = some c) : cmdModeBits w ≠ 0 := by
  intro h0
  simp [commandOf, h0] at h

/-- A completed write of `SDCMR` with a word that issues a command has issued it (42 R213). -/
theorem RegWritten.eq_issueCommand {w : Word} {s t : State} {c : Command} (hw : RegWritten .sdcmr w s t)
    (hc : commandOf w = some c) : t = issueCommand c { s with sdcmr := w &&& maskCMR } := by
  cases hw with
  | issued d _ _ _ hd ht =>
    rw [hc] at hd
    cases hd
    exact ht
  | idle _ _ hm _ => exact absurd hm (cmdModeBits_ne_zero_of_command hc)
  | sdcr1 hr | sdcr2 hr | sdtr1 hr | sdtr2 hr | sdrtr hr | sdsr hr => cases hr

/-- Settles O16: the issue and the engine's step by what they set, every step by the small updates it is made of. -/
theorem busyIffCommandInFlight : Obligations.BusyIffCommandInFlight := by
  refine ⟨fun w s t c _ _ _ hc hw => ?_, fun s => ⟨engineStep_inflight s, busy_engineStep s⟩,
    fun s t h hs => stepRel_keepsBusyIffInflight.step hs h⟩
  rw [(regWrite_done hw).2.eq_issueCommand hc]
  exact ⟨issueCommand_inflight .., busy_issueCommand ..⟩

/-! ### The refresh mark -/

/-- `refresh_programmed` is not lost, and is true where `SDRTR` changed (10 R43). -/
def RefreshMarkKept (s t : State) : Prop :=
  (s.refreshProgrammed = true → t.refreshProgrammed = true) ∧ (t.sdrtr ≠ s.sdrtr → t.refreshProgrammed = true)

theorem RefreshMarkKept.of_eq {s t : State} (hm : t.refreshProgrammed = s.refreshProgrammed)
    (hr : t.sdrtr = s.sdrtr) : RefreshMarkKept s t :=
  ⟨fun h => hm.trans h, fun h => absurd hr h⟩

theorem RefreshMarkKept.trans {s t u : State} (hst : RefreshMarkKept s t) (htu : RefreshMarkKept t u) :
    RefreshMarkKept s u := by
  refine ⟨htu.1 ∘ hst.1, fun h => ?_⟩
  by_cases hu : u.sdrtr = t.sdrtr
  · exact htu.1 (hst.2 (hu ▸ h))
  · exact htu.2 hu

theorem RegWritten.refreshMarkKept {r : Reg} {v : Word} {s t : State} (hw : RegWritten r v s t) :
    RefreshMarkKept s t := by
  cases hw with
  | sdrtr _ ht => exact ht ▸ ⟨fun _ => rfl, fun _ => rfl⟩
  | issued c _ _ _ _ ht => exact ht ▸ .of_eq (by simp) (by simp)
  | sdcr1 _ ht | sdcr2 _ ht | sdtr1 _ ht | sdtr2 _ ht | sdsr _ ht | idle _ _ _ ht => exact ht ▸ .of_eq rfl rfl

/-- Only the write of `SDRTR` changes the register or the mark, and it sets the mark. -/
theorem stepRel_keepsRefreshMark : StepRel RefreshMarkKept where
  refl _ := .of_eq rfl rfl
  trans := RefreshMarkKept.trans
  turn s := .of_eq (engineTurn_refreshProgrammed s) (engineTurn_sdrtr s)
  event _ _ := .of_eq rfl rfl
  host _ _ _ _ := .of_eq rfl rfl
  held _ _ _ := .of_eq rfl rfl
  fault _ _ := .of_eq rfl rfl
  bind _ _ _ _ _ := .of_eq rfl rfl
  mark _ _ := .of_eq rfl rfl
  prepare _ _ := .of_eq rfl rfl
  gate _ := .of_eq rfl rfl
  handle _ _ _ := .of_eq rfl rfl
  write := RegWritten.refreshMarkKept
  delay b s := .of_eq (observeDelay_refreshProgrammed b s) (observeDelay_sdrtr b s)
  draw _ := .of_eq rfl rfl
  memory b m s _ := .of_eq (setMem_refreshProgrammed b m s) (setMem_sdrtr b m s)

/-- A completed write of `SDRTR` sets the mark (10 R43). -/
theorem RegWritten.refreshProgrammed_of_sdrtr {v : Word} {s t : State} (hw : RegWritten .sdrtr v s t) :
    t.refreshProgrammed = true := by
  cases hw with
  | sdrtr _ ht => rw [ht]
  | sdcr1 hr | sdcr2 hr | sdtr1 hr | sdtr2 hr | sdsr hr | idle hr | issued _ hr => cases hr

/-- Settles O22: the mark at reset, after a write of `SDRTR`, and after every step. -/
theorem refreshProgrammedIsKept : Obligations.RefreshProgrammedIsKept :=
  ⟨fun _ => rfl, fun _ _ _ hw => (regWrite_done hw).2.refreshProgrammed_of_sdrtr,
    fun _ _ hs => stepRel_keepsRefreshMark.step hs⟩

end Sys2Proof.Machine

/-! What one step can be: a quiet update, one register write, a bundle taken, a Configuration made, or a `CONFIGURE`;
and from that the phases (10_state R41) and the invariant of the machine. -/

namespace Sys2Proof.Machine

/-! ### Quiet updates -/

/-- The state with everything set aside that a quiet update may change. What is left is the writable registers, the
gate, the Handle, the phases, the refresh mark, the platform and the values the host holds. -/
def still (s : State) : State :=
  { s with
    sdsr := 0, pins := Vector.replicate 256 {}, delayOk1 := false, delayOk2 := false, inflight := none, events := [],
    mem1 := ⟨0, []⟩, mem2 := ⟨0, []⟩, faulted := none, result := none, polling := false, busyLeft := none, draws := 0,
    queue := [] }

/-- An update that writes no register, gives no Handle and no value to the host, and starts no command and no
polling. -/
structure Quiet (s t : State) : Prop where
  still_eq : still t = still s
  events : s.events <+: t.events
  inflight : s.inflight = none → t.inflight = none
  polling : t.polling = true → s.polling = true

namespace Quiet

variable {s t u : State}

theorem refl : Quiet s s := ⟨rfl, List.prefix_rfl, id, id⟩

theorem trans (hst : Quiet s t) (htu : Quiet t u) : Quiet s u :=
  ⟨htu.still_eq.trans hst.still_eq, hst.events.trans htu.events, htu.inflight ∘ hst.inflight, hst.polling ∘ htu.polling⟩

/-- What only the fields that are left decide, a quiet update leaves alone. -/
theorem keeps (h : Quiet s t) {γ : Type} (f : State → γ) (hf : ∀ x, f (still x) = f x) : f t = f s := by
  rw [← hf t, h.still_eq, hf s]

theorem phaseOf_eq (h : Quiet s t) (b : Bank) : phaseOf t b = phaseOf s b :=
  h.keeps (phaseOf · b) fun _ => by cases b <;> exact rfl

theorem turn (s : State) : Quiet s (engineTurn s) where
  still_eq := engineTurn_keeps still s rfl fun _ => rfl
  events := engineTurn_events_grow s
  inflight h := by rw [engineTurn_idle h, h]
  polling h := (engineTurn_polling s).symm.trans h

theorem event (e : Event) (s : State) : Quiet s (emit e s) := ⟨rfl, List.prefix_append .., id, id⟩

theorem told (s : State) (r : Option Result) (d : Nat) : Quiet s { s with result := r, draws := d } :=
  ⟨rfl, List.prefix_rfl, id, id⟩

theorem pollEnd (s : State) (r : Option Result) : Quiet s { s with polling := false, result := r } :=
  ⟨rfl, List.prefix_rfl, id, fun h => nomatch h⟩

theorem fault (f : Fault) (s : State) : Quiet s { s with faulted := some f } := ⟨rfl, List.prefix_rfl, id, id⟩

theorem setPin (p : PinId) (q : PinState) (s : State) : Quiet s (setPin p q s) :=
  ⟨rfl, List.prefix_rfl, id, id⟩

theorem setMem (b : Bank) (m : Memory) (s : State) : Quiet s (setMem b m s) := by
  cases b <;> exact ⟨rfl, List.prefix_rfl, id, id⟩

theorem turnEvent (e : Event) (s : State) : Quiet s (emit e (engineTurn s)) := (turn s).trans (event e _)

theorem updatePin (p : PinId) (f : PinState → PinState) (s : State) : Quiet s (updatePin p f s) :=
  (turn s).trans (setPin ..)

theorem preparePin (s : State) (p : PinId) : Quiet s (preparePin s p) := (updatePin ..).trans (event ..)

theorem foldl {α : Type} {f : State → α → State} (hf : ∀ s a, Quiet s (f s a)) (l : List α) (s : State) :
    Quiet s (l.foldl f s) := by
  induction l generalizing s with
  | nil => exact refl
  | cons a l ih => exact (hf s a).trans (ih _)

/-- A delay seen sets `delay_ok` of a bank whose phase it leaves as it is (42 R217). -/
theorem observeDelay (b : Bank) (s : State) : Quiet s (observeDelay b s) := by
  unfold Machine.observeDelay
  split
  · rename_i h
    cases b <;> exact ⟨by simp only [setTrack, still, ← h, phaseOf], List.prefix_rfl, id, id⟩
  · exact refl

theorem regRead {r : Reg} {w : Word} (h : regRead r s = .done w t) : Quiet s t := by
  rw [regRead_eq] at h
  split at h
  · cases h
    exact turnEvent ..
  · cases h

theorem regReadHalt {r : Reg} (h : Machine.regRead r s = .halt t) : Quiet s t := by
  rw [regRead_eq] at h
  split at h
  · cases h
  · cases h
    exact (turn s).trans (fault ..)

theorem regWriteHalt {r : Reg} {v : Word} (h : regWrite r v s = .halt t) : Quiet s t := by
  rcases regWrite_halt h with ⟨-, rfl⟩ | ⟨-, -, -, rfl⟩
  · exact (turn s).trans (fault ..)
  · exact (turnEvent ..).trans (fault ..)

theorem setFieldsHalt {r : Reg} {fs : List (Field × Nat)} (h : setFields r fs s = .halt t) : Quiet s t := by
  rcases setFields_halt h with ⟨-, rfl⟩ | ⟨v, u, rfl, hw⟩
  · exact (turn s).trans (fault ..)
  · exact (turnEvent ..).trans (regWriteHalt hw)

theorem delayed (n : Nat) (s : State) :
    Quiet s (if 1 ≤ n then Machine.observeDelay .bank2 (Machine.observeDelay .bank1 (emit (.delayed n) (engineTurn s)))
      else emit (.delayed n) (engineTurn s)) := by
  split
  · exact (turnEvent ..).trans ((observeDelay ..).trans (observeDelay ..))
  · exact turnEvent ..

theorem memRead (b : Bank) (o a n : Nat) (s : State) : Quiet s (memRead b o a n s) := by
  rcases memRead_cases b o a n s with ⟨-, h⟩ | ⟨-, h⟩
  · rw [h]
    exact (turnEvent ..).trans (told ..)
  · rw [h]
    exact (turnEvent ..).trans (told ..)

theorem memWrite (b : Bank) (o a n v : Nat) (s : State) : Quiet s (memWrite b o a n v s) := by
  have ht := (turnEvent (.memWriteEv a n (littleEndianBytes n v)) s).trans (told _ (some .unit) (engineTurn s).draws)
  rcases memWrite_cases b o a n v s with ⟨-, -, h⟩ | ⟨-, -, h⟩ | ⟨-, h⟩
  · rw [h]
    exact ht.trans (setMem ..)
  · rw [h]
    exact ht
  · rw [h]
    exact ht.trans ((setMem ..).trans (told ..))

end Quiet

/-! ### Register writes -/

/-- The two coordinates of a bank's tracker after an issue (42 R213, R216, R231). -/
theorem track_issueCommand (c : Command) (s : State) (b : Bank) :
    (phaseOf (issueCommand c s) b, delayOkOf (issueCommand c s) b) =
      if targets c b then nextTrack c.mode (phaseOf s b) (delayOkOf s b) else (phaseOf s b, delayOkOf s b) := by
  obtain ⟨mode, ctb1, ctb2, nrfs, mrd⟩ := c
  cases b <;> cases ctb1 <;> cases ctb2 <;> rfl

/-- A register write leaves the tracker alone or issues a command (10 R41). -/
theorem RegWritten.track_cases {r : Reg} {v : Word} {s t : State} (h : RegWritten r v s t) :
    (∀ b, phaseOf t b = phaseOf s b ∧ delayOkOf t b = delayOkOf s b) ∨
      ∃ c cmr, r = .sdcmr ∧ t = issueCommand c { s with sdcmr := cmr } := by
  cases h with
  | issued c hr _ _ _ ht => exact .inr ⟨c, _, hr, ht⟩
  | sdcr1 _ ht | sdcr2 _ ht | sdtr1 _ ht | sdtr2 _ ht | sdrtr _ ht | sdsr _ ht | idle _ _ _ ht =>
    exact .inl fun b => ht ▸ ⟨by cases b <;> rfl, by cases b <;> rfl⟩

/-- The phases and the values the host holds: what the register programmer leaves alone (41 R186 to R189). -/
def besideRegisters (s : State) : Phase × Phase × List Bundle × List Configuration :=
  (s.phase1, s.phase2, s.bundles, s.configs)

theorem setFields_besideRegisters {r : Reg} {fs : List (Field × Nat)} {s t : State} (hr : r ≠ .sdcmr)
    (h : setFields r fs s = .done () t) : besideRegisters t = besideRegisters s := by
  obtain ⟨-, u, rfl, hw⟩ := setFields_done h
  obtain ⟨-, hw⟩ := regWrite_done hw
  cases hw with
  | idle h _ _ _ | issued _ h _ _ _ _ => exact absurd h hr
  | sdcr1 _ ht | sdcr2 _ ht | sdtr1 _ ht | sdtr2 _ ht | sdrtr _ ht | sdsr _ ht => simp [ht, besideRegisters]

theorem programControl_besideRegisters {b : Bank} {cfg : Configuration} {ba : BankAccess} {s t : State}
    (h : programControl b cfg ba s = .done () t) : besideRegisters t = besideRegisters s := by
  cases b with
  | bank1 => exact setFields_besideRegisters (by decide) h
  | bank2 =>
    obtain ⟨_, u, hu, ht⟩ := actThen_done h
    exact (setFields_besideRegisters (by decide) ht).trans (setFields_besideRegisters (by decide) hu)

theorem programTiming_besideRegisters {b : Bank} {tm : Timing} {s t : State}
    (h : programTiming b tm s = .done () t) : besideRegisters t = besideRegisters s := by
  cases b with
  | bank1 => exact setFields_besideRegisters (by decide) h
  | bank2 =>
    obtain ⟨_, u, hu, ht⟩ := actThen_done h
    exact (setFields_besideRegisters (by decide) ht).trans (setFields_besideRegisters (by decide) hu)

/-! ### What one step can be -/

/-- What a step that answers a next state is, as seen by the phases, the gate, the Handle and the host's values. -/
inductive Move (s : State) : State → Prop where
  | quiet {t : State} (h : Quiet s t) : Move s t
  /-- One register write, after a turn of the engine or two (20 R73); a host that polls from then on has the Handle
  (42 R212). -/
  | written {r : Reg} {v : Word} {u w : State} {p : Bool} {x : Option Result} (hu : Quiet s u)
      (hd : ∀ b, delayOkOf u b = delayOkOf s b) (hg : s.clkGate = true) (hw : RegWritten r v u w)
      (hp : p = true → w.polling = true ∨ s.handle.isSome = true) : Move s { w with polling := p, result := x }
  /-- 40 R143 to R150. -/
  | taken (b : Bundle) (ht : takeError (bundlePins b) (bundleRoles b) s = none) :
      Move s { markPins (bundlePins b) s with bundles := s.bundles ++ [b], result := some (.bundle b) }
  /-- 41 R181. -/
  | configMade (c : Configuration) (hc : configError c = none) :
      Move s { s with configs := s.configs ++ [c], result := some (.config c) }
  /-- 41 R183, R190: the gate and the Handle; the values it was given are consumed. -/
  | configured {t : State} (hg : t.clkGate = true) (hh : t.handle.isSome = true)
      (hphase : ∀ b, phaseOf t b = phaseOf s b) (hb : t.bundles.Sublist s.bundles)
      (hc : t.configs.Sublist s.configs) : Move s t

theorem delayOkOf_engineTurn (s : State) (b : Bank) : delayOkOf (engineTurn s) b = delayOkOf s b :=
  delayOkOf_congr (engineTurn_delayOk1 s) (engineTurn_delayOk2 s) b

/-- A completed `RegWrite`, whatever the host is told after it. -/
theorem Move.regWrite {r : Reg} {v : Word} {s t : State} {p : Bool} {x : Option Result}
    (h : regWrite r v s = .done () t) (hp : p = true → t.polling = true ∨ s.handle.isSome = true) :
    Move s { t with polling := p, result := x } := by
  obtain ⟨hg, hw⟩ := regWrite_done h
  exact .written (.turnEvent ..) (delayOkOf_engineTurn s) hg hw hp

/-- A completed `SetFields`: its read is quiet, its write is the write (20 R76). -/
theorem Move.setFields {r : Reg} {fs : List (Field × Nat)} {s t : State} {x : Option Result}
    (h : setFields r fs s = .done () t) : Move s { t with result := x } := by
  obtain ⟨hg, u, rfl, hw⟩ := setFields_done h
  obtain ⟨-, hw⟩ := regWrite_done hw
  refine .written ((Quiet.turnEvent ..).trans (.turnEvent ..)) (fun b => ?_) hg hw .inl
  exact (delayOkOf_engineTurn _ b).trans (delayOkOf_engineTurn s b)

/-- `CONFIGURE` that ran to its end (41 R182). -/
theorem Move.configure {b : Bank} {cfg : Configuration} {ba : BankAccess} {bs : List Bundle} {s u v : State}
    {x : Option Result} (hu : programControl b cfg ba (gateAndPrepare bs s) = .done () u)
    (hv : programTiming b cfg.timing u = .done () v) : Move s { takeHandle b cfg bs v with result := x } := by
  have hbeside : besideRegisters v = besideRegisters (gateAndPrepare bs s) :=
    (programTiming_besideRegisters hv).trans (programControl_besideRegisters hu)
  simp only [besideRegisters, gateAndPrepare_phase1, gateAndPrepare_phase2, gateAndPrepare_bundles,
    gateAndPrepare_configs, Prod.mk.injEq] at hbeside
  obtain ⟨hp1, hp2, hb, hc⟩ := hbeside
  obtain ⟨u', hu', gu⟩ := programControl_of_gate b cfg ba (gateAndPrepare_clkGate_true bs s)
  cases hu.symm.trans hu'
  obtain ⟨v', hv', gv⟩ := programTiming_of_gate b cfg.timing gu
  cases hv.symm.trans hv'
  exact .configured gv rfl (fun c => phaseOf_congr hp1 hp2 c) (hb ▸ List.filter_sublist) (hc ▸ List.erase_sublist)

theorem Effect.move {i : Instr} {s t : State} (h : Effect s i t) : Move s t := by
  cases h with
  | rejected i code => exact .quiet ((Quiet.event _ s).trans (.told ..))
  | told i r hr => exact .quiet (.told ..)
  | bound p r hc hu => exact .quiet ((Quiet.updatePin ..).trans (.told ..))
  | taken i b hi ht => exact .taken b ht
  | prepared b hb => exact .quiet ((Quiet.foldl .preparePin _ s).trans (.told ..))
  | configMade c hc ha hd => exact .configMade c hc
  | configured cfg ba nbl clk ras cas sel we u v hh hc he hb hu hv => exact .configure hu hv
  | sent c b u hh hw => exact .regWrite hw fun _ => .inr (by rw [hh]; rfl)
  | fieldSet i r f n b u hh hf hw => exact .setFields hw
  | flagRead b w u hh hw => exact .quiet ((Quiet.regRead hw).trans (.told ..))
  | delayed n => exact .quiet ((Quiet.delayed n s).trans (.told ..))
  | rawWritten i w u hw => exact .regWrite hw .inl
  | readFaulted i r u hr => exact .quiet ((Quiet.regReadHalt hr).trans (.told ..))
  | writeFaulted i r w u hw => exact .quiet ((Quiet.regWriteHalt hw).trans (.told ..))
  | fieldFaulted i r f n u hw => exact .quiet ((Quiet.setFieldsHalt hw).trans (.told ..))

theorem pollOnce_move {s t : State} (h : pollOnce s = .next t) : Move s t := by
  unfold pollOnce at h
  split at h
  · rename_i w u hu
    split at h
    · cases h
      exact .quiet (.regRead hu)
    · cases h
      exact .quiet ((Quiet.regRead hu).trans (.pollEnd ..))
  · rename_i u hu
    cases h
    exact .quiet ((Quiet.regReadHalt hu).trans (.pollEnd ..))
  · cases h

theorem serve_move {r : Request} {s t : State} (h : serve r s = .next t) : Move s t := by
  rcases serve_next h with ⟨p, i, -, -, hx⟩ | ⟨a, n, b, o, -, -, rfl⟩ | ⟨a, n, v, b, o, -, -, rfl⟩ |
    ⟨a, q, -, hx⟩ | ⟨a, v, q, -, hx⟩
  · exact (exec_next hx).move
  · exact .quiet (.memRead ..)
  · exact .quiet (.memWrite ..)
  · rcases actEnd_next hx with ⟨x, u, hd, rfl⟩ | ⟨u, hd, rfl⟩
    · obtain ⟨w, y, hy, hd⟩ := actThen_done hd
      cases hd
      exact .quiet ((Quiet.regRead hy).trans (.told ..))
    · rcases actThen_halt hd with hy | ⟨_, y, _, hd⟩
      · exact .quiet ((Quiet.regReadHalt hy).trans (.told ..))
      · cases hd
  · rcases actEnd_next hx with ⟨x, u, hd, rfl⟩ | ⟨u, hd, rfl⟩
    · obtain ⟨w, y, hy, hd⟩ := actThen_done hd
      cases hd
      exact .regWrite hy .inl
    · rcases actThen_halt hd with hy | ⟨_, y, _, hd⟩
      · exact .quiet ((Quiet.regWriteHalt hy).trans (.told ..))
      · cases hd

/-- A step is a move from the state whose request has left the queue. -/
theorem step_move {s t : State} (h : step s = .next t) : ∃ q, Move { s with queue := q } t := by
  obtain ⟨-, -, ⟨-, hp⟩ | ⟨-, -, rfl⟩ | ⟨r, rest, -, -, hr⟩⟩ := step_next h
  · exact ⟨s.queue, pollOnce_move hp⟩
  · exact ⟨s.queue, .quiet (.turn s)⟩
  · exact ⟨rest, serve_move hr⟩

/-! ### Phases -/

/-- A step made this bank's phase what an issued command that targets it makes of it (10 R41, 42 R216). -/
def PhaseMoved (s t : State) (b : Bank) : Prop :=
  ∃ c es, t.events = s.events ++ es ∧ Event.cmdIssued c ∈ es ∧ targets c b = true ∧
    phaseOf t b = (nextTrack c.mode (phaseOf s b) (delayOkOf s b)).1

theorem phaseMoved_issueCommand {s : State} {b : Bank} {c : Command} (h : targets c b = true) :
    PhaseMoved s (issueCommand c s) b := by
  have ht := congrArg Prod.fst (track_issueCommand c s b)
  rw [if_pos h] at ht
  exact ⟨c, [.cmdIssued c], issueCommand_events c s, List.mem_singleton_self _, h, ht⟩

theorem phaseOf_issueCommand_untargeted {s : State} {b : Bank} {c : Command} (h : targets c b = false) :
    phaseOf (issueCommand c s) b = phaseOf s b := by
  have ht := congrArg Prod.fst (track_issueCommand c s b)
  rwa [if_neg (by rw [h]; decide)] at ht

/-- A phase moved after an update that left the tracker alone is moved by the whole. -/
theorem PhaseMoved.of_prefix {s u t : State} {b : Bank} (he : s.events <+: u.events)
    (hp : phaseOf u b = phaseOf s b) (hd : delayOkOf u b = delayOkOf s b) (h : PhaseMoved u t b) :
    PhaseMoved s t b := by
  obtain ⟨c, es, het, hc, hb, ht⟩ := h
  obtain ⟨es', hes⟩ := he
  refine ⟨c, es' ++ es, ?_, List.mem_append_right _ hc, hb, ?_⟩
  · rw [het, ← hes, List.append_assoc]
  · rw [ht, hp, hd]

theorem Move.phase_cases {s t : State} (h : Move s t) (b : Bank) :
    phaseOf t b = phaseOf s b ∨ PhaseMoved s t b := by
  cases h with
  | quiet h => exact .inl (h.phaseOf_eq b)
  | @written r v u w p x hu hd hg hw hp =>
    rcases hw.track_cases with hkeep | ⟨c, cmr, -, rfl⟩
    · exact .inl ((hkeep b).1.trans (hu.phaseOf_eq b))
    · cases hc : targets c b with
      | false => exact .inl ((phaseOf_issueCommand_untargeted hc).trans (hu.phaseOf_eq b))
      | true => exact .inr ((phaseMoved_issueCommand hc).of_prefix hu.events (hu.phaseOf_eq b) (hd b))
  | taken c ht => exact .inl (phaseOf_congr (markPins_phase1 _ s) (markPins_phase2 _ s) b)
  | configMade c hc => exact .inl rfl
  | configured hg hh hphase hb hc => exact .inl (hphase b)

/-- Settles O21, by what one step can be. -/
theorem phaseMovesOnlyByIssuedCommand : Obligations.PhaseMovesOnlyByIssuedCommand := by
  intro s t b hs hne
  obtain ⟨q, hm⟩ := step_move hs
  exact (hm.phase_cases b).resolve_left hne

/-! ### The delay before a bank's later phases -/

/-- The table of R216 leads past `ClockEnabled` only from a phase whose delay was seen. -/
theorem nextTrack_delaySeen (m : CmdMode) (p : Phase) (d : Bool)
    (h : p = .precharged ∨ p = .refreshed ∨ p = .modeLoaded → d = true) :
    (nextTrack m p d).1 = .precharged ∨ (nextTrack m p d).1 = .refreshed ∨ (nextTrack m p d).1 = .modeLoaded →
      (nextTrack m p d).2 = true := by
  unfold nextTrack
  split
  · simp
  · simp
  · simpa using h
  · simpa using h
  · simp

/-- The tracker decides whether every delay was seen. -/
theorem delaySeen_of_track {s t : State} (h : DelaySeen s)
    (ht : ∀ b, phaseOf t b = phaseOf s b ∧ (delayOkOf s b = true → delayOkOf t b = true)) : DelaySeen t := by
  intro b hb
  obtain ⟨hp, hd⟩ := ht b
  exact hd (h b (hp ▸ hb))

theorem issueCommand_delaySeen {c : Command} {s : State} (h : DelaySeen s) : DelaySeen (issueCommand c s) := by
  intro b
  have ht := track_issueCommand c s b
  split at ht
  · obtain ⟨hp, hd⟩ := Prod.mk.inj ht
    rw [hp, hd]
    exact nextTrack_delaySeen c.mode _ _ (h b)
  · obtain ⟨hp, hd⟩ := Prod.mk.inj ht
    rw [hp, hd]
    exact h b

theorem RegWritten.delaySeen {r : Reg} {v : Word} {s t : State} (hw : RegWritten r v s t) (h : DelaySeen s) :
    DelaySeen t := by
  rcases hw.track_cases with hkeep | ⟨c, cmr, -, rfl⟩
  · exact delaySeen_of_track h fun b => ⟨(hkeep b).1, (hkeep b).2.trans⟩
  · exact issueCommand_delaySeen h

/-- A phase moves only with an issue, and `delay_ok` is not lost. -/
theorem stepRel_keepsDelaySeen : StepRel fun s t => DelaySeen s → DelaySeen t where
  refl _ := id
  trans hst htu := htu ∘ hst
  turn s h := delaySeen_of_track h fun b => ⟨(Quiet.turn s).phaseOf_eq b, (delayOkOf_engineTurn s b).trans⟩
  event _ _ := id
  host _ _ _ _ := id
  held _ _ _ := id
  fault _ _ := id
  bind _ _ _ _ _ := id
  mark _ _ := id
  prepare _ _ := id
  gate _ := id
  handle _ _ _ := id
  write := RegWritten.delaySeen
  delay b s h := delaySeen_of_track h fun c => ⟨phaseOf_observeDelay b c s, fun hc => by simp [hc]⟩
  draw _ := id
  memory b m s _ h := delaySeen_of_track h fun c => ⟨phaseOf_setMem b c m s, by cases b <;> cases c <;> exact id⟩

/-! ### Memory and capabilities -/

theorem memoryCanonical_congr {s t : State} (h : MemoryCanonical s) (hp : t.platform = s.platform)
    (h1 : t.mem1 = s.mem1) (h2 : t.mem2 = s.mem2) : MemoryCanonical t := by
  unfold MemoryCanonical
  rw [hp, h1, h2]
  exact h

/-- Listing bytes of one bank canonically keeps both banks canonical. -/
theorem memoryCanonical_setMem {b : Bank} {m : Memory} {s : State}
    (hm : (memOf s b).wf s.platform.bankSize = true → m.wf s.platform.bankSize = true) (h : MemoryCanonical s) :
    MemoryCanonical (setMem b m s) := by
  obtain ⟨h1, h2⟩ := h
  cases b with
  | bank1 => exact ⟨hm h1, h2⟩
  | bank2 => exact ⟨h1, hm h2⟩

theorem stepRel_keepsMemoryCanonical : StepRel fun s t => MemoryCanonical s → MemoryCanonical t where
  refl _ := id
  trans hst htu := htu ∘ hst
  turn s h := memoryCanonical_congr h (engineTurn_platform s) (engineTurn_mem1 s) (engineTurn_mem2 s)
  event _ _ := id
  host _ _ _ _ := id
  held _ _ _ := id
  fault _ _ := id
  bind _ _ _ _ _ := id
  mark _ _ := id
  prepare _ _ := id
  gate _ := id
  handle _ _ _ := id
  write hw := (hw.keeps MemoryCanonical fun _ => rfl).mpr
  delay b s h :=
    memoryCanonical_congr h (observeDelay_platform b s) (observeDelay_mem1 b s) (observeDelay_mem2 b s)
  draw _ := id
  memory _ _ _ := memoryCanonical_setMem

/-- The bindings and the platform decide whether every binding is within `CAP`. -/
theorem boundWithinCap_congr {s t : State} (h : BoundWithinCap s) (hp : t.platform = s.platform)
    (hb : ∀ p, (pinOf t p).binding = (pinOf s p).binding) : BoundWithinCap t := by
  intro p r hr
  rw [hp]
  exact h p r (hb p ▸ hr)

/-- A new record of one pin keeps every binding within `CAP` if its own is (40 R141, R142). -/
theorem boundWithinCap_setPin {p : PinId} {q : PinState} {s : State} (h : BoundWithinCap s)
    (hq : ∀ r, q.binding = .bound r → p ∈ capOf s.platform r) : BoundWithinCap (setPin p q s) := by
  intro p' r hr
  rw [pinOf_setPin] at hr
  split at hr
  · rename_i hp
    exact hp ▸ hq r hr
  · exact h p' r hr

theorem stepRel_keepsBoundWithinCap : StepRel fun s t => BoundWithinCap s → BoundWithinCap t where
  refl _ := id
  trans hst htu := htu ∘ hst
  turn s h := boundWithinCap_congr h (engineTurn_platform s) fun p => congrArg _ (pinOf_engineTurn s p)
  event _ _ := id
  host _ _ _ _ := id
  held _ _ _ := id
  fault _ _ := id
  bind p r s hc _ h := boundWithinCap_setPin h fun r' hr => by cases hr; exact hc
  mark p s h := boundWithinCap_setPin h fun r hr => h p r hr
  prepare p s h := boundWithinCap_setPin h fun r hr => h p r hr
  gate _ := id
  handle _ _ _ := id
  write hw h := boundWithinCap_congr h hw.platform_eq fun p => congrArg _ (pinOf_congr hw.pins_eq p)
  delay b s h :=
    boundWithinCap_congr h (observeDelay_platform b s) fun p => congrArg _ (pinOf_congr (observeDelay_pins b s) p)
  draw _ := id
  memory b m s _ h :=
    boundWithinCap_congr h (setMem_platform b m s) fun p => congrArg _ (pinOf_congr (setMem_pins b m s) p)

/-! ### Bundles -/

/-- The host's bundles become fewer, or one is taken (10 R34). -/
theorem Move.bundles_cases {s t : State} (h : Move s t) :
    t.bundles.Sublist s.bundles ∨
      ∃ b, takeError (bundlePins b) (bundleRoles b) s = none ∧ t.bundles = s.bundles ++ [b] ∧
        ∀ p, pinOf t p = pinOf (markPins (bundlePins b) s) p := by
  cases h with
  | quiet h => exact .inl (h.keeps (·.bundles) (fun _ => rfl) ▸ List.Sublist.refl _)
  | @written r v u w p x hu hd hg hw hp =>
    have hb : w.bundles = s.bundles :=
      (hw.keeps (·.bundles) fun _ => rfl).trans (hu.keeps (·.bundles) fun _ => rfl)
    exact .inl (hb ▸ List.Sublist.refl _)
  | taken b ht => exact .inr ⟨b, ht, rfl, fun _ => rfl⟩
  | configMade c hc => exact .inl (List.Sublist.refl _)
  | configured hg hh hphase hb hc => exact .inl hb

/-- Every pin of a bundle is bound to the role of its position and in a bundle (40 R154). -/
def Owned (s : State) (b : Bundle) : Prop :=
  List.Forall₂ (fun p r => (pinOf s p).binding = .bound r ∧ (pinOf s p).inBundle = true) (bundlePins b) (bundleRoles b)

theorem Owned.of_pinKept {s t : State} {b : Bundle} (hp : ∀ p, PinKept (pinOf s p) (pinOf t p)) (h : Owned s b) :
    Owned t b := by
  refine h.imp fun p r hpr => ?_
  obtain ⟨hbound, hin⟩ := hpr
  obtain ⟨hkeep, hflag, -, -⟩ := hp p
  exact ⟨(hkeep (by rw [hbound]; nofun)).trans hbound, hflag hin⟩

theorem Owned.inBundle {s : State} {b : Bundle} (h : Owned s b) : ∀ p ∈ bundlePins b, (pinOf s p).inBundle = true :=
  ((List.forall₂_and_left ..).mp (h.imp fun _ _ => And.symm)).1

/-- No position list names a role twice (40 R144 to R150). -/
theorem bundleRoles_nodup (b : Bundle) : (bundleRoles b).Nodup := by
  have hlines {n : Nat} (k : Nat) {f : Fin n → Role} (hf : f.Injective) : (((List.finRange n).take k).map f).Nodup :=
    ((List.nodup_finRange n).sublist (List.take_sublist ..)).map hf
  cases b with
  | addr b => exact hlines _ fun _ _ => Role.a.inj
  | data b => exact hlines _ fun _ _ => Role.d.inj
  | bankAccess b => exact hlines _ fun _ _ => Role.ba.inj
  | byteEnable b => exact hlines _ fun _ _ => Role.nbl.inj
  | ckeCs b => simp [bundleRoles, ckeCsRoles]
  | single k p => exact List.nodup_singleton _

/-- Pins bound to different roles are different pins. -/
theorem nodup_of_bound {s : State} {ps : List PinId} {rs : List Role} (hn : rs.Nodup)
    (h : List.Forall₂ (fun p r => (pinOf s p).binding = .bound r) ps rs) : ps.Nodup := by
  have hmap : ps.map (fun p => (pinOf s p).binding) = rs.map .bound := by
    rw [← List.forall₂_eq_eq_eq, List.forall₂_map_left_iff, List.forall₂_map_right_iff]
    exact h
  exact List.Nodup.of_map _ (hmap ▸ hn.map fun _ _ => Binding.bound.inj)

section taken

variable {s t : State} {b : Bundle} (ht : takeError (bundlePins b) (bundleRoles b) s = none)
include ht

theorem taken_bound :
    List.Forall₂ (fun p r => (pinOf s p).binding = .bound r) (bundlePins b) (bundleRoles b) :=
  ((takeError_none_iff ..).mp ht).imp fun _ _ => And.left

theorem taken_free : ∀ p ∈ bundlePins b, (pinOf s p).inBundle = false :=
  ((List.forall₂_and_left ..).mp (((takeError_none_iff ..).mp ht).imp fun _ _ => And.symm)).1

/-- A bundle just taken is owned: its checks found the roles, and `take` marked the pins (40 R143). -/
theorem owned_of_taken (hp : ∀ p, pinOf t p = pinOf (markPins (bundlePins b) s) p) : Owned t b := by
  refine ((List.forall₂_and_left ..).mpr ⟨fun _ => id, taken_bound ht⟩).imp fun p r hpr => ?_
  obtain ⟨hmem, hbound⟩ := hpr
  rw [hp, pinOf_markPins, if_pos hmem]
  exact ⟨hbound, rfl⟩

/-- A pin of an owned bundle is in a bundle, so `take` has not taken it again (40 R154). -/
theorem disjoint_of_taken {c : Bundle} (hc : Owned s c) : List.Disjoint (bundlePins c) (bundlePins b) := by
  intro p hpc hpb
  have hin := hc.inBundle p hpc
  rw [taken_free ht p hpb] at hin
  cases hin

end taken

/-- A move keeps every bundle owned and the bundles apart (40 R154). -/
theorem Move.bundles_exclusive {s t : State} (h : Move s t) (hp : ∀ p, PinKept (pinOf s p) (pinOf t p))
    (ho : BundlesOwned s) (hd : BundlesDisjoint s) : BundlesOwned t ∧ BundlesDisjoint t := by
  have hkept : ∀ c ∈ s.bundles, Owned t c := fun c hc => Owned.of_pinKept hp (ho c hc)
  obtain ⟨hpair, hnodup⟩ := hd
  rcases h.bundles_cases with hsub | ⟨b, ht, hb, hpins⟩
  · exact ⟨fun c hc => hkept c (hsub.subset hc), hpair.sublist hsub, fun c hc => hnodup c (hsub.subset hc)⟩
  · unfold BundlesOwned BundlesDisjoint
    rw [hb]
    refine ⟨List.forall_mem_append.mpr ⟨hkept, List.forall_mem_singleton.mpr (owned_of_taken ht hpins)⟩,
      List.pairwise_append.mpr ⟨hpair, List.pairwise_singleton .., ?_⟩,
      List.forall_mem_append.mpr ⟨hnodup, List.forall_mem_singleton.mpr ?_⟩⟩
    · exact fun c hc => List.forall_mem_singleton.mpr (disjoint_of_taken ht (ho c hc))
    · exact nodup_of_bound (bundleRoles_nodup b) (taken_bound ht)

/-! ### Configurations -/

/-- A Configuration comes to be held only past its checks (41 R181, R191). -/
theorem Move.configsValid {s t : State} (h : Move s t) (hv : ConfigsValid s) : ConfigsValid t := by
  cases h with
  | quiet h => exact fun c hc => hv c (h.keeps (·.configs) (fun _ => rfl) ▸ hc)
  | @written r v u w p x hu hd hg hw hp =>
    have hc : w.configs = s.configs :=
      (hw.keeps (·.configs) fun _ => rfl).trans (hu.keeps (·.configs) fun _ => rfl)
    exact fun c hmem => hv c (hc ▸ hmem)
  | taken b ht => exact fun c hc => hv c (markPins_configs (bundlePins b) s ▸ hc)
  | configMade c hc => exact List.forall_mem_append.mpr ⟨hv, List.forall_mem_singleton.mpr hc⟩
  | configured hg hh hphase hb hc => exact fun c hmem => hv c (hc.subset hmem)

/-! ### The gate, polling, and the machine before `CONFIGURE` -/

theorem Quiet.gate {s t : State} (h : Quiet s t) (hg : GateIffHandle s) : GateIffHandle t :=
  (h.keeps GateIffHandle fun _ => rfl).mpr hg

theorem quiet_markPins (ps : List PinId) (s : State) : Quiet s (markPins ps s) :=
  .foldl (fun _ _ => .updatePin ..) ps s

/-- A register write after a quiet update leaves the gate and the Handle as they were. -/
theorem written_gate_handle {r : Reg} {v : Word} {s u w : State} (hu : Quiet s u) (hw : RegWritten r v u w) :
    w.clkGate = s.clkGate ∧ w.handle = s.handle :=
  ⟨(hw.keeps (·.clkGate) fun _ => rfl).trans (hu.keeps (·.clkGate) fun _ => rfl),
    hw.handle_eq.trans (hu.keeps (·.handle) fun _ => rfl)⟩

/-- `CONFIGURE` sets the gate and the Handle together; nothing else sets either (41 R183, R190). -/
theorem Move.gateIffHandle {s t : State} (h : Move s t) (hg : GateIffHandle s) : GateIffHandle t := by
  cases h with
  | quiet h => exact h.gate hg
  | written hu hd _ hw hp =>
    obtain ⟨hgate, hhandle⟩ := written_gate_handle hu hw
    exact hgate.trans (hg.trans (congrArg _ hhandle.symm))
  | taken b ht => exact (quiet_markPins (bundlePins b) s).gate hg
  | configMade c hc => exact hg
  | configured hg' hh _ _ _ => exact hg'.trans hh.symm

/-- Polling begins only with a Handle (42 R212). -/
theorem Move.pollingWithHandle {s t : State} (h : Move s t) (hp : PollingWithHandle s) : PollingWithHandle t := by
  cases h with
  | quiet h => exact fun ht => (h.keeps (·.handle.isSome) fun _ => rfl).trans (hp (h.polling ht))
  | written hu hd _ hw hpoll =>
    intro ht
    refine (congrArg Option.isSome (written_gate_handle hu hw).2).trans ?_
    rcases hpoll ht with hwp | hh
    · rw [hw.keeps (·.polling) fun _ => rfl] at hwp
      exact hp (hu.polling hwp)
    · exact hh
  | taken b ht => exact fun hpoll => by simpa using hp (by simpa using hpoll)
  | configMade c hc => exact hp
  | configured _ hh _ _ _ => exact fun _ => hh

/-- The registers hold their reset values, both banks are in `PowerUp`, and `SDRTR` has not been written (10 R21). -/
def Unprogrammed (s : State) : Prop :=
  s.sdcr1 = s.platform.resetRegs.sdcr1 ∧ s.sdcr2 = s.platform.resetRegs.sdcr2 ∧
    s.sdtr1 = s.platform.resetRegs.sdtr1 ∧ s.sdtr2 = s.platform.resetRegs.sdtr2 ∧
    s.sdcmr = s.platform.resetRegs.sdcmr ∧ s.sdrtr = s.platform.resetRegs.sdrtr ∧
    s.phase1 = .powerUp ∧ s.phase2 = .powerUp ∧ s.refreshProgrammed = false

theorem untouched_iff (s : State) :
    UntouchedBeforeConfigure s ↔ (s.handle = none → Unprogrammed s ∧ s.inflight = none ∧ s.polling = false) := by
  unfold UntouchedBeforeConfigure Unprogrammed
  refine imp_congr_right fun _ => ?_
  tauto

theorem Quiet.untouched {s t : State} (h : Quiet s t) (hu : UntouchedBeforeConfigure s) :
    UntouchedBeforeConfigure t := by
  rw [untouched_iff] at hu ⊢
  intro hn
  obtain ⟨hprog, hin, hpoll⟩ := hu ((h.keeps (·.handle) fun _ => rfl) ▸ hn)
  refine ⟨(h.keeps Unprogrammed fun _ => rfl).mpr hprog, h.inflight hin, Bool.eq_false_iff.mpr fun hp => ?_⟩
  exact Bool.eq_false_iff.mp hpoll (h.polling hp)

/-- A register write has the gate on, so the Handle exists; without either, nothing of the register block moves
(10 R21, 20 R71). -/
theorem Move.untouched {s t : State} (h : Move s t) (hg : GateIffHandle s) (hu : UntouchedBeforeConfigure s) :
    UntouchedBeforeConfigure t := by
  cases h with
  | quiet h => exact h.untouched hu
  | @written r v u w p x hq _ hgate hw _ =>
    intro hn
    have hnone : s.handle = none := (written_gate_handle hq hw).2.symm.trans hn
    have hsome : s.handle.isSome = true := hg.symm.trans hgate
    rw [hnone] at hsome
    cases hsome
  | taken b ht => exact (quiet_markPins (bundlePins b) s).untouched hu
  | configMade c hc => exact hu
  | configured _ hh _ _ _ =>
    intro hn
    rw [hn] at hh
    cases hh

/-! ### The invariant -/

/-- Settles O14: the registers, the memories, the bindings and the delays by the small updates a step is made of; the
gate, the Handle and the host's values by what one step can be. -/
theorem stepKeepsInvariant : Obligations.StepKeepsInvariant := by
  intro s t h hs
  obtain ⟨q, hm⟩ := step_move hs
  have hpins : ∀ p, PinKept (pinOf s p) (pinOf t p) := stepRel_keepsPins.step hs
  obtain ⟨howned, hdisjoint⟩ := hm.bundles_exclusive hpins h.owned h.disjoint
  exact
    { reserved := stepRel_keepsReservedBits.step hs h.reserved
      busyInflight := stepRel_keepsBusyIffInflight.step hs h.busyInflight
      gate := hm.gateIffHandle h.gate
      untouched := hm.untouched h.gate h.untouched
      memory := stepRel_keepsMemoryCanonical.step hs h.memory
      cap := stepRel_keepsBoundWithinCap.step hs h.cap
      owned := howned
      disjoint := hdisjoint
      configs := hm.configsValid h.configs
      delaySeen := stepRel_keepsDelaySeen.step hs h.delaySeen
      polling := hm.pollingWithHandle h.polling }

end Sys2Proof.Machine

/-! The memory of the machine: which platforms are admitted, which accesses are inside a window, and what a window access
reads, writes and leaves alone (20_memory R79 to R83, 43_memory_view R262). -/

namespace Sys2Proof.Machine

/-! ### Masks -/

/-- The bits of a field's mask. -/
theorem fieldMask_getLsbD {f : Field} (hf : f.lo + f.width ≤ 32) (i : Nat) :
    (fieldMask f).getLsbD i = decide (f.lo ≤ i ∧ i < f.lo + f.width) := by
  simp only [fieldMask, BitVec.getLsbD_shiftLeft, BitVec.getLsbD_ofNat, Nat.testBit_two_pow_sub_one]
  by_cases hlo : f.lo ≤ i
  · by_cases hi : i < f.lo + f.width
    · simp [hlo, hi, show i < 32 by omega, show i - f.lo < 32 by omega, show i - f.lo < f.width by omega]
    · simp [hi, show ¬ i - f.lo < f.width by omega]
  · simp [hlo, show i < f.lo by omega]

/-! Each writable mask covers one run of bits (10 R31). -/

theorem maskCR_getLsbD (i : Nat) : maskCR.getLsbD i = decide (i < 15) :=
  (fieldMask_getLsbD (f := ⟨0, 15⟩) (by decide) i).trans (by simp)

theorem maskTR_getLsbD (i : Nat) : maskTR.getLsbD i = decide (i < 28) :=
  (fieldMask_getLsbD (f := ⟨0, 28⟩) (by decide) i).trans (by simp)

theorem maskCMR_getLsbD (i : Nat) : maskCMR.getLsbD i = decide (5 ≤ i ∧ i < 25) :=
  fieldMask_getLsbD (f := ⟨5, 20⟩) (by decide) i

theorem maskRTR_getLsbD (i : Nat) : maskRTR.getLsbD i = decide (1 ≤ i ∧ i < 14) :=
  fieldMask_getLsbD (f := ⟨1, 13⟩) (by decide) i

/-- A word is 0 outside a mask exactly when each bit the mask does not cover is 0. -/
theorem and_not_eq_zero_iff (w m : Word) :
    w &&& ~~~ m = 0 ↔ ∀ i, m.getLsbD i = false → w.getLsbD i = false := by
  constructor
  · intro h i hm
    by_cases hi : i < 32
    · have hz : (w &&& ~~~ m).getLsbD i = false := by rw [h]; exact BitVec.getLsbD_zero
      rwa [BitVec.getLsbD_and, BitVec.getLsbD_not, hm, decide_eq_true hi, Bool.not_false, Bool.and_true,
        Bool.and_true] at hz
    · exact BitVec.getLsbD_of_ge _ _ (Nat.le_of_not_lt hi)
  · intro h
    refine BitVec.eq_of_getLsbD_eq fun i hi => ?_
    refine Eq.trans ?_ BitVec.getLsbD_zero.symm
    rw [BitVec.getLsbD_and, BitVec.getLsbD_not]
    cases hm : m.getLsbD i with
    | false => rw [h i hm, Bool.false_and]
    | true => simp

/-! ### Which platforms are admitted -/

theorem forall_bank {P : Bank → Prop} : (∀ b, P b) ↔ P .bank1 ∧ P .bank2 := by
  refine ⟨fun h => ⟨h .bank1, h .bank2⟩, fun ⟨h1, h2⟩ b => ?_⟩
  cases b with
  | bank1 => exact h1
  | bank2 => exact h2

/-- Every number below 59 is a role's (30 R122). -/
theorem exists_roleNumber_eq {n : Nat} (h : n < 59) : ∃ r, roleNumber r = n := by
  have hall : ∀ n : Fin 59, (roleOfNumber n.val).map roleNumber = some n.val := by decide
  obtain ⟨r, -, hr⟩ := Option.map_eq_some_iff.mp (hall ⟨n, h⟩)
  exact ⟨r, hr⟩

/-- In a table of 59 entries the entries are those of the roles (40 R141). -/
theorem mem_cap_iff {p : Platform} (hl : p.cap.length = 59) (ps : List PinId) : ps ∈ p.cap ↔ ∃ r, capOf p r = ps := by
  constructor
  · intro h
    obtain ⟨n, hn, rfl⟩ := List.getElem_of_mem h
    obtain ⟨r, rfl⟩ := exists_roleNumber_eq (hl ▸ hn)
    exact ⟨r, List.getD_eq_getElem _ _ hn⟩
  · rintro ⟨r, rfl⟩
    have hr : roleNumber r < p.cap.length := hl ▸ roleNumber_lt r
    rw [capOf, List.getD_eq_getElem _ _ hr]
    exact List.getElem_mem hr

/-- 40 R141, role by role. -/
theorem capOk_iff (p : Platform) :
    capOk p.cap = true ↔
      p.cap.length = 59 ∧ (∀ r, capOf p r ≠ [] ∧ (capOf p r).Nodup) ∧ (capOf p .sdnwe).length = 2 ∧
        ∀ b, (capOf p (.sdcke b)).length = 2 ∧ (capOf p (.sdne b)).length = 2 := by
  have hentries : (p.cap.all fun ps => !ps.isEmpty && decide ps.Nodup) = true ↔ ∀ ps ∈ p.cap, ps ≠ [] ∧ ps.Nodup := by
    simp
  have hpairs : ([51, 52, 53, 54, 55].all fun n => (p.cap.getD n []).length == 2) = true ↔
      (capOf p .sdnwe).length = 2 ∧ ∀ b, (capOf p (.sdcke b)).length = 2 ∧ (capOf p (.sdne b)).length = 2 := by
    simp only [forall_bank, capOf, roleNumber, List.all_cons, List.all_nil, Bool.and_true, Bool.and_eq_true, beq_iff_eq]
    tauto
  rw [capOk, Bool.and_eq_true, Bool.and_eq_true, beq_iff_eq, hentries, hpairs, and_assoc]
  refine and_congr_right fun hl => and_congr_left' ?_
  simp only [mem_cap_iff hl, forall_exists_index, forall_apply_eq_imp_iff]

/-- `disjoint` says that two regions share no address (20 R79, log 24). -/
theorem disjoint_iff (a n b m : Nat) :
    disjoint a n b m = true ↔ ∀ x, ¬ ((a ≤ x ∧ x < a + n) ∧ (b ≤ x ∧ x < b + m)) := by
  simp only [disjoint, Bool.or_eq_true, decide_eq_true_iff]
  refine ⟨fun h x => by omega, fun h => ?_⟩
  have hmax := h (max a b)
  omega

/-- 20 R79, region by region. -/
theorem regionsOk_iff (p : Platform) :
    regionsOk p = true ↔
      (p.regBase.toNat + 0x1C ≤ 2 ^ 32 ∧ ∀ b, (bankBase p b).toNat + p.bankSize ≤ 2 ^ 32) ∧
      (∀ b a, ¬ ((p.regBase.toNat ≤ a ∧ a < p.regBase.toNat + 0x1C) ∧
        ((bankBase p b).toNat ≤ a ∧ a < (bankBase p b).toNat + p.bankSize))) ∧
      ∀ a, ¬ ((p.bankBase1.toNat ≤ a ∧ a < p.bankBase1.toNat + p.bankSize) ∧
        (p.bankBase2.toNat ≤ a ∧ a < p.bankBase2.toNat + p.bankSize)) := by
  simp only [regionsOk, Bool.and_eq_true, decide_eq_true_iff, disjoint_iff, forall_bank, bankBase, and_assoc]

/-- 10 R50, bit by bit. -/
theorem resetRegsOk_iff (r : RegWords) :
    resetRegsOk r = true ↔
      (∀ i, 15 ≤ i → r.sdcr1.getLsbD i = false ∧ r.sdcr2.getLsbD i = false) ∧
      (∀ i, 28 ≤ i → r.sdtr1.getLsbD i = false ∧ r.sdtr2.getLsbD i = false) ∧
      (∀ i, i < 5 ∨ 25 ≤ i → r.sdcmr.getLsbD i = false) ∧
      (∀ i, i < 1 ∨ 14 ≤ i → r.sdrtr.getLsbD i = false) ∧ r.sdsr = 0 := by
  simp only [resetRegsOk, Bool.and_eq_true, beq_iff_eq, and_not_eq_zero_iff, maskCR_getLsbD, maskTR_getLsbD,
    maskCMR_getLsbD, maskRTR_getLsbD, decide_eq_false_iff_not, not_and_or, not_le, not_lt, imp_and, forall_and,
    and_assoc]

theorem platformOk_iff (p : Platform) :
    platformOk p = true ↔ capOk p.cap = true ∧ regionsOk p = true ∧ resetRegsOk p.resetRegs = true := by
  rw [platformOk, Bool.and_eq_true, Bool.and_eq_true, and_assoc]

/-- Settles O11: the refusal by the order of the step's checks, and each of the three checks by its own conditions. -/
theorem badPlatformIsRefused : Obligations.BadPlatformIsRefused := by
  refine ⟨fun s hf hp => by simp [step, hf, hp], fun p => ?_⟩
  rw [platformOk_iff, capOk_iff, regionsOk_iff, resetRegsOk_iff]
  simp only [and_assoc]

/-! ### Which accesses are inside a window -/

/-- The windows of an admitted platform share no address and lie below `2^32` (20 R79). -/
theorem windows_of_platformOk {p : Platform} (h : platformOk p = true) :
    (∀ b, (bankBase p b).toNat + p.bankSize ≤ 2 ^ 32) ∧
      ∀ a, ¬ ((p.bankBase1.toNat ≤ a ∧ a < p.bankBase1.toNat + p.bankSize) ∧
        (p.bankBase2.toNat ≤ a ∧ a < p.bankBase2.toNat + p.bankSize)) := by
  obtain ⟨-, hregions, -⟩ := (platformOk_iff p).mp h
  obtain ⟨⟨-, hfit⟩, -, hapart⟩ := (regionsOk_iff p).mp hregions
  exact ⟨hfit, hapart⟩

/-- An access of at least one byte inside one window is not inside the other, so the decode finds its bank (20 R81). -/
theorem windowOf_of_inside {p : Platform} {b : Bank} {n o : Nat} (h : platformOk p = true) (hn : 1 ≤ n)
    (ho : o + n ≤ p.bankSize) : windowOf p ((bankBase p b).toNat + o) n = some (b, o) := by
  have hapart := (windows_of_platformOk h).2 ((bankBase p b).toNat + o)
  have hinside : insideWindow p b ((bankBase p b).toNat + o) n = true := (insideWindow_iff ..).mpr (by omega)
  rw [windowOf, if_neg (by omega)]
  cases b with
  | bank1 =>
    rw [if_pos hinside]
    simp [bankBase]
  | bank2 =>
    have houtside : ¬ insideWindow p .bank1 ((bankBase p .bank2).toNat + o) n = true := by
      rw [insideWindow_iff]
      simp only [bankBase] at hapart ⊢
      omega
    rw [if_neg houtside, if_pos hinside]
    simp [bankBase]

/-- 20 R81: the window decode of an admitted platform. -/
theorem windowOf_eq_some_iff {p : Platform} (h : platformOk p = true) (a n o : Nat) (b : Bank) :
    windowOf p a n = some (b, o) ↔ 1 ≤ n ∧ a = (bankBase p b).toNat + o ∧ o + n ≤ p.bankSize := by
  refine ⟨windowOf_some, ?_⟩
  rintro ⟨hn, rfl, ho⟩
  exact windowOf_of_inside h hn ho

/-- No window of an admitted platform reaches `2^32` (43 R262, R263). -/
theorem windowOf_of_high {p : Platform} (h : platformOk p = true) {a : Nat} (n : Nat) (ha : 2 ^ 32 ≤ a) :
    windowOf p a n = none := by
  refine Option.eq_none_iff_forall_ne_some.mpr fun ⟨b, o⟩ hw => ?_
  obtain ⟨hn, hao, ho⟩ := windowOf_some hw
  have hfit := (windows_of_platformOk h).1 b
  omega

theorem windowRead_of_inside {s : State} {b : Bank} {a n o : Nat} (h : windowOf s.platform a n = some (b, o)) :
    windowRead a n s = .next (memRead b o a n s) := by
  simp [windowRead, h]

theorem windowWrite_of_inside {s : State} {b : Bank} {a n o : Nat} (v : Nat)
    (h : windowOf s.platform a n = some (b, o)) : windowWrite a n v s = .next (memWrite b o a n v s) := by
  simp [windowWrite, h]

theorem windowRead_of_outside {s : State} {a n : Nat} (h : windowOf s.platform a n = none) :
    windowRead a n s = .refused .outsideWindows := by
  simp [windowRead, h]

theorem windowWrite_of_outside {s : State} {a n : Nat} (v : Nat) (h : windowOf s.platform a n = none) :
    windowWrite a n v s = .refused .outsideWindows := by
  simp [windowWrite, h]

/-! ### Accesses by the host -/

/-- The registers stand at multiples of 4 (10 R20). -/
theorem regAtOffset_of_unaligned {k : Nat} (h : k % 4 ≠ 0) : regAtOffset k = none := by
  unfold regAtOffset
  split <;> simp_all

/-- A half word, or a word that is not aligned, names no register (20 R74, log 23). -/
theorem regOfAccess_of_partial {p : Platform} {a : Word} {n : Nat}
    (h : n ≠ 4 ∨ (a.toNat - p.regBase.toNat) % 4 ≠ 0) : regOfAccess p a n = none := by
  unfold regOfAccess
  split
  · rename_i hn
    exact regAtOffset_of_unaligned (h.resolve_left (not_not_intro hn))
  · rfl

/-- An access by address inside a window is the window access (log 14). -/
theorem hostAccess_of_inside {s : State} {a : Word} {n : Nat} (v : Nat) (h : windowOf s.platform a.toNat n ≠ none) :
    hostRead a n s = windowRead a.toNat n s ∧ hostWrite a n v s = windowWrite a.toNat n v s := by
  obtain ⟨⟨b, o⟩, hw⟩ := Option.ne_none_iff_exists'.mp h
  simp [hostRead, hostWrite, windowRead, windowWrite, hw]

theorem hostAccess_of_stray {s : State} {a : Word} {n : Nat} (v : Nat) (h : windowOf s.platform a.toNat n = none)
    (hr : inRegisterBlock s.platform a = false) :
    hostRead a n s = .refused .outsideWindows ∧ hostWrite a n v s = .refused .outsideWindows := by
  simp [hostRead, hostWrite, h, hr]

theorem hostAccess_of_register {s : State} {a : Word} {n : Nat} {r : Reg} (v : Nat)
    (h : windowOf s.platform a.toNat n = none) (hb : inRegisterBlock s.platform a = true)
    (hr : regOfAccess s.platform a n = some r) :
    hostRead a n s = actEnd (actThen (regRead r s) fun w t => .done (.word w) t) ∧
      hostWrite a n v s = actEnd (actThen (regWrite r (BitVec.ofNat 32 v) s) fun _ t => .done .unit t) := by
  simp [hostRead, hostWrite, h, hb, hr]

theorem hostAccess_of_noRegister {s : State} {a : Word} {n : Nat} (v : Nat)
    (h : windowOf s.platform a.toNat n = none) (hb : inRegisterBlock s.platform a = true)
    (hr : regOfAccess s.platform a n = none) :
    hostRead a n s = .refused .registerAccess ∧ hostWrite a n v s = .refused .registerAccess := by
  simp [hostRead, hostWrite, h, hb, hr]

/-- The register block of an admitted platform has no address in common with a window (20 R79). -/
theorem windowOf_of_registerBlock {p : Platform} {a : Word} (h : platformOk p = true)
    (hb : inRegisterBlock p a = true) (n : Nat) : windowOf p a.toNat n = none := by
  refine Option.eq_none_iff_forall_ne_some.mpr fun ⟨b, o⟩ hw => ?_
  obtain ⟨-, hregions, -⟩ := (platformOk_iff p).mp h
  obtain ⟨-, hapart, -⟩ := (regionsOk_iff p).mp hregions
  obtain ⟨hn, hao, ho⟩ := windowOf_some hw
  simp only [inRegisterBlock, Bool.and_eq_true, decide_eq_true_iff] at hb
  exact hapart b a.toNat ⟨hb, by omega⟩

/-- An access to an element of a view is a window access at the element's address, where view and element exist
(43 R262, log 22). -/
theorem elementAccess_of_exists {s : State} {w : View} {i : Nat} (v : Nat) (h : viewExists w s = true)
    (hi : i < w.count) :
    readElement w i s = windowRead (elementAddr w.base w.elementSize i) w.elementSize s ∧
      writeElement w i v s = windowWrite (elementAddr w.base w.elementSize i) w.elementSize v s := by
  simp [readElement, writeElement, h, hi]

theorem elementAccess_of_missing {s : State} {w : View} {i : Nat} (v : Nat)
    (h : viewExists w s = false ∨ w.count ≤ i) :
    readElement w i s = .refused .noSuchValue ∧ writeElement w i v s = .refused .noSuchValue := by
  have hm : (viewExists w s && decide (i < w.count)) = false := by
    rcases h with h | h
    · rw [h, Bool.false_and]
    · rw [decide_eq_false (by omega), Bool.and_false]
  simp [readElement, writeElement, hm]

/-- 43 R260, log 22: a view is that of the Handle's bank, with an element size that is not 0. -/
theorem viewExists_iff (w : View) (s : State) :
    viewExists w s = true ↔ ∃ b, s.handle = some b ∧ w.base = bankBase s.platform b ∧ w.elementSize ≠ 0 := by
  unfold viewExists
  split
  · rename_i b hb
    simp [hb]
  · rename_i hn
    simp [hn]

/-- Settles O54: the decode on an admitted platform, and each refusal by the first condition that fails. -/
theorem strayAccessIsRefused : Obligations.StrayAccessIsRefused := by
  refine ⟨fun p a n o b hp => windowOf_eq_some_iff hp a n o b,
    fun s a n v h => ⟨windowRead_of_outside h, windowWrite_of_outside v h⟩,
    fun s a n v hp ha => ⟨windowRead_of_outside (windowOf_of_high hp n ha),
      windowWrite_of_outside v (windowOf_of_high hp n ha)⟩,
    fun s a n v h => ⟨hostAccess_of_stray v h,
      fun hb hn => hostAccess_of_noRegister v h hb (regOfAccess_of_partial hn)⟩,
    fun s w i v h => elementAccess_of_missing v ?_⟩
  rcases h with hcount | hview
  · exact .inr hcount
  · refine .inl (Bool.eq_false_iff.mpr fun hv => ?_)
    obtain ⟨b, hb, hbase, hsize⟩ := (viewExists_iff w s).mp hv
    rcases hview with hzero | hother
    · exact hsize hzero
    · exact hother b hb hbase

/-! ### What a window access leaves alone -/

/-- The state with everything set aside that a window access may change itself (20 R82, R83). -/
def besideMemory (s : State) : State :=
  { s with mem1 := ⟨0, []⟩, mem2 := ⟨0, []⟩, events := [], result := none, draws := 0 }

theorem memRead_besideMemory (b : Bank) (o a n : Nat) (s : State) :
    besideMemory (memRead b o a n s) = besideMemory (engineTurn s) := by
  rcases memRead_cases b o a n s with ⟨-, h⟩ | ⟨-, h⟩
  · rw [h]; rfl
  · rw [h]; rfl

theorem memWrite_besideMemory (b : Bank) (o a n v : Nat) (s : State) :
    besideMemory (memWrite b o a n v s) = besideMemory (engineTurn s) := by
  rcases memWrite_cases b o a n v s with ⟨-, -, h⟩ | ⟨-, -, h⟩ | ⟨-, h⟩
  · rw [h]; cases b <;> rfl
  · rw [h]; rfl
  · rw [h]; cases b <;> rfl

/-- What only the fields that are left decide is the same in both states. -/
theorem eq_of_besideMemory {s t : State} (h : besideMemory t = besideMemory s) {γ : Type} (f : State → γ)
    (hf : ∀ x, f (besideMemory x) = f x) : f t = f s := by
  rw [← hf t, h, hf s]

/-- Everything but the two banks, the history, the host's result and the draws is as before. -/
theorem frame_of_besideMemory {s t : State} (h : besideMemory t = besideMemory s) :
    SameRegisters s t ∧ SamePins s t ∧ SameSequencer s t ∧ SameHost s t := by
  have hkeep : ∀ {γ : Type} (f : State → γ), (∀ x, f (besideMemory x) = f x) → f t = f s := eq_of_besideMemory h
  refine ⟨⟨fun r => hkeep (regValue · r) fun _ => by cases r <;> rfl, hkeep (·.clkGate) fun _ => rfl⟩,
    fun p => hkeep (pinOf · p) fun _ => rfl,
    ⟨hkeep (·.handle) fun _ => rfl, fun b => hkeep (phaseOf · b) fun _ => by cases b <;> rfl,
      fun b => hkeep (delayOkOf · b) fun _ => by cases b <;> rfl, hkeep (·.refreshProgrammed) fun _ => rfl,
      hkeep (·.inflight) fun _ => rfl, hkeep (·.faulted) fun _ => rfl⟩,
    hkeep (·.bundles) fun _ => rfl, hkeep (·.configs) fun _ => rfl, hkeep (·.platform) fun _ => rfl,
    hkeep (·.queue) fun _ => rfl, hkeep (·.polling) fun _ => rfl⟩

theorem memRead_frame (b : Bank) (o a n : Nat) {s : State} (hi : s.inflight = none) :
    SameRegisters s (memRead b o a n s) ∧ SamePins s (memRead b o a n s) ∧ SameSequencer s (memRead b o a n s) ∧
      SameHost s (memRead b o a n s) :=
  frame_of_besideMemory (by rw [memRead_besideMemory, engineTurn_idle hi])

theorem memWrite_frame (b : Bank) (o a n v : Nat) {s : State} (hi : s.inflight = none) :
    SameRegisters s (memWrite b o a n v s) ∧ SamePins s (memWrite b o a n v s) ∧
      SameSequencer s (memWrite b o a n v s) ∧ SameHost s (memWrite b o a n v s) :=
  frame_of_besideMemory (by rw [memWrite_besideMemory, engineTurn_idle hi])

theorem memRead_faulted (b : Bank) (o a n : Nat) (s : State) : (memRead b o a n s).faulted = s.faulted :=
  (eq_of_besideMemory (memRead_besideMemory b o a n s) (·.faulted) fun _ => rfl).trans (engineTurn_faulted s)

theorem memWrite_faulted (b : Bank) (o a n v : Nat) (s : State) : (memWrite b o a n v s).faulted = s.faulted :=
  (eq_of_besideMemory (memWrite_besideMemory b o a n v s) (·.faulted) fun _ => rfl).trans (engineTurn_faulted s)

theorem memWrite_platform (b : Bank) (o a n v : Nat) (s : State) : (memWrite b o a n v s).platform = s.platform :=
  (eq_of_besideMemory (memWrite_besideMemory b o a n v s) (·.platform) fun _ => rfl).trans (engineTurn_platform s)

theorem ready_memWrite (b : Bank) (o a n v : Nat) (s : State) (c : Bank) :
    ready (memWrite b o a n v s) c = ready s c :=
  (eq_of_besideMemory (memWrite_besideMemory b o a n v s) (ready · c) fun _ => by cases c <;> rfl).trans
    (ready_engineTurn s c)

/-! ### What a window access reads and writes -/

theorem memOf_engineTurn (s : State) (b : Bank) : memOf (engineTurn s) b = memOf s b :=
  memOf_congr (engineTurn_mem1 s) (engineTurn_mem2 s) b

/-- Reading a window changes no byte, ready or not (20 R82). -/
theorem memRead_sameMemory (b : Bank) (o a n : Nat) (s : State) : SameMemory s (memRead b o a n s) := by
  intro c x
  have hmem : memOf (memRead b o a n s) c = memOf s c := by
    rw [← memOf_engineTurn s c]
    rcases memRead_cases b o a n s with ⟨-, h⟩ | ⟨-, h⟩
    · rw [h]; cases c <;> rfl
    · rw [h]; cases c <;> rfl
  rw [readByte, hmem, readByte]

/-- What a read of a ready bank tells the host and records (20 R82). -/
theorem memRead_of_ready {b : Bank} (o a n : Nat) {s : State} (h : ready s b = true) :
    (memRead b o a n s).result = some (.value (littleEndianValue (memBytes (memOf s b) o n))) ∧
      (s.inflight = none →
        (memRead b o a n s).events = s.events ++ [.memReadEv a n (memBytes (memOf s b) o n)]) := by
  rcases memRead_cases b o a n s with ⟨-, hm⟩ | ⟨hn, -⟩
  · rw [hm, memOf_engineTurn]
    exact ⟨rfl, fun hi => by simp [hi]⟩
  · rw [h] at hn
    cases hn

/-- What a read of a bank that is not ready tells the host and records, and the draw it takes (20 R82, log 16). -/
theorem memRead_of_notReady {b : Bank} (o a n : Nat) {s : State} (h : ready s b = false) :
    (memRead b o a n s).result = some (.value (littleEndianValue (drawBytes s.draws n))) ∧
      (s.inflight = none → (memRead b o a n s).events = s.events ++ [.memReadEv a n (drawBytes s.draws n)]) ∧
      (memRead b o a n s).draws = s.draws + 1 := by
  rcases memRead_cases b o a n s with ⟨hy, -⟩ | ⟨-, hm⟩
  · rw [h] at hy
    cases hy
  · rw [hm]
    exact ⟨rfl, fun hi => by simp [hi], rfl⟩

/-- A window write is recorded whatever it does (20 R83). -/
theorem memWrite_events (b : Bank) (o a n v : Nat) {s : State} (hi : s.inflight = none) :
    (memWrite b o a n v s).events =
      s.events ++ [.memWriteEv a n ((List.range n).map fun i => BitVec.ofNat 8 (v / 256 ^ i))] := by
  rw [← littleEndianBytes_eq_map]
  rcases memWrite_cases b o a n v s with ⟨-, -, h⟩ | ⟨-, -, h⟩ | ⟨-, h⟩ <;> rw [h] <;> simp [hi]

theorem memOf_memWrite {b : Bank} (o a n v : Nat) {s : State} (h : ready s b = true) (hwp : (eff s b).wp = 0)
    (c : Bank) :
    memOf (memWrite b o a n v s) c =
      if c = b then { memOf s b with cells := writeCells (memOf s b).cells o (littleEndianBytes n v) }
      else memOf s c := by
  have hturn := memOf_engineTurn s
  rcases memWrite_cases b o a n v s with ⟨-, -, hm⟩ | ⟨-, hne, -⟩ | ⟨hn, -⟩
  · rw [hm, memOf_setMem, ← hturn b, ← hturn c]
    cases b <;> cases c <;> rfl
  · exact absurd hwp hne
  · rw [h] at hn
    cases hn

theorem memOf_memWrite_protected {b : Bank} (o a n v : Nat) {s : State} (h : ready s b = true)
    (hwp : (eff s b).wp ≠ 0) (c : Bank) : memOf (memWrite b o a n v s) c = memOf s c := by
  rcases memWrite_cases b o a n v s with ⟨-, hz, -⟩ | ⟨-, -, hm⟩ | ⟨hn, -⟩
  · exact absurd hz hwp
  · rw [hm, ← memOf_engineTurn s c]
    cases c <;> rfl
  · rw [h] at hn
    cases hn

/-- A write of a bank that is not ready takes one draw, and the bank is that draw (20 R83, log 16). -/
theorem memWrite_of_notReady {b : Bank} (o a n v : Nat) {s : State} (h : ready s b = false) :
    (memWrite b o a n v s).draws = s.draws + 1 ∧
      ∀ c, memOf (memWrite b o a n v s) c = if c = b then { draw := s.draws, cells := [] } else memOf s c := by
  have hturn := memOf_engineTurn s
  rcases memWrite_cases b o a n v s with ⟨hy, -, -⟩ | ⟨hy, -, -⟩ | ⟨-, hm⟩
  · rw [h] at hy
    cases hy
  · rw [h] at hy
    cases hy
  · rw [hm]
    refine ⟨rfl, fun c => ?_⟩
    rw [← hturn c]
    cases b <;> cases c <;> rfl

/-- Reading after bytes were written: inside them the byte written, outside as before (20 R83). -/
theorem memByte_writeCells (m : Memory) (o x : Nat) (bytes : List Byte) :
    memByte { m with cells := writeCells m.cells o bytes } x =
      if h : o ≤ x ∧ x - o < bytes.length then bytes[x - o] else memByte m x := by
  unfold memByte
  rw [cellAt_writeCells]
  by_cases h : o ≤ x ∧ x - o < bytes.length
  · rw [dif_pos h, dif_pos h]
  · rw [dif_neg h, dif_neg h]

/-- The bytes an unprotected write leaves (20 R83, R77). -/
theorem readByte_memWrite_inside {b : Bank} {o n i : Nat} (a v : Nat) {s : State} (h : ready s b = true)
    (hwp : (eff s b).wp = 0) (hi : i < n) :
    readByte (memWrite b o a n v s) b (o + i) = BitVec.ofNat 8 (v / 256 ^ i) := by
  rw [readByte, memOf_memWrite o a n v h hwp, if_pos rfl, memByte_writeCells, dif_pos (by simpa using hi)]
  simp [littleEndianBytes_eq_map]

theorem readByte_memWrite_outside {b x : Bank} {o n y : Nat} (a v : Nat) {s : State} (h : ready s b = true)
    (hwp : (eff s b).wp = 0) (hy : ¬ (x = b ∧ o ≤ y ∧ y < o + n)) :
    readByte (memWrite b o a n v s) x y = readByte s x y := by
  rw [readByte, memOf_memWrite o a n v h hwp]
  split
  · rename_i hx
    have hout : ¬ (o ≤ y ∧ y < o + n) := fun h => hy ⟨hx, h⟩
    rw [memByte_writeCells, dif_neg (by rw [littleEndianBytes_length]; omega), readByte, hx]
  · rfl

/-- The bytes read back after an unprotected write are those of the value (20 R77). -/
theorem memBytes_memWrite {b : Bank} (o a n v : Nat) {s : State} (h : ready s b = true) (hwp : (eff s b).wp = 0) :
    memBytes (memOf (memWrite b o a n v s) b) o n = littleEndianBytes n v := by
  rw [littleEndianBytes_eq_map]
  exact List.map_congr_left fun i hi => readByte_memWrite_inside a v h hwp (List.mem_range.mp hi)

/-- The value a read answers has the bytes read as its base-256 digits (20 R77, R82). -/
theorem littleEndianValue_memBytes (m : Memory) (o n : Nat) :
    littleEndianValue (memBytes m o n) < 256 ^ n ∧
      ∀ i, i < n → littleEndianValue (memBytes m o n) / 256 ^ i % 256 = (memByte m (o + i)).toNat := by
  have hl : (memBytes m o n).length = n := by simp [memBytes]
  obtain ⟨hlt, hdigits⟩ := littleEndianValue_digits (memBytes m o n)
  rw [hl] at hlt
  exact ⟨hlt, fun i hi => (hdigits i (hl.symm ▸ hi)).trans (by simp [memBytes])⟩

/-- Settles O51: the write by the bytes it lists, its read-back and the read by the bytes read, and the host's two ways to
the window by the checks they pass. -/
theorem windowReadsBackWhatWasWritten : Obligations.WindowReadsBackWhatWasWritten := by
  refine ⟨fun s b a n o v hw hr hwp => ?write, fun s b a n o hw hr => ?read,
    fun s a n v h => hostAccess_of_inside v h, fun s b w i v hb hbase hsize hi => ?element⟩
  case write =>
    refine ⟨_, windowWrite_of_inside v hw, fun i hi => readByte_memWrite_inside a v hr hwp hi,
      fun x y hxy => readByte_memWrite_outside a v hr hwp hxy,
      fun hi => ⟨memWrite_events b o a n v hi, memWrite_frame b o a n v hi⟩, _,
      windowRead_of_inside (b := b) (o := o) (by rwa [memWrite_platform]), ?_, memRead_sameMemory b o a n _⟩
    rw [(memRead_of_ready o a n ((ready_memWrite b o a n v s b).trans hr)).1, memBytes_memWrite o a n v hr hwp,
      littleEndianValue_bytes]
  case read =>
    obtain ⟨hresult, hevents⟩ := memRead_of_ready o a n hr
    obtain ⟨hlt, hdigits⟩ := littleEndianValue_memBytes (memOf s b) o n
    exact ⟨_, _, windowRead_of_inside hw, hresult, hlt, hdigits, memRead_sameMemory b o a n s,
      fun hi => ⟨hevents hi, memRead_frame b o a n hi⟩⟩
  case element =>
    rw [← hbase]
    exact elementAccess_of_exists v ((viewExists_iff w s).mpr ⟨b, hb, hbase, hsize⟩) hi

/-- A field of one bit is not 0 exactly when the bit is set. -/
theorem getField_bit_ne_zero_iff (lo : Nat) (w : Word) : getField ⟨lo, 1⟩ w ≠ 0 ↔ w.getLsbD lo = true := by
  rw [BitVec.getLsbD, Nat.testBit_eq_decide_div_mod_eq, decide_eq_true_iff, getField, Nat.shiftRight_eq_div_pow]
  dsimp only
  omega

/-- Settles O52: the protection bit as a field of one bit, and the write that lists no byte. -/
theorem protectedWriteIsIgnored : Obligations.ProtectedWriteIsIgnored := by
  refine ⟨fun s b => getField_bit_ne_zero_iff 9 _, fun s b a n o v hw hr hwp hi => ?_⟩
  obtain ⟨hregs, hpins, hseq, hhost⟩ := memWrite_frame b o a n v hi
  refine ⟨_, windowWrite_of_inside v hw, fun c x => ?_, hpins, hregs, hseq, hhost, memWrite_events b o a n v hi⟩
  rw [readByte, memOf_memWrite_protected o a n v hr hwp, readByte]

/-- 10 R44. -/
theorem ready_iff (s : State) (b : Bank) :
    ready s b = true ↔
      s.handle = some b ∧ phaseOf s b = .modeLoaded ∧ s.refreshProgrammed = true ∧ s.faulted = none := by
  simp [ready, and_assoc]

theorem otherBank_ne (b : Bank) : otherBank b ≠ b := by
  cases b <;> decide

/-- Settles O53: the read by the draw it answers, the write by the bank it draws anew. -/
theorem notReadyAccessesAreDraws : Obligations.NotReadyAccessesAreDraws := by
  refine ⟨ready_iff, fun s b a n o v hw hr => ⟨?read, ?write⟩⟩
  case read =>
    obtain ⟨hresult, hevents, hdraws⟩ := memRead_of_notReady o a n hr
    exact ⟨_, windowRead_of_inside hw, hresult, fun hi => ⟨hevents hi, memRead_frame b o a n hi⟩,
      memRead_sameMemory b o a n s, hdraws⟩
  case write =>
    obtain ⟨hdraws, hmem⟩ := memWrite_of_notReady o a n v hr
    refine ⟨_, windowWrite_of_inside v hw, fun x => ?_, fun x => ?_,
      fun hi => ⟨memWrite_events b o a n v hi, memWrite_frame b o a n v hi⟩, hdraws⟩
    · rw [readByte, hmem b, if_pos rfl]
      rfl
    · rw [readByte, hmem, if_neg (otherBank_ne b), readByte]

end Sys2Proof.Machine

/-! Register transactions: where they fault, what a completed write stores, and the command in flight
(20_memory R71 to R74, R87). -/

namespace Sys2Proof.Machine

/-! ### Transactions that fault -/

theorem regWrite_of_gateOff (r : Reg) (v : Word) {s : State} (hg : s.clkGate = false) :
    regWrite r v s = .halt { engineTurn s with faulted := some .gateOff } := by
  simp [regWrite, raiseFault, hg]

/-- Settles O59: the gate is looked at before anything else, and an idle engine's turn does nothing. -/
theorem gateOffFaults : Obligations.GateOffFaults := by
  intro r v s hg hi
  rw [regRead_eq, if_neg (by simp [hg]), regWrite_of_gateOff r v hg, engineTurn_idle hi]
  exact ⟨rfl, rfl⟩

/-- While the drawn duration has not run out, the engine's turn at most counts (42 R215). -/
theorem engineTurn_of_lasting {s : State} (h : s.busyLeft ≠ some 0) :
    ∃ left, engineTurn s = { s with busyLeft := left } := by
  unfold engineTurn
  split
  · rename_i hz
    exact absurd hz h
  · exact ⟨_, rfl⟩
  · exact ⟨s.busyLeft, rfl⟩
  · exact ⟨s.busyLeft, rfl⟩

/-- A write of `SDCMR` that finds `BUSY` set is recorded and faults, whatever the word (20 R73). -/
theorem regWrite_sdcmr_of_busy (w : Word) {s : State} (hg : s.clkGate = true) (hb : busy (engineTurn s) = true) :
    regWrite .sdcmr w s =
      .halt { emit (.regWritten .sdcmr w) (engineTurn s) with faulted := some .commandWhileBusy } := by
  have hu : busy (emit (.regWritten .sdcmr w) (engineTurn s)) = true := hb
  simp [regWrite, writeCommand, raiseFault, hg, hu]

/-- The raw command words of modes 0 to 4 are writes of `SDCMR` (30 R110). -/
theorem exec_rawInstr (m : CmdMode) (ops : CmdOperands) (s : State) :
    exec (rawInstr m ops) s = writeRawCommand (modeCode m) ops s := by
  cases m <;> rfl

/-- Settles O58: the engine's turn leaves `BUSY` set, so the write of the word faults. -/
theorem commandWhileBusyFaults : Obligations.CommandWhileBusyFaults := by
  intro ops i w s hi hg hb hl
  have hx : exec i s = actEnd (actThen (regWrite .sdcmr w s) fun _ t => .done .unit t) := by
    rcases hi with ⟨rfl, rfl⟩ | ⟨m, rfl, rfl⟩
    · rfl
    · exact exec_rawInstr m ops s
  obtain ⟨left, ht⟩ := engineTurn_of_lasting hl
  rw [regWrite_sdcmr_of_busy w hg (by rw [ht]; exact hb), ht] at hx
  exact ⟨_, hx, rfl, fun r => by cases r <;> rfl, rfl, fun b => by cases b <;> rfl, rfl⟩

/-! ### What a completed write stores -/

/-- The word a register holds after a write of a value: its writable bits, and `SDSR` its own (10 R31, 20 R73). -/
def storedWord (s : State) (v : Word) : Reg → Word
  | .sdcr1 | .sdcr2 => v &&& maskCR
  | .sdtr1 | .sdtr2 => v &&& maskTR
  | .sdcmr => v &&& maskCMR
  | .sdrtr => v &&& maskRTR
  | .sdsr => s.sdsr

theorem RegWritten.regValue_eq {r : Reg} {v : Word} {s t : State} (hw : RegWritten r v s t) (hr : r ≠ .sdcmr)
    (q : Reg) : regValue t q = if q = r then storedWord s v r else regValue s q := by
  cases hw with
  | idle h | issued _ h => exact absurd h hr
  | sdcr1 h ht | sdcr2 h ht | sdtr1 h ht | sdtr2 h ht | sdrtr h ht | sdsr h ht =>
    subst h ht
    cases q <;> rfl

/-- A write of a register other than `SDCMR` issues nothing, and marks the refresh timer exactly for `SDRTR`
(20 R73, 10 R43). -/
theorem RegWritten.sequencer_eq {r : Reg} {v : Word} {s t : State} (hw : RegWritten r v s t) (hr : r ≠ .sdcmr) :
    t.events = s.events ∧ t.inflight = s.inflight ∧
      t.refreshProgrammed = (s.refreshProgrammed || decide (r = .sdrtr)) := by
  cases hw with
  | idle h | issued _ h => exact absurd h hr
  | sdrtr h ht =>
    subst h ht
    exact ⟨rfl, rfl, by simp⟩
  | sdcr1 h ht | sdcr2 h ht | sdtr1 h ht | sdtr2 h ht | sdsr h ht =>
    subst h ht
    exact ⟨rfl, rfl, by simp⟩

theorem RegWritten.track_eq {r : Reg} {v : Word} {s t : State} (hw : RegWritten r v s t) (hr : r ≠ .sdcmr) (b : Bank) :
    phaseOf t b = phaseOf s b ∧ delayOkOf t b = delayOkOf s b := by
  rcases hw.track_cases with h | ⟨_, _, h, _⟩
  · exact h b
  · exact absurd h hr

/-- No register write touches a pin, a byte of a bank, or what the host holds (20 R73). -/
theorem RegWritten.frame {r : Reg} {v : Word} {s t : State} (hw : RegWritten r v s t) :
    SamePins s t ∧ SameMemory s t ∧ SameHost s t :=
  ⟨fun p => hw.keeps (pinOf · p) fun _ => rfl, fun b o => hw.keeps (readByte · b o) fun _ => by cases b <;> rfl,
    hw.keeps (·.bundles) fun _ => rfl, hw.keeps (·.configs) fun _ => rfl, hw.keeps (·.platform) fun _ => rfl,
    hw.keeps (·.queue) fun _ => rfl, hw.keeps (·.polling) fun _ => rfl⟩

/-- A write of a register other than `SDCMR` while no command is in flight (20 R73). -/
theorem regWrite_idle {r : Reg} (v : Word) {s : State} (hr : r ≠ .sdcmr) (hg : s.clkGate = true)
    (hi : s.inflight = none) :
    ∃ t, regWrite r v s = .done () t ∧ RegWritten r v (emit (.regWritten r v) s) t := by
  obtain ⟨t, ht⟩ := regWrite_of_gate v hr hg
  have hw := (regWrite_done ht).2
  rw [engineTurn_idle hi] at hw
  exact ⟨t, ht, hw⟩

/-- The table of 10 R20. -/
theorem regAtOffset_of_mem {r : Reg} {k : Nat}
    (h : (r, k) ∈ [(Reg.sdcr1, 0x00), (Reg.sdcr2, 0x04), (Reg.sdtr1, 0x08), (Reg.sdtr2, 0x0C), (Reg.sdcmr, 0x10),
      (Reg.sdrtr, 0x14), (Reg.sdsr, 0x18)]) : regAtOffset k = some r ∧ k < 0x1C := by
  have hall : ∀ x ∈ [(Reg.sdcr1, 0x00), (Reg.sdcr2, 0x04), (Reg.sdtr1, 0x08), (Reg.sdtr2, 0x0C), (Reg.sdcmr, 0x10),
      (Reg.sdrtr, 0x14), (Reg.sdsr, 0x18)], regAtOffset x.2 = some x.1 ∧ x.2 < 0x1C := by decide
  exact hall _ h

/-- Settles O60: the write by what it stores and what it keeps, the read by its event, the raw access by the register at
its offset. -/
theorem regWriteStoresWritableBits : Obligations.RegWriteStoresWritableBits := by
  refine ⟨fun r v s hr hg hi => ?write, fun r s hg hi => regRead_idle r hg hi, fun r k a v s hp hmem ha => ?raw⟩
  case write =>
    obtain ⟨t, ht, hw⟩ := regWrite_idle v hr hg hi
    obtain ⟨hevents, hinflight, hrefresh⟩ := hw.sequencer_eq hr
    refine ⟨t, ht, hevents, fun i _ => ?bits, fun q hq => ?other, hrefresh, (hw.keeps (·.clkGate) fun _ => rfl).trans hg,
      hw.handle_eq, fun b => (hw.track_eq hr b).1, fun b => (hw.track_eq hr b).2, hinflight.trans hi,
      hw.keeps (·.faulted) fun _ => rfl, hw.frame⟩
    case bits =>
      rw [hw.regValue_eq hr, if_pos rfl]
      cases r with
      | sdcmr => exact absurd rfl hr
      | sdsr => rfl
      | sdcr1 | sdcr2 => rw [storedWord, BitVec.getLsbD_and, maskCR_getLsbD, Bool.and_comm]
      | sdtr1 | sdtr2 => rw [storedWord, BitVec.getLsbD_and, maskTR_getLsbD, Bool.and_comm]
      | sdrtr => rw [storedWord, BitVec.getLsbD_and, maskRTR_getLsbD, Bool.and_comm, Bool.decide_and]
    case other =>
      rw [hw.regValue_eq hr, if_neg hq]
      cases q <;> rfl
  case raw =>
    obtain ⟨hreg, hk⟩ := regAtOffset_of_mem hmem
    have hblock : inRegisterBlock s.platform a = true := by
      simp only [inRegisterBlock, Bool.and_eq_true, decide_eq_true_iff]
      omega
    refine hostAccess_of_register v (windowOf_of_registerBlock hp hblock 4) hblock ?_
    rw [regOfAccess, if_pos rfl, ha, Nat.add_sub_cancel_left, hreg]

/-! ### The marks a step leaves -/

/-- A mark on this state stands for what R71 and R73 say of it (60 R276). -/
def MarkNamed (t : State) : Prop :=
  ∀ f, t.faulted = some f →
    (f = .gateOff → t.clkGate = false) ∧
    (f = .commandWhileBusy → busy t = true ∧ t.clkGate = true ∧ ∃ w, t.events.getLast? = some (.regWritten .sdcmr w))

theorem markNamed_of_unmarked {t : State} (h : t.faulted = none) : MarkNamed t := by
  intro f hf
  rw [h] at hf
  cases hf

theorem markNamed_gateOff {t : State} (h : t.clkGate = false) : MarkNamed { t with faulted := some .gateOff } := by
  intro f hf
  cases hf
  exact ⟨fun _ => h, nofun⟩

theorem markNamed_commandWhileBusy {t : State} {w : Word} (hb : busy t = true) (hg : t.clkGate = true) :
    MarkNamed { emit (.regWritten .sdcmr w) t with faulted := some .commandWhileBusy } := by
  intro f hf
  cases hf
  exact ⟨nofun, fun _ => ⟨hb, hg, w, List.getLast?_concat⟩⟩

theorem markNamed_regReadHalt {r : Reg} {s t : State} (h : regRead r s = .halt t) : MarkNamed t := by
  rw [regRead_eq] at h
  split at h
  · cases h
  · rename_i hg
    cases h
    exact markNamed_gateOff (by simpa using hg)

theorem markNamed_regWriteHalt {r : Reg} {v : Word} {s t : State} (h : regWrite r v s = .halt t) : MarkNamed t := by
  rcases regWrite_halt h with ⟨hg, rfl⟩ | ⟨hg, -, hb, rfl⟩
  · exact markNamed_gateOff ((engineTurn_clkGate s).trans hg)
  · exact markNamed_commandWhileBusy hb ((engineTurn_clkGate s).trans hg)

theorem markNamed_setFieldsHalt {r : Reg} {fs : List (Field × Nat)} {s t : State} (h : setFields r fs s = .halt t) :
    MarkNamed t := by
  rcases setFields_halt h with ⟨hg, rfl⟩ | ⟨v, u, -, hw⟩
  · exact markNamed_gateOff ((engineTurn_clkGate s).trans hg)
  · exact markNamed_regWriteHalt hw

/-! Transactions that come to their end mark nothing. -/

theorem regRead_faulted {r : Reg} {w : Word} {s t : State} (h : regRead r s = .done w t) : t.faulted = s.faulted := by
  rw [regRead_eq] at h
  split at h
  · cases h
    exact engineTurn_faulted s
  · cases h

theorem regWrite_faulted {r : Reg} {v : Word} {s t : State} (h : regWrite r v s = .done () t) :
    t.faulted = s.faulted :=
  ((regWrite_done h).2.keeps (·.faulted) fun _ => rfl).trans (engineTurn_faulted s)

theorem setFields_faulted {r : Reg} {fs : List (Field × Nat)} {s t : State} (h : setFields r fs s = .done () t) :
    t.faulted = s.faulted := by
  obtain ⟨-, u, rfl, hw⟩ := setFields_done h
  exact (regWrite_faulted hw).trans (engineTurn_faulted s)

theorem programControl_faulted {b : Bank} {cfg : Configuration} {ba : BankAccess} {s t : State}
    (h : programControl b cfg ba s = .done () t) : t.faulted = s.faulted := by
  cases b with
  | bank1 => exact setFields_faulted h
  | bank2 =>
    obtain ⟨_, u, hu, ht⟩ := actThen_done h
    exact (setFields_faulted ht).trans (setFields_faulted hu)

theorem programTiming_faulted {b : Bank} {tm : Timing} {s t : State} (h : programTiming b tm s = .done () t) :
    t.faulted = s.faulted := by
  cases b with
  | bank1 => exact setFields_faulted h
  | bank2 =>
    obtain ⟨_, u, hu, ht⟩ := actThen_done h
    exact (setFields_faulted ht).trans (setFields_faulted hu)

/-- What the host is told, and whether it polls on, is no part of a mark. -/
theorem MarkNamed.told {t : State} (h : MarkNamed t) (r : Option Result) (p : Bool) :
    MarkNamed { t with result := r, polling := p } := h

/-- An operation of one action is marked only as that action is. -/
theorem markNamed_actEnd {α : Type} {x : Act α} {g : α → Result} {t : State}
    (h : actEnd (actThen x fun a u => .done (g a) u) = .next t) (hdone : ∀ a u, x = .done a u → u.faulted = none)
    (hhalt : ∀ u, x = .halt u → MarkNamed u) : MarkNamed t := by
  rcases actEnd_next h with ⟨r, u, hd, rfl⟩ | ⟨u, hd, rfl⟩
  · obtain ⟨a, y, hy, hd⟩ := actThen_done hd
    cases hd
    exact (markNamed_of_unmarked (hdone a u hy)).told (some (g a)) u.polling
  · rcases actThen_halt hd with hy | ⟨_, y, _, hd⟩
    · exact (hhalt u hy).told none u.polling
    · cases hd

/-- An instruction marks a state only where its register transaction faulted. -/
theorem Effect.markNamed {i : Instr} {s t : State} (hs : s.faulted = none) (h : Effect s i t) : MarkNamed t := by
  cases h with
  | rejected i code => exact markNamed_of_unmarked hs
  | told i r hr => exact markNamed_of_unmarked hs
  | bound p r hc hu => exact markNamed_of_unmarked ((updatePin_faulted p (fun q => { q with binding := .bound r }) s).trans hs)
  | taken i b hi ht => exact markNamed_of_unmarked ((markPins_faulted ..).trans hs)
  | prepared b hb => exact markNamed_of_unmarked ((prepareBundle_faulted ..).trans hs)
  | configMade c hc ha hd => exact markNamed_of_unmarked hs
  | configured cfg ba nbl clk ras cas sel we u v hh hc he hb hu hv =>
    have hv' := (programTiming_faulted hv).trans (programControl_faulted hu)
    exact markNamed_of_unmarked (hv'.trans ((gateAndPrepare_faulted ..).trans hs))
  | sent c b u hh hw => exact markNamed_of_unmarked ((regWrite_faulted hw).trans hs)
  | fieldSet i r f n b u hh hf hw => exact markNamed_of_unmarked ((setFields_faulted hw).trans hs)
  | flagRead b w u hh hw => exact markNamed_of_unmarked ((regRead_faulted hw).trans hs)
  | delayed n => exact markNamed_of_unmarked (by split <;> simpa using hs)
  | rawWritten i w u hw => exact markNamed_of_unmarked ((regWrite_faulted hw).trans hs)
  | readFaulted i r u hr => exact (markNamed_regReadHalt hr).told none u.polling
  | writeFaulted i r w u hw => exact (markNamed_regWriteHalt hw).told none u.polling
  | fieldFaulted i r f n u hw => exact (markNamed_setFieldsHalt hw).told none u.polling

theorem pollOnce_markNamed {s t : State} (hs : s.faulted = none) (h : pollOnce s = .next t) : MarkNamed t := by
  unfold pollOnce at h
  split at h
  · rename_i w u hu
    have hu' := (regRead_faulted hu).trans hs
    split at h
    · cases h
      exact markNamed_of_unmarked hu'
    · cases h
      exact markNamed_of_unmarked hu'
  · rename_i u hu
    cases h
    exact (markNamed_regReadHalt hu).told none false
  · cases h

theorem serve_markNamed {r : Request} {s t : State} (hs : s.faulted = none) (h : serve r s = .next t) :
    MarkNamed t := by
  rcases serve_next h with ⟨p, i, -, -, hx⟩ | ⟨a, n, b, o, -, -, rfl⟩ | ⟨a, n, v, b, o, -, -, rfl⟩ |
    ⟨a, q, -, hx⟩ | ⟨a, v, q, -, hx⟩
  · exact (exec_next hx).markNamed hs
  · exact markNamed_of_unmarked ((memRead_faulted ..).trans hs)
  · exact markNamed_of_unmarked ((memWrite_faulted ..).trans hs)
  · exact markNamed_actEnd hx (fun _ _ hy => (regRead_faulted hy).trans hs) fun _ => markNamed_regReadHalt
  · exact markNamed_actEnd hx (fun _ _ hy => (regWrite_faulted hy).trans hs) fun _ => markNamed_regWriteHalt

/-- Settles O10: the state a step starts from is unmarked, so its mark is that of a transaction that faulted. -/
theorem stepMarksOnlyTheNamedFaults : Obligations.StepMarksOnlyTheNamedFaults := by
  intro s t f h hf
  obtain ⟨hs, -, ⟨-, hp⟩ | ⟨-, -, rfl⟩ | ⟨r, rest, -, -, hr⟩⟩ := step_next h
  · exact pollOnce_markNamed hs hp f hf
  · exact markNamed_of_unmarked ((engineTurn_faulted s).trans hs) f hf
  · exact serve_markNamed (s := { s with queue := rest }) hs hr f hf

/-! ### The command in flight -/

/-- A command in flight in `s` is in flight in `t`, or its end was recorded on the way (20 R87). -/
def InflightKept (s t : State) : Prop :=
  ∃ es, t.events = s.events ++ es ∧ ∀ c, s.inflight = some c → t.inflight = some c ∨ Event.cmdDone ∈ es

theorem InflightKept.of_eq {s t : State} (he : s.events <+: t.events) (hi : t.inflight = s.inflight) :
    InflightKept s t := by
  obtain ⟨es, he⟩ := he
  exact ⟨es, he.symm, fun c hc => .inl (hi.trans hc)⟩

theorem InflightKept.trans {s t u : State} (hst : InflightKept s t) (htu : InflightKept t u) : InflightKept s u := by
  obtain ⟨es, het, ht⟩ := hst
  obtain ⟨es', heu, hu⟩ := htu
  refine ⟨es ++ es', by rw [heu, het, List.append_assoc], fun c hc => ?_⟩
  rcases ht c hc with hc | hd
  · exact (hu c hc).imp_right (List.mem_append_right es)
  · exact .inr (List.mem_append_left es' hd)

theorem inflightKept_engineTurn (s : State) : InflightKept s (engineTurn s) := by
  rcases engineTurn_cases s with e | ⟨c, n, -, e⟩ | ⟨c, -, e⟩
  · rw [e]
    exact .of_eq List.prefix_rfl rfl
  · rw [e]
    exact .of_eq List.prefix_rfl rfl
  · rw [e]
    exact ⟨[.cmdDone], engineStep_events s, fun _ _ => .inr (List.mem_singleton_self _)⟩

/-- A write issues a command only where `BUSY` is 0, so where none is in flight (20 R73, 10 R45). -/
theorem RegWritten.inflightKept {r : Reg} {v : Word} {s t : State} (hw : RegWritten r v s t)
    (h : BusyIffInflight s) : InflightKept s t := by
  obtain ⟨es, he⟩ := hw.events_grow
  refine ⟨es, he.symm, fun c hc => ?_⟩
  cases hw with
  | issued d _ hb _ _ ht =>
    have hn := hb.symm.trans h
    rw [hc] at hn
    cases hn
  | sdcr1 _ ht | sdcr2 _ ht | sdtr1 _ ht | sdtr2 _ ht | sdrtr _ ht | sdsr _ ht | idle _ _ _ ht =>
    exact .inl (ht ▸ hc)

/-- While `BUSY` agrees with the command in flight, no small update loses that command unrecorded. -/
theorem stepRel_keepsInflight :
    StepRel fun s t => BusyIffInflight s → BusyIffInflight t ∧ InflightKept s t where
  refl _ h := ⟨h, .of_eq List.prefix_rfl rfl⟩
  trans hst htu h :=
    have ht := hst h
    have hu := htu ht.1
    ⟨hu.1, ht.2.trans hu.2⟩
  turn s h := ⟨busyIffInflight_engineTurn h, inflightKept_engineTurn s⟩
  event _ _ h := ⟨h, .of_eq (List.prefix_append ..) rfl⟩
  host _ _ _ _ h := ⟨h, .of_eq List.prefix_rfl rfl⟩
  held _ _ _ h := ⟨h, .of_eq List.prefix_rfl rfl⟩
  fault _ _ h := ⟨h, .of_eq List.prefix_rfl rfl⟩
  bind _ _ _ _ _ h := ⟨h, .of_eq List.prefix_rfl rfl⟩
  mark _ _ h := ⟨h, .of_eq List.prefix_rfl rfl⟩
  prepare _ _ h := ⟨h, .of_eq List.prefix_rfl rfl⟩
  gate _ h := ⟨h, .of_eq List.prefix_rfl rfl⟩
  handle _ _ _ h := ⟨h, .of_eq List.prefix_rfl rfl⟩
  write hw h := ⟨hw.busyIffInflight h, hw.inflightKept h⟩
  delay b s h :=
    ⟨busyIffInflight_congr h (observeDelay_sdsr b s) (observeDelay_inflight b s),
      .of_eq (by rw [observeDelay_events]) (observeDelay_inflight b s)⟩
  draw _ h := ⟨h, .of_eq List.prefix_rfl rfl⟩
  memory b m s _ h :=
    ⟨busyIffInflight_congr h (setMem_sdsr b m s) (setMem_inflight b m s),
      .of_eq (by rw [setMem_events]) (setMem_inflight b m s)⟩

/-- Settles O24: the command is kept, or its end recorded, by every small update, so by every step. -/
theorem inflightCommandIsNotReplaced : Obligations.InflightCommandIsNotReplaced := by
  intro s t c h hc hs
  obtain ⟨es, he, hkept⟩ := (stepRel_keepsInflight.step hs h).2
  exact ⟨es, he, hkept c hc⟩

end Sys2Proof.Machine

/-! The command word: where its fields stand, and that assembling and reading a word undo each other (30_encoding R110
to R112). -/

namespace Sys2Proof.Machine

/-! ### The fields of a command word -/

theorem bit_eq_toNat (b : Bool) : bit b = b.toNat := by cases b <;> rfl

/-- Bit `i` of a word as a number. -/
theorem bit_getLsbD (w : Word) (i : Nat) : bit (w.getLsbD i) = w.toNat / 2 ^ i % 2 := by
  rw [bit_eq_toNat, BitVec.getLsbD, Nat.toNat_testBit]

theorem bit_injective : Function.Injective bit := by decide

/-- A run of bits of a word as a number. -/
theorem toNat_extractLsb'_eq_div_mod (w : Word) (lo len : Nat) :
    (w.extractLsb' lo len).toNat = w.toNat / 2 ^ lo % 2 ^ len := by
  rw [BitVec.extractLsb'_toNat, Nat.shiftRight_eq_div_pow]

theorem cmdModeBits_toNat (w : Word) : (cmdModeBits w).toNat = w.toNat % 8 :=
  (toNat_extractLsb'_eq_div_mod w 0 3).trans (by omega)

theorem cmdOperands_ctb2 (w : Word) : bit (cmdOperands w).ctb2 = w.toNat / 2 ^ 3 % 2 := bit_getLsbD w 3

theorem cmdOperands_ctb1 (w : Word) : bit (cmdOperands w).ctb1 = w.toNat / 2 ^ 4 % 2 := bit_getLsbD w 4

theorem cmdOperands_nrfs (w : Word) : (cmdOperands w).nrfs.toNat = w.toNat / 2 ^ 5 % 2 ^ 4 :=
  toNat_extractLsb'_eq_div_mod w 5 4

theorem cmdOperands_mrd (w : Word) : (cmdOperands w).mrd.toNat = w.toNat / 2 ^ 9 % 2 ^ 16 :=
  toNat_extractLsb'_eq_div_mod w 9 16

theorem cmdOperands_reserved (w : Word) : (cmdOperands w).reserved.toNat = w.toNat / 2 ^ 25 % 2 ^ 7 :=
  toNat_extractLsb'_eq_div_mod w 25 7

/-- Two operand records with the same five numbers are the same. -/
theorem cmdOperands_ext {x y : CmdOperands} (hctb2 : bit x.ctb2 = bit y.ctb2) (hctb1 : bit x.ctb1 = bit y.ctb1)
    (hnrfs : x.nrfs.toNat = y.nrfs.toNat) (hmrd : x.mrd.toNat = y.mrd.toNat)
    (hreserved : x.reserved.toNat = y.reserved.toNat) : x = y := by
  cases x
  cases y
  simp only [CmdOperands.mk.injEq]
  exact ⟨bit_injective hctb2, bit_injective hctb1, BitVec.eq_of_toNat_eq hnrfs, BitVec.eq_of_toNat_eq hmrd,
    BitVec.eq_of_toNat_eq hreserved⟩

/-! ### Assembling a command word -/

/-- The six fields side by side, none overlapping another, make the whole word (30 R110). -/
theorem assembleCmd_eq_append (mode : BitVec 3) (ops : CmdOperands) :
    assembleCmd mode ops =
      (ops.reserved ++ ops.mrd ++ ops.nrfs ++ BitVec.ofBool ops.ctb1 ++ BitVec.ofBool ops.ctb2 ++ mode).setWidth
        32 := by
  ext i hi
  simp only [assembleCmd, BitVec.getElem_setWidth, BitVec.getLsbD_append]
  interval_cases i <;> simp

theorem toNat_append_eq_add {m n : Nat} (x : BitVec m) (y : BitVec n) :
    (x ++ y).toNat = x.toNat * 2 ^ n + y.toNat := by
  rw [BitVec.toNat_append, ← Nat.shiftLeft_add_eq_or_of_lt y.isLt, Nat.shiftLeft_eq]

/-- The value of an assembled word: its fields at their positions (30 R110). -/
theorem assembleCmd_toNat (mode : BitVec 3) (ops : CmdOperands) :
    (assembleCmd mode ops).toNat = ops.reserved.toNat * 2 ^ 25 + ops.mrd.toNat * 2 ^ 9 + ops.nrfs.toNat * 2 ^ 5 +
      bit ops.ctb1 * 2 ^ 4 + bit ops.ctb2 * 2 ^ 3 + mode.toNat := by
  rw [assembleCmd_eq_append, BitVec.toNat_setWidth, Nat.mod_eq_of_lt (BitVec.isLt _)]
  simp only [toNat_append_eq_add, BitVec.toNat_ofBool, bit_eq_toNat]
  omega

/-- Settles O5: an assembled word whose reserved bits are 0. -/
theorem encodeCmdAssemblesFields : Obligations.EncodeCmdAssemblesFields := by
  intro c
  simp [encodeCmd, assembleCmd_toNat]

/-! ### Reading an assembled word, and assembling a read one -/

theorem bit_lt_two (b : Bool) : bit b < 2 := by cases b <;> decide

theorem cmdModeBits_assembleCmd (mode : BitVec 3) (ops : CmdOperands) : cmdModeBits (assembleCmd mode ops) = mode :=
  BitVec.eq_of_toNat_eq (Laws.OpcodeMatch.assembleCmd_low mode ops)

theorem cmdOperands_assembleCmd (mode : BitVec 3) (ops : CmdOperands) : cmdOperands (assembleCmd mode ops) = ops := by
  have hmode := mode.isLt
  have hctb2 := bit_lt_two ops.ctb2
  have hctb1 := bit_lt_two ops.ctb1
  have hnrfs := ops.nrfs.isLt
  have hmrd := ops.mrd.isLt
  have hreserved := ops.reserved.isLt
  apply cmdOperands_ext
  · rw [cmdOperands_ctb2, assembleCmd_toNat]; omega
  · rw [cmdOperands_ctb1, assembleCmd_toNat]; omega
  · rw [cmdOperands_nrfs, assembleCmd_toNat]; omega
  · rw [cmdOperands_mrd, assembleCmd_toNat]; omega
  · rw [cmdOperands_reserved, assembleCmd_toNat]; omega

/-- Every bit of a word is in one of the six fields (30 R110). -/
theorem assembleCmd_cmdModeBits_cmdOperands (w : Word) : assembleCmd (cmdModeBits w) (cmdOperands w) = w := by
  apply BitVec.eq_of_toNat_eq
  rw [assembleCmd_toNat, cmdModeBits_toNat, cmdOperands_ctb2, cmdOperands_ctb1, cmdOperands_nrfs, cmdOperands_mrd,
    cmdOperands_reserved]
  have := w.isLt
  omega

/-! ### The instruction of a command word -/

/-- The raw command word instruction of a `MODE` number (30 R110). -/
def cmdInstr (mode : BitVec 3) (ops : CmdOperands) : Instr :=
  match mode.toNat with
  | 0 => .cmdIdle ops
  | 1 => .cmdClkEnable ops
  | 2 => .cmdPall ops
  | 3 => .cmdAutoRefresh ops
  | 4 => .cmdLoadMode ops
  | 5 => .cmdSelfRefresh ops
  | 6 => .cmdPowerDown ops
  | _ => .cmdReserved7 ops

theorem decodeCmdWord_eq_cmdInstr (w : Word) : decodeCmdWord w = cmdInstr (cmdModeBits w) (cmdOperands w) := rfl

/-- The row of a `MODE` number writes that number. -/
theorem encode_cmdInstr (mode : BitVec 3) (ops : CmdOperands) :
    encode (cmdInstr mode ops) = .cmdWord (assembleCmd mode ops) := by
  obtain ⟨⟨n, hn⟩⟩ := mode
  interval_cases n <;> rfl

theorem decode_assembleCmd (mode : BitVec 3) (ops : CmdOperands) :
    decode (.cmdWord (assembleCmd mode ops)) = .ok (cmdInstr mode ops) := by
  rw [decode, decodeCmdWord_eq_cmdInstr, cmdModeBits_assembleCmd, cmdOperands_assembleCmd]

/-- Settles O4: the instruction keeps all six fields of the word. -/
theorem rawCommandWordLosesNoBit : Obligations.RawCommandWordLosesNoBit := by
  intro w
  rw [decodeCmdWord_eq_cmdInstr, encode_cmdInstr, assembleCmd_cmdModeBits_cmdOperands]

/-! ### The `Command` of a command word -/

/-- The mode of a `MODE` number, for the numbers that issue a command (30 R110, R112). -/
def modeOfCode (mode : BitVec 3) : Option CmdMode :=
  match mode.toNat with
  | 1 => some .clockEnable
  | 2 => some .prechargeAll
  | 3 => some .autoRefresh
  | 4 => some .loadModeRegister
  | _ => none

theorem modeOfCode_modeCode (m : CmdMode) : modeOfCode (modeCode m) = some m := by cases m <;> rfl

/-- A word's `Command` is that of its mode and its fields. -/
theorem commandOf_eq_map (w : Word) :
    commandOf w = (modeOfCode (cmdModeBits w)).map fun m => commandWith m (cmdOperands w) := by
  unfold commandOf
  generalize cmdModeBits w = mode
  obtain ⟨⟨n, hn⟩⟩ := mode
  interval_cases n <;> rfl

theorem commandOf_encodeCmd (c : Command) : commandOf (encodeCmd c) = some c := by
  rw [commandOf_eq_map, encodeCmd, cmdModeBits_assembleCmd, cmdOperands_assembleCmd, modeOfCode_modeCode]
  rfl

/-- Bits [31:25] are in none of the fields a `Command` has (30 R112). -/
theorem commandWith_cmdOperands_congr {w v : Word} (h : w.toNat % 2 ^ 25 = v.toNat % 2 ^ 25) (m : CmdMode) :
    commandWith m (cmdOperands w) = commandWith m (cmdOperands v) := by
  have hctb1 : (cmdOperands w).ctb1 = (cmdOperands v).ctb1 := bit_injective <| by
    rw [cmdOperands_ctb1, cmdOperands_ctb1]; omega
  have hctb2 : (cmdOperands w).ctb2 = (cmdOperands v).ctb2 := bit_injective <| by
    rw [cmdOperands_ctb2, cmdOperands_ctb2]; omega
  have hnrfs : (cmdOperands w).nrfs = (cmdOperands v).nrfs := BitVec.eq_of_toNat_eq <| by
    rw [cmdOperands_nrfs, cmdOperands_nrfs]; omega
  have hmrd : (cmdOperands w).mrd = (cmdOperands v).mrd := BitVec.eq_of_toNat_eq <| by
    rw [cmdOperands_mrd, cmdOperands_mrd]; omega
  rw [commandWith, commandWith, hctb1, hctb2, hnrfs, hmrd]

theorem cmdModeBits_congr {w v : Word} (h : w.toNat % 2 ^ 25 = v.toNat % 2 ^ 25) : cmdModeBits w = cmdModeBits v :=
  BitVec.eq_of_toNat_eq <| by rw [cmdModeBits_toNat, cmdModeBits_toNat]; omega

/-- Settles O6: the round trip of a `Command`, the positions of the five fields, and what bits [31:25] do not change. -/
theorem decodeCmdUndoesEncodeCmd : Obligations.DecodeCmdUndoesEncodeCmd := by
  refine ⟨commandOf_encodeCmd, fun w => ?fields, fun w v h => ⟨?command, cmdModeBits_congr h⟩⟩
  case fields => exact ⟨cmdModeBits_toNat w, rfl, rfl, cmdOperands_nrfs w, cmdOperands_mrd w⟩
  case command =>
    rw [commandOf_eq_map, commandOf_eq_map, cmdModeBits_congr h]
    simp only [commandWith_cmdOperands_congr h]

end Sys2Proof.Machine

/-! Reading what the encoder writes: every reader of the decoder undoes its writer (30_encoding R100, R101; the
byte form is log 2). -/

namespace Sys2Proof

/-! ### Readers in sequence -/

/-- The reader answers this value on these bytes, and leaves all that follows them. -/
def Reads {α : Type} (p : Parse α) (bs : List Byte) (a : α) : Prop := ∀ rest, p (bs ++ rest) = .ok (a, rest)

theorem reads_done {α : Type} (a : α) : Reads (parseDone a) [] a := fun _ => rfl

/-- One reader after another reads their bytes one after another. -/
theorem Reads.andThen {α β : Type} {p : Parse α} {f : α → Parse β} {bs cs : List Byte} {a : α} {b : β}
    (hp : Reads p bs a) (hf : Reads (f a) cs b) : Reads (parseThen p f) (bs ++ cs) b := by
  intro rest
  rw [List.append_assoc, parseThen_of_ok (hp _), hf]

/-- The last reader of a record. -/
theorem Reads.thenDone {α β : Type} {p : Parse α} {g : α → β} {bs : List Byte} {a : α} (hp : Reads p bs a) :
    Reads (parseThen p fun x => parseDone (g x)) bs (g a) := by
  simpa using hp.andThen (f := fun x => parseDone (g x)) (reads_done (g a))

/-! ### Enumerations and the payload -/

theorem reads_role (r : Role) : Reads (getEnum roleOfNumber) (putNum (roleNumber r)) r :=
  getEnum_putNum (roleOfNumber_roleNumber r) ((roleNumber_lt r).trans (by decide))

theorem reads_bool (b : Bool) : Reads (getEnum boolOfNumber) (putNum (boolNumber b)) b :=
  getEnum_putNum (bool_back b) (boolNumber_lt b)

theorem reads_singleKind (k : SingleKind) : Reads (getEnum singleKindOfNumber) (putNum (singleKindNumber k)) k :=
  getEnum_putNum (singleKind_back k) (singleKindNumber_lt k)

theorem reads_nrfs (n : BitVec 4) : Reads (getEnum nrfsOfNumber) (putNum n.toNat) n :=
  getEnum_putNum (nrfs_back n) (n.isLt.trans (by decide))

theorem reads_byte (b : Byte) : Reads getByte [b] b := fun _ => rfl

/-- The two bytes of the payload, the high one before the low one, are the payload. -/
theorem mrd_bytes (m : BitVec 16) : m.extractLsb' 8 8 ++ m.extractLsb' 0 8 = m := BitVec.extractLsb'_append_extractLsb'

theorem reads_mrd {α : Type} (g : BitVec 16 → α) (m : BitVec 16) :
    Reads (parseThen getByte fun lo => parseThen getByte fun hi => parseDone (g (hi ++ lo)))
      [m.extractLsb' 0 8, m.extractLsb' 8 8] (g m) := by
  intro rest
  have hg : g (m.extractLsb' 8 8 ++ m.extractLsb' 0 8) = g m := congrArg g (mrd_bytes m)
  rw [← hg]
  rfl

/-! ### Records of several operands -/

/-- The byte for the type selects the reader of that type. -/
theorem reads_bundle {b : Bundle} (h : b.wf = true) : Reads getBundle (putBundle b) b := by
  cases b with
  | addr b => exact .andThen (reads_byte 0) <| .thenDone (getAddrBus_putAddrBus b h)
  | data b => exact .andThen (reads_byte 1) <| .thenDone (getDataBus_putDataBus b h)
  | bankAccess b => exact .andThen (reads_byte 2) <| .thenDone (getBankAccess_putBankAccess b h)
  | byteEnable b => exact .andThen (reads_byte 3) <| .thenDone (getByteEnable_putByteEnable b h)
  | ckeCs b => exact .andThen (reads_byte 4) <| .thenDone (getCkeCs_putCkeCs b)
  | single k p =>
    simp only [putBundle, List.append_assoc]
    exact .andThen (reads_byte 5) <| .andThen (reads_singleKind k) <| .thenDone (getPin_putPin p)

theorem reads_timing (t : Timing) : Reads getTiming (putTiming t) t := by
  simp only [putTiming, List.append_assoc]
  exact .andThen (getNat_putNat t.cas) <| .andThen (getNat_putNat t.tMrd) <| .andThen (getNat_putNat t.tXsr) <|
    .andThen (getNat_putNat t.tRas) <| .andThen (getNat_putNat t.tRc) <| .andThen (getNat_putNat t.tWr) <|
    .andThen (getNat_putNat t.tRp) <| .thenDone (getNat_putNat t.tRcd)

theorem reads_configuration {c : Configuration} (h : c.wf = true) :
    Reads getConfiguration (putConfiguration c) c := by
  obtain ⟨ha, hd⟩ := Bool.and_eq_true_iff.mp h
  simp only [putConfiguration, List.append_assoc]
  exact .andThen (getAddrBus_putAddrBus c.addrBus ha) <| .andThen (getDataBus_putDataBus c.dataBus hd) <|
    .andThen (getNat_putNat c.columnBits) <| .andThen (getNat_putNat c.rowBits) <|
    .andThen (getNat_putNat c.clockDivisor) <| .andThen (getNat_putNat c.pipelineDelay) <|
    .andThen (reads_bool c.writeProtection) <|
    .andThen (reads_bool c.burstRead) <| .thenDone (reads_timing c.timing)

theorem reads_command (c : Command) : Reads getCommand (putCommand c) c := by
  simp only [putCommand, List.append_assoc]
  exact .andThen (getEnum_putNum (cmdMode_back c.mode) (cmdModeNumber_lt c.mode)) <| .andThen (reads_bool c.ctb1) <|
    .andThen (reads_bool c.ctb2) <| .andThen (reads_nrfs c.nrfs) (reads_mrd _ c.mrd)

theorem reads_configure {cfg : Configuration} {ba : BankAccess} {nbl : ByteEnable} (clk ras cas : PinId)
    (sel : CkeCs) (we : PinId) (hcfg : cfg.wf = true) (hba : ba.wf = true) (hnbl : nbl.wf = true) :
    Reads getConfigure (putConfiguration cfg ++ putBankAccess ba ++ putByteEnable nbl ++ putPin clk ++ putPin ras ++
      putPin cas ++ putCkeCs sel ++ putPin we) (.configure cfg ba nbl clk ras cas sel we) := by
  simp only [List.append_assoc]
  exact .andThen (reads_configuration hcfg) <| .andThen (getBankAccess_putBankAccess ba hba) <|
    .andThen (getByteEnable_putByteEnable nbl hnbl) <| .andThen (getPin_putPin clk) <| .andThen (getPin_putPin ras) <|
    .andThen (getPin_putPin cas) <| .andThen (getCkeCs_putCkeCs sel) <| .thenDone (getPin_putPin we)

/-! ### Packets -/

/-- A HOSTOP whose record is read to its end is that instruction. -/
theorem decode_hostOp_of_reads {op : Byte} {bs : List Byte} {i : Instr} (h : Reads (getOperands op.toNat) bs i) :
    decode (.hostOp (op :: bs)) = .ok i := by
  have hr := h []
  rw [List.append_nil] at hr
  simp [decode, decodeHostOp, hr]

/-- Settles O2: a host operation by the readers of its operands, a raw command word by the round trip of its fields. -/
theorem decodeEncodeRoundTrip : Obligations.DecodeEncodeRoundTrip := by
  intro i h
  cases i with
  | bindPin p r => exact decode_hostOp_of_reads <| .andThen (getPin_putPin p) <| .thenDone (reads_role r)
  | makeAddrBus v ps =>
    exact decode_hostOp_of_reads <|
      .andThen (getEnum_putNum (addrVariant_back v) (addrVariantNumber_lt v)) <|
      .thenDone (getPinList_putPinList ps)
  | makeDataBus v ps =>
    exact decode_hostOp_of_reads <|
      .andThen (getEnum_putNum (dataVariant_back v) (dataVariantNumber_lt v)) <|
      .thenDone (getPinList_putPinList ps)
  | makeBankAccess v ps =>
    exact decode_hostOp_of_reads <|
      .andThen (getEnum_putNum (bankAccessVariant_back v) (bankAccessVariantNumber_lt v)) <|
      .thenDone (getPinList_putPinList ps)
  | makeByteEnable v ps =>
    exact decode_hostOp_of_reads <|
      .andThen (getEnum_putNum (byteEnableVariant_back v) (byteEnableVariantNumber_lt v)) <|
      .thenDone (getPinList_putPinList ps)
  | makeCkecsBank1 cke cs | makeCkecsBank2 cke cs =>
    exact decode_hostOp_of_reads <| .andThen (getPin_putPin cke) <| .thenDone (getPin_putPin cs)
  | makeSingle k p => exact decode_hostOp_of_reads <| .andThen (reads_singleKind k) <| .thenDone (getPin_putPin p)
  | preparePins b => exact decode_hostOp_of_reads <| .thenDone (reads_bundle h)
  | width b => exact decode_hostOp_of_reads <| .thenDone (getDataBus_putDataBus b h)
  | bankOfPins b => exact decode_hostOp_of_reads <| .thenDone (getCkeCs_putCkeCs b)
  | makeConfig c => exact decode_hostOp_of_reads <| .thenDone (reads_configuration h)
  | configure c ba nbl clk ras cas sel we =>
    obtain ⟨hcb, hnbl⟩ := Bool.and_eq_true_iff.mp h
    obtain ⟨hc, hba⟩ := Bool.and_eq_true_iff.mp hcb
    exact decode_hostOp_of_reads (reads_configure clk ras cas sel we hc hba hnbl)
  | sendCommand c => exact decode_hostOp_of_reads <| .thenDone (reads_command c)
  | setWriteProtection e => exact decode_hostOp_of_reads <| .thenDone (reads_bool e)
  | setAutoRefreshCount n | setRefreshInterval n | delay n =>
    exact decode_hostOp_of_reads <| .thenDone (getNat_putNat n)
  | writeProtection | bank => exact decode_hostOp_of_reads (reads_done _)
  | memoryView e n => exact decode_hostOp_of_reads <| .andThen (getNat_putNat e) <| .thenDone (getNat_putNat n)
  | cmdIdle ops | cmdClkEnable ops | cmdPall ops | cmdAutoRefresh ops | cmdLoadMode ops | cmdSelfRefresh ops
  | cmdPowerDown ops | cmdReserved7 ops => exact Machine.decode_assembleCmd _ ops

/-- Settles O1: each word is read as the tables say. -/
theorem tableWordsDecode : Obligations.TableWordsDecode := by
  unfold Obligations.TableWordsDecode
  decide

end Sys2Proof

/-! What is refused before any operand matters: an op number that is not listed (30_encoding R117), and an operation on
the Handle where there is none (60_exceptions R273). -/

namespace Sys2Proof.Machine

/-- An op number rule R100 does not list selects no operation, whatever follows it (30 R117). -/
theorem getOperands_of_unlisted {op : Nat} (bs : List Byte)
    (h : op ∉ [0x01, 0x02, 0x03, 0x04, 0x05, 0x06, 0x07, 0x08, 0x09, 0x0A, 0x0B, 0x10, 0x11, 0x20, 0x21, 0x22, 0x23,
      0x24, 0x25, 0x26, 0x30]) : getOperands op bs = .error (.noOperation op) := by
  unfold getOperands
  split
  case h_22 => rfl
  all_goals simp at h

theorem serve_packet_of_decode_error {p : Packet} {e : DecodeError} (h : decode p = .error e) (s : State) :
    serve (.packet p) s = .refused (.undecodable e) := by
  simp [serve, servePacket, h]

/-- Settles O7: the decoder's refusal is the step's. -/
theorem unlistedOpIsRefused : Obligations.UnlistedOpIsRefused := by
  intro op bs rest s hop hf hp hpoll hq
  have hd : decode (.hostOp (op :: bs)) = .error (.noOperation op.toNat) := by
    simp only [decode, decodeHostOp, getOperands_of_unlisted bs hop]
  rw [step_eq_hostTurn hf hp, hostTurn_of_request hpoll hq, serve_packet_of_decode_error hd]

/-- Settles O39: each of the seven operations looks at the Handle before its operands. -/
theorem noHandleComesFirst : Obligations.NoHandleComesFirst := by
  intro s h
  refine ⟨fun c => ?sendCommand, fun e => ?setWriteProtection, fun n => ?setAutoRefreshCount,
    fun n => ?setRefreshInterval, ?writeProtection, ?bank, fun e n => ?memoryView⟩
  case sendCommand => simp only [exec, execSendCommand, h]
  case setWriteProtection => simp only [exec, execSetWriteProtection, h]
  case setAutoRefreshCount => simp only [exec, execSetAutoRefreshCount, h]
  case setRefreshInterval => simp only [exec, execSetRefreshInterval, h]
  case writeProtection => simp only [exec, execWriteProtection, h]
  case bank => simp only [exec, execBank, h]
  case memoryView => simp only [exec, execMemoryView, h]

end Sys2Proof.Machine

/-! The pin topology validator: what its operations answer, what they change and what they leave alone (40_pin_topology
R142 to R154). -/

namespace Sys2Proof.Machine

/-! ### Exclusive bundles -/

/-- Settles O17: a step is a move from the state whose request has left the queue, and every move keeps the bundles
apart. -/
theorem stepKeepsBundlesExclusive : Obligations.StepKeepsBundlesExclusive := by
  intro s t ho hd hs
  obtain ⟨q, hm⟩ := step_move hs
  have hpins : ∀ p, PinKept (pinOf s p) (pinOf t p) := stepRel_keepsPins.step hs
  exact hm.bundles_exclusive hpins ho hd

/-! ### The frame of a pin operation -/

/-- Registers, sequencer and memory do not depend on pins, the history, the bundles held and the host's result: all that
an operation of the validator changes. -/
theorem frame_of_pins (s : State) (v : Vector PinState 256) (es : List Event) (bs : List Bundle) (r : Option Result) :
    SameRegisters s { s with pins := v, events := es, bundles := bs, result := r } ∧
      SameSequencer s { s with pins := v, events := es, bundles := bs, result := r } ∧
      SameMemory s { s with pins := v, events := es, bundles := bs, result := r } :=
  ⟨⟨fun q => by cases q <;> rfl, rfl⟩,
    ⟨rfl, fun b => by cases b <;> rfl, fun b => by cases b <;> rfl, rfl, rfl, rfl⟩,
    fun b _ => by cases b <;> rfl⟩

/-- With nothing in flight, marking pins changes only pins (40 R143). -/
theorem markPins_idle (ps : List PinId) {s : State} (hi : s.inflight = none) :
    ∃ v, markPins ps s = { s with pins := v } := by
  induction ps generalizing s with
  | nil => exact ⟨s.pins, rfl⟩
  | cons p ps ih =>
    obtain ⟨v, hv⟩ := ih (s := setPin p { pinOf s p with inBundle := true } s) hi
    refine ⟨v, ?_⟩
    calc markPins (p :: ps) s = markPins ps (updatePin p (fun q => { q with inBundle := true }) s) := rfl
      _ = { s with pins := v } := by rw [updatePin_idle hi]; exact hv

/-- With nothing in flight, preparing one pin is the update of the pin and its event (40 R151). -/
theorem preparePin_idle (p : PinId) {s : State} (hi : s.inflight = none) :
    preparePin s p =
      emit (.pinPrepared p) (setPin p { pinOf s p with slewHigh := true, pullupOff := true } s) := by
  rw [preparePin, updatePin_idle hi]

/-- With nothing in flight, preparing pins changes only pins, and records each in order (40 R151). -/
theorem foldl_preparePin_idle (ps : List PinId) {s : State} (hi : s.inflight = none) :
    ∃ v, ps.foldl preparePin s = { s with pins := v, events := s.events ++ ps.map .pinPrepared } := by
  induction ps generalizing s with
  | nil => exact ⟨s.pins, by simp⟩
  | cons p ps ih =>
    obtain ⟨v, hv⟩ := ih (s := preparePin s p) (by rw [preparePin_idle p hi]; exact hi)
    refine ⟨v, ?_⟩
    rw [List.foldl_cons, hv, preparePin_idle p hi]
    simp [emit, setPin]

theorem prepareBundle_idle (b : Bundle) {s : State} (hi : s.inflight = none) :
    ∃ v, prepareBundle s b = { s with pins := v, events := s.events ++ (bundlePins b).map .pinPrepared } :=
  foldl_preparePin_idle (bundlePins b) hi

/-! ### `BIND_PIN` -/

theorem exec_bindPin_outsideCap {p : PinId} {r : Role} {s : State} (hc : p ∉ capOf s.platform r) :
    exec (.bindPin p r) s = reject .pinRoleRejected s := by
  simp [exec, execBindPin, hc]

theorem exec_bindPin_notUnassigned {p : PinId} {r : Role} {s : State} (hc : p ∈ capOf s.platform r)
    (hu : (pinOf s p).binding ≠ .unassigned) : exec (.bindPin p r) s = reject .pinNotAvailable s := by
  simp [exec, execBindPin, hc, hu]

theorem exec_bindPin_idle {p : PinId} {r : Role} {s : State} (hc : p ∈ capOf s.platform r)
    (hu : (pinOf s p).binding = .unassigned) (hi : s.inflight = none) :
    exec (.bindPin p r) s =
      .next { setPin p { pinOf s p with binding := .bound r } s with result := some (.boundPin p r) } := by
  simp [exec, execBindPin, hc, hu, hi]

/-- Settles O27, by the two checks of R142 in their order. -/
theorem bindPinBindsOnce : Obligations.BindPinBindsOnce := by
  intro p r s
  refine ⟨exec_bindPin_outsideCap, exec_bindPin_notUnassigned, fun hc hu hi => ?_⟩
  obtain ⟨hreg, hseq, hmem⟩ := frame_of_pins s (s.pins.set p.val { pinOf s p with binding := .bound r }) s.events
    s.bundles (some (.boundPin p r))
  exact ⟨_, exec_bindPin_idle hc hu hi, rfl, fun q => pinOf_setPin p q _ s, rfl, hreg, hseq, hmem, rfl, rfl, rfl, rfl,
    rfl⟩

/-! ### Bundle constructors -/

theorem bankPinSupplied_iff (b : Bank) (cke cs : PinId) (s : State) :
    bankPinSupplied (otherBank b) cke cs s = true ↔ OtherBankPin s (.ckeCs ⟨b, cke, cs⟩) := by
  simp [bankPinSupplied, OtherBankPin]

/-- A constructor rejects a pin of the other bank, and else is `take` (40 R144 to R150). -/
theorem exec_constructor {i : Instr} {b : Bundle} (s : State) (h : constructedBundle i = some b) :
    (OtherBankPin s b → exec i s = reject .bankPinMismatch s) ∧ (¬ OtherBankPin s b → exec i s = makeBundle b s) := by
  cases i with
  | makeAddrBus | makeDataBus | makeBankAccess | makeByteEnable | makeSingle =>
    obtain rfl := Option.some.inj h
    exact ⟨False.elim, fun _ => rfl⟩
  | makeCkecsBank1 cke cs | makeCkecsBank2 cke cs =>
    obtain rfl := Option.some.inj h
    rw [← bankPinSupplied_iff]
    exact ⟨fun hs => if_pos hs, fun hs => if_neg hs⟩
  | _ => cases h

/-- A pin bound to its own bank's role is no pin of the other bank. -/
theorem not_otherBankPin_of_bound {s : State} {b : Bundle}
    (h : List.Forall₂ (fun p r => (pinOf s p).binding = .bound r) (bundlePins b) (bundleRoles b)) :
    ¬ OtherBankPin s b := by
  cases b with
  | addr | data | bankAccess | byteEnable | single => exact id
  | ckeCs c =>
    obtain ⟨bank, cke, cs⟩ := c
    simp only [bundlePins, bundleRoles, ckeCsRoles, List.forall₂_cons] at h
    obtain ⟨hcke, hcs, -⟩ := h
    cases bank <;> simp [OtherBankPin, otherBank, hcke, hcs]

theorem makeBundle_of_takeError {b : Bundle} {s : State} {e : Rejection}
    (h : takeError (bundlePins b) (bundleRoles b) s = some e) : makeBundle b s = reject e s := by
  simp [makeBundle, h]

theorem makeBundle_of_take {b : Bundle} {s : State} (h : takeError (bundlePins b) (bundleRoles b) s = none) :
    makeBundle b s =
      .next { markPins (bundlePins b) s with bundles := s.bundles ++ [b], result := some (.bundle b) } := by
  simp [makeBundle, h]

/-- Settles O28: pins that are bound and free pass every check, and `take` marks them. -/
theorem constructorTakesItsPins : Obligations.ConstructorTakesItsPins := by
  intro i b s hb hi hfree
  have hexec : exec i s = makeBundle b s :=
    (exec_constructor s hb).2 (not_otherBankPin_of_bound (hfree.imp fun _ _ => And.left))
  rw [hexec, makeBundle_of_take ((takeError_none_iff ..).mpr hfree)]
  have hpins := pinOf_markPins (bundlePins b) s
  obtain ⟨v, hv⟩ := markPins_idle (bundlePins b) hi
  rw [hv] at hpins ⊢
  obtain ⟨hreg, hseq, hmem⟩ := frame_of_pins s v s.events (s.bundles ++ [b]) (some (.bundle b))
  exact ⟨_, rfl, rfl, rfl, hpins, rfl, hreg, hseq, hmem, rfl, rfl, rfl, rfl⟩

/-! ### What `take` finds first -/

theorem takeError_of_length_ne {ps : List PinId} {rs : List Role} (s : State) (h : ps.length ≠ rs.length) :
    takeError ps rs s = some .bundleMalformed :=
  if_pos h

theorem takeError_of_length_eq {ps : List PinId} {rs : List Role} (s : State) (h : ps.length = rs.length) :
    takeError ps rs s = takeChecks s (ps.zip rs) :=
  if_neg (not_not_intro h)

/-- The checks of `take` pass over positions whose pin is bound to its role and free (40 R143). -/
theorem takeChecks_append_of_free {s : State} {pre : List (PinId × Role)} (rest : List (PinId × Role))
    (h : ∀ x ∈ pre, (pinOf s x.1).binding = .bound x.2 ∧ (pinOf s x.1).inBundle = false) :
    takeChecks s (pre ++ rest) = takeChecks s rest := by
  induction pre with
  | nil => rfl
  | cons x pre ih =>
    obtain ⟨⟨hbound, hfree⟩, hpre⟩ := List.forall_mem_cons.mp h
    simp [takeChecks, hbound, hfree, ih hpre]

theorem takeChecks_cons_of_not_bound {s : State} {p : PinId} {r : Role} (rest : List (PinId × Role))
    (h : (pinOf s p).binding ≠ .bound r) : takeChecks s ((p, r) :: rest) = some .bundleMalformed := by
  simp [takeChecks, h]

theorem takeChecks_cons_of_inBundle {s : State} {p : PinId} {r : Role} (rest : List (PinId × Role))
    (hb : (pinOf s p).binding = .bound r) (hi : (pinOf s p).inBundle = true) :
    takeChecks s ((p, r) :: rest) = some .pinNotAvailable := by
  simp [takeChecks, hb, hi]

/-- Settles O29: the other bank's pins, then the length, then the first position that fails. -/
theorem constructorRejectsInOrder : Obligations.ConstructorRejectsInOrder := by
  intro i b s hb
  obtain ⟨hother, htake⟩ := exec_constructor s hb
  refine ⟨hother, fun hn hlen => ?length, fun hn hlen pre p r post hzip hpre => ?position⟩
  case length => rw [htake hn, makeBundle_of_takeError (takeError_of_length_ne s hlen)]
  case position =>
    have hchecks : takeError (bundlePins b) (bundleRoles b) s = takeChecks s ((p, r) :: post) := by
      rw [takeError_of_length_eq s hlen, hzip, takeChecks_append_of_free _ hpre]
    rw [htake hn]
    exact ⟨fun hne => makeBundle_of_takeError (hchecks.trans (takeChecks_cons_of_not_bound post hne)),
      fun hbound hin => makeBundle_of_takeError (hchecks.trans (takeChecks_cons_of_inBundle post hbound hin))⟩

/-! ### Operations on a bundle the host holds -/

theorem holdsBundle_of_mem {s : State} {b : Bundle} (h : b ∈ s.bundles) : holdsBundle s b = true :=
  decide_eq_true h

theorem exec_preparePins_of_mem {s : State} {b : Bundle} (h : b ∈ s.bundles) :
    exec (.preparePins b) s = .next { prepareBundle s b with result := some (.bundle b) } :=
  if_pos (holdsBundle_of_mem h)

/-- Preparing a bundle again leaves every pin as the first time left it (40 R151). -/
theorem pinOf_prepareBundle_twice {s t : State} {b : Bundle} (h : ∀ p, pinOf t p = pinOf (prepareBundle s b) p)
    (p : PinId) : pinOf (prepareBundle t b) p = pinOf t p := by
  rw [pinOf_prepareBundle, h, pinOf_prepareBundle]
  split
  · rfl
  · rfl

/-- Settles O30: the flags by what preparing does to each pin, the rest by its changing only pins and the history. -/
theorem preparePinsPreparesEveryPin : Obligations.PreparePinsPreparesEveryPin := by
  intro b s hb hi
  have hpins := pinOf_prepareBundle s b
  have htwice : ∀ p, pinOf (prepareBundle { prepareBundle s b with result := some (.bundle b) } b) p =
      pinOf (prepareBundle s b) p := pinOf_prepareBundle_twice fun _ => rfl
  rw [exec_preparePins_of_mem hb]
  obtain ⟨v, hv⟩ := prepareBundle_idle b hi
  rw [hv] at hpins htwice ⊢
  obtain ⟨hreg, hseq, hmem⟩ :=
    frame_of_pins s v (s.events ++ (bundlePins b).map .pinPrepared) s.bundles (some (.bundle b))
  exact ⟨_, rfl, rfl, hpins, rfl, hreg, hseq, hmem, ⟨rfl, rfl, rfl, rfl, rfl⟩, _, exec_preparePins_of_mem hb, htwice⟩

/-- Settles O31: `WIDTH` of a held bus answers its variant's code. -/
theorem widthReportsTheCode : Obligations.WidthReportsTheCode := by
  intro b s h
  have hexec : exec (.width b) s = .next { s with result := some (.code (widthCode b.variant)) } :=
    if_pos (holdsBundle_of_mem h)
  rw [hexec]
  cases b.variant <;> rfl

/-- Settles O32: `BANK_OF_PINS` of a held pair answers the pair's bank. -/
theorem bankOfPinsReportsTheBank : Obligations.BankOfPinsReportsTheBank :=
  fun _ _ h => if_pos (holdsBundle_of_mem h)

end Sys2Proof.Machine

/-! The register programmer: what `MAKE_CONFIG` accepts, and what `CONFIGURE` records, programs, keeps and consumes
(41_register_programmer R181 to R192). -/

namespace Sys2Proof.Machine

/-! ### `MAKE_CONFIG` -/

/-- Every member of a Configuration is in its range (41 R181), the lower bound of the timing members set aside: a zero
among them is a check of its own. -/
def InRange (c : Configuration) : Prop :=
  (∀ v ∈ timingMembers c.timing, v ≤ 16) ∧ (1 ≤ c.timing.cas ∧ c.timing.cas ≤ 3) ∧
    (8 ≤ c.columnBits ∧ c.columnBits ≤ 11) ∧ (11 ≤ c.rowBits ∧ c.rowBits ≤ 13) ∧
    (2 ≤ c.clockDivisor ∧ c.clockDivisor ≤ 3) ∧ c.pipelineDelay ≤ 2

/-- The ranges as the checks ask for them (41 R181). -/
theorem inRange_iff_checks (c : Configuration) :
    InRange c ↔
      ¬ (timingMembers c.timing).any (fun v => decide (16 < v)) ∧ c.timing.cas ∈ [1, 2, 3] ∧
        c.columnBits ∈ [8, 9, 10, 11] ∧ c.rowBits ∈ [11, 12, 13] ∧ c.clockDivisor ∈ [2, 3] ∧
        c.pipelineDelay ∈ [0, 1, 2] := by
  have htiming : (∀ v ∈ timingMembers c.timing, v ≤ 16) ↔
      ¬ (timingMembers c.timing).any (fun v => decide (16 < v)) := by simp
  have hlists : ((1 ≤ c.timing.cas ∧ c.timing.cas ≤ 3) ↔ c.timing.cas ∈ [1, 2, 3]) ∧
      ((8 ≤ c.columnBits ∧ c.columnBits ≤ 11) ↔ c.columnBits ∈ [8, 9, 10, 11]) ∧
      ((11 ≤ c.rowBits ∧ c.rowBits ≤ 13) ↔ c.rowBits ∈ [11, 12, 13]) ∧
      ((2 ≤ c.clockDivisor ∧ c.clockDivisor ≤ 3) ↔ c.clockDivisor ∈ [2, 3]) ∧
      (c.pipelineDelay ≤ 2 ↔ c.pipelineDelay ∈ [0, 1, 2]) := by
    simp only [List.mem_cons, List.not_mem_nil, or_false]
    omega
  obtain ⟨hcas, hcolumns, hrows, hdivisor, hpipe⟩ := hlists
  rw [InRange, htiming, hcas, hcolumns, hrows, hdivisor, hpipe]

theorem configError_of_zero {c : Configuration} (h : 0 ∈ timingMembers c.timing) :
    configError c = some .timingZero :=
  if_pos (List.any_eq_true.mpr ⟨0, h, rfl⟩)

/-- Without a zero member only the ranges are left to check (41 R181). -/
theorem configError_of_positive {c : Configuration} (h : 0 ∉ timingMembers c.timing) :
    (InRange c → configError c = none) ∧ (¬ InRange c → configError c = some .fieldOutOfRange) := by
  have hzero : ¬ (timingMembers c.timing).any (· == 0) := by simpa using h
  rw [inRange_iff_checks, configError, if_neg hzero]
  constructor
  · rintro ⟨htiming, hcas, hcolumns, hrows, hdivisor, hpipe⟩
    rw [if_neg htiming, if_neg (not_not_intro hcas), if_neg (not_not_intro hcolumns), if_neg (not_not_intro hrows),
      if_neg (not_not_intro hdivisor), if_neg (not_not_intro hpipe)]
  · intro hout
    split_ifs with htiming hcas hcolumns hrows hdivisor hpipe
    case pos => rfl
    case pos => exact absurd ⟨htiming, hcas, hcolumns, hrows, hdivisor, hpipe⟩ hout
    all_goals rfl

/-- A valid Configuration holds encodable values only (41 R181, R191). -/
theorem inRange_of_valid {c : Configuration} (h : configError c = none) :
    0 ∉ timingMembers c.timing ∧ InRange c := by
  have hzero : 0 ∉ timingMembers c.timing := fun hz => nomatch (configError_of_zero hz).symm.trans h
  refine ⟨hzero, by_contra fun hout => ?_⟩
  cases ((configError_of_positive hzero).2 hout).symm.trans h

theorem exec_makeConfig_of_error {c : Configuration} {e : Rejection} (s : State) (h : configError c = some e) :
    exec (.makeConfig c) s = reject e s := by
  simp [exec, execMakeConfig, h]

theorem exec_makeConfig_of_valid {c : Configuration} {s : State} (h : configError c = none)
    (ha : .addr c.addrBus ∈ s.bundles) (hd : .data c.dataBus ∈ s.bundles) :
    exec (.makeConfig c) s = .next { s with configs := s.configs ++ [c], result := some (.config c) } := by
  simp [exec, execMakeConfig, h, holdsBundle_of_mem ha, holdsBundle_of_mem hd]

/-- Settles O34: the checks in their order, and the operation by what they answer. -/
theorem makeConfigChecksRanges : Obligations.MakeConfigChecksRanges := by
  intro c s
  refine ⟨fun hz => exec_makeConfig_of_error s (configError_of_zero hz),
    fun hz hout => exec_makeConfig_of_error s ((configError_of_positive hz).2 hout),
    fun hz ht hcas hcolumns hrows hdivisor hpipe ha hd => exec_makeConfig_of_valid ?_ ha hd⟩
  exact (configError_of_positive hz).1 ⟨ht, hcas, hcolumns, hrows, hdivisor, hpipe⟩

/-! ### Words with several fields replaced -/

/-- Two fields share no bit. -/
abbrev Apart (f g : Field) : Prop := f.lo + f.width ≤ g.lo ∨ g.lo + g.width ≤ f.lo

/-- The fields lie in the low `n` bits, no two of them share a bit, and each value fits its field (10 R23,
R26). -/
structure FieldsFit (n : Nat) (fs : List (Field × Nat)) : Prop where
  inside : ∀ f ∈ fs.map Prod.fst, f.lo + f.width ≤ n
  apart : (fs.map Prod.fst).Pairwise Apart
  value : ∀ x ∈ fs, x.2 < 2 ^ x.1.width

theorem FieldsFit.sublist {n : Nat} {fs gs : List (Field × Nat)} (h : FieldsFit n fs) (hs : gs.Sublist fs) :
    FieldsFit n gs where
  inside f hf := h.inside f ((hs.map Prod.fst).subset hf)
  apart := h.apart.sublist (hs.map Prod.fst)
  value x hx := h.value x (hs.subset hx)

/-- Every listed field of the word reads as its listed value. -/
def ReadsAs (w : Word) (fs : List (Field × Nat)) : Prop := ∀ x ∈ fs, getField x.1 w = x.2

theorem ReadsAs.mono {w : Word} {fs gs : List (Field × Nat)} (h : ReadsAs w fs) (hg : gs ⊆ fs) : ReadsAs w gs :=
  fun x hx => h x (hg hx)

/-- A field that shares no bit with the replaced ones keeps its value (20 R76). -/
theorem getField_insertFields_other {g : Field} (hg : g.lo + g.width ≤ 32) (fs : List (Field × Nat)) (w : Word)
    (h : ∀ f ∈ fs.map Prod.fst, Apart f g) : getField g (insertFields w fs) = getField g w := by
  induction fs generalizing w with
  | nil => rfl
  | cons x fs ih =>
    obtain ⟨hx, hfs⟩ := List.forall_mem_cons.mp h
    rw [insertFields_cons, ih _ hfs, getField_insertField_other _ _ _ _ hg hx]

/-- Fields replaced together each read as their new value (20 R76). -/
theorem readsAs_insertFields {fs : List (Field × Nat)} (h : FieldsFit 32 fs) (w : Word) :
    ReadsAs (insertFields w fs) fs := by
  induction fs generalizing w with
  | nil => exact fun x hx => absurd hx List.not_mem_nil
  | cons x fs ih =>
    obtain ⟨hin, hins⟩ := List.forall_mem_cons.mp h.inside
    obtain ⟨hap, haps⟩ := List.pairwise_cons.mp h.apart
    obtain ⟨hv, hvs⟩ := List.forall_mem_cons.mp h.value
    refine List.forall_mem_cons.mpr ⟨?_, ih ⟨hins, haps, hvs⟩ _⟩
    rw [insertFields_cons, getField_insertFields_other hin fs _ fun f hf => (hap f hf).symm,
      getField_insertField_same _ _ _ hin hv]

/-- A writable mask that covers the low `n` bits. -/
def Covers (m : Word) (n : Nat) : Prop := n ≤ 32 ∧ ∀ i, i < n → m.getLsbD i = true

theorem covers_maskCR : Covers maskCR 15 := ⟨by decide, fun i hi => (maskCR_getLsbD i).trans (decide_eq_true hi)⟩

theorem covers_maskTR : Covers maskTR 28 := ⟨by decide, fun i hi => (maskTR_getLsbD i).trans (decide_eq_true hi)⟩

theorem getField_and_of_covers {m : Word} {n : Nat} (hm : Covers m n) {f : Field} (hf : f.lo + f.width ≤ n)
    (w : Word) : getField f (w &&& m) = getField f w :=
  getField_and f w m fun j hj => hm.2 _ (by omega)

/-- The replaced fields of the word a register stores (10 R31, 20 R76). -/
theorem readsAs_stored {m : Word} {n : Nat} {fs : List (Field × Nat)} (hm : Covers m n) (h : FieldsFit n fs)
    (w : Word) : ReadsAs (insertFields w fs &&& m) fs := by
  have h32 : FieldsFit 32 fs := ⟨fun f hf => (h.inside f hf).trans hm.1, h.apart, h.value⟩
  intro x hx
  rw [getField_and_of_covers hm (h.inside _ (List.mem_map_of_mem hx)), readsAs_insertFields h32 w x hx]

/-- A field beside the replaced ones, in the word a register stores. -/
theorem getField_stored_other {m : Word} {n : Nat} {fs : List (Field × Nat)} (hm : Covers m n) {g : Field}
    (hg : g.lo + g.width ≤ n) (h : ∀ f ∈ fs.map Prod.fst, Apart f g) (w : Word) :
    getField g (insertFields w fs &&& m) = getField g w := by
  rw [getField_and_of_covers hm hg, getField_insertFields_other (hg.trans hm.1) fs w h]

/-- A bit beside the replaced fields, in the word a register with reserved bits 0 stores (10 R31). -/
theorem getLsbD_stored_other {m w : Word} {fs : List (Field × Nat)} (hres : w &&& ~~~ m = 0) {i : Nat}
    (h : ∀ f ∈ fs.map Prod.fst, ¬ (f.lo ≤ i ∧ i < f.lo + f.width)) :
    (insertFields w fs &&& m).getLsbD i = w.getLsbD i := by
  by_cases hi : i < 32
  · rw [BitVec.getLsbD_and, insertFields_getLsbD_other fs w i hi fun x hx => h _ (List.mem_map_of_mem hx)]
    cases hmi : m.getLsbD i with
    | true => rw [Bool.and_true]
    | false => rw [Bool.and_false, (and_not_eq_zero_iff w m).mp hres i hmi]
  · rw [BitVec.getLsbD_of_ge _ _ (Nat.le_of_not_lt hi), BitVec.getLsbD_of_ge _ _ (Nat.le_of_not_lt hi)]

/-- A control word without reserved bits is the sum of its nine fields at their places (10 R23). -/
theorem control_toNat {w : Word} (h : w.toNat < 2 ^ 15) :
    w.toNat = getField fNC w + getField fNR w * 2 ^ 2 + getField fMWID w * 2 ^ 4 + getField fNB w * 2 ^ 6 +
      getField fCAS w * 2 ^ 7 + getField fWP w * 2 ^ 9 + getField fSDCLK w * 2 ^ 10 + getField fRBURST w * 2 ^ 12 +
      getField fRPIPE w * 2 ^ 13 := by
  simp only [getField, Nat.shiftRight_eq_div_pow, fNC, fNR, fMWID, fNB, fCAS, fWP, fSDCLK, fRBURST, fRPIPE]
  omega

/-- A timing word without reserved bits is the sum of its seven fields at their places (10 R26). -/
theorem timing_toNat {w : Word} (h : w.toNat < 2 ^ 28) :
    w.toNat = getField fTMRD w + getField fTXSR w * 2 ^ 4 + getField fTRAS w * 2 ^ 8 + getField fTRC w * 2 ^ 12 +
      getField fTWR w * 2 ^ 16 + getField fTRP w * 2 ^ 20 + getField fTRCD w * 2 ^ 24 := by
  simp only [getField, Nat.shiftRight_eq_div_pow, fTMRD, fTXSR, fTRAS, fTRC, fTWR, fTRP, fTRCD]
  omega

/-! ### The codes fit their fields -/

theorem widthCode_lt (v : DataVariant) : widthCode v < 2 ^ 2 := by cases v <;> decide

theorem bankCountCode_lt (v : BankAccessVariant) : bankCountCode v < 2 ^ 1 := by cases v <;> decide

/-- The nine control fields together (41 R186). -/
theorem controlFields_fit {cfg : Configuration} (ba : BankAccess) (h : configError cfg = none) :
    FieldsFit 15 (sharedControlFields cfg ++ bankControlFields cfg ba) where
  inside := by simp [sharedControlFields, bankControlFields, fSDCLK, fRBURST, fRPIPE, fNC, fNR, fMWID, fNB, fCAS, fWP]
  apart := by
    simp [sharedControlFields, bankControlFields, Apart, fSDCLK, fRBURST, fRPIPE, fNC, fNR, fMWID, fNB, fCAS, fWP]
  value := by
    obtain ⟨-, -, hcas, hcolumns, hrows, hdivisor, hpipe⟩ := inRange_of_valid h
    have hmwid := widthCode_lt cfg.dataBus.variant
    have hnb := bankCountCode_lt ba.variant
    have hburst := bit_lt_two cfg.burstRead
    have hwp := bit_lt_two cfg.writeProtection
    simp only [sharedControlFields, bankControlFields, List.cons_append, List.nil_append, List.forall_mem_cons,
      List.not_mem_nil, false_imp_iff, implies_true, and_true, fSDCLK, fRBURST, fRPIPE, fNC, fNR, fMWID, fNB, fCAS, fWP]
    omega

/-- The seven timing fields together (41 R188). -/
theorem timingFields_fit {cfg : Configuration} (h : configError cfg = none) :
    FieldsFit 28 (allTimingFields cfg.timing) where
  inside := by simp [allTimingFields, fTMRD, fTXSR, fTRAS, fTRC, fTWR, fTRP, fTRCD]
  apart := by simp [allTimingFields, Apart, fTMRD, fTXSR, fTRAS, fTRC, fTWR, fTRP, fTRCD]
  value := by
    have hmembers := (inRange_of_valid h).2.1
    simp only [timingMembers, List.forall_mem_cons] at hmembers
    obtain ⟨hmrd, hxsr, hras, hrc, hwr, hrp, hrcd, -⟩ := hmembers
    simp only [allTimingFields, List.forall_mem_cons, List.not_mem_nil, false_imp_iff, implies_true, and_true, fTMRD,
      fTXSR, fTRAS, fTRC, fTWR, fTRP, fTRCD]
    omega

theorem sharedTimingFields_sublist (tm : Timing) : (sharedTimingFields tm).Sublist (allTimingFields tm) :=
  .cons _ (.cons _ (.cons _ (.cons_cons _ (.cons _ (.cons_cons _ (.cons _ .slnil))))))

theorem bankTimingFields_sublist (tm : Timing) : (bankTimingFields tm).Sublist (allTimingFields tm) :=
  .cons_cons _ (.cons_cons _ (.cons_cons _ (.cons _ (.cons_cons _ (.cons _ (.cons_cons _ .slnil))))))

/-! ### The gate and the pins -/

/-- Preparing bundles is preparing all their pins in order (41 R184). -/
theorem gateAndPrepare_eq_foldl (bs : List Bundle) (s : State) :
    gateAndPrepare bs s = (bs.flatMap bundlePins).foldl preparePin (emit .gateEnabled { s with clkGate := true }) :=
  List.foldl_flatMap.symm

theorem pinOf_gateAndPrepare (bs : List Bundle) (s : State) (p : PinId) :
    pinOf (gateAndPrepare bs s) p =
      if p ∈ bs.flatMap bundlePins then { pinOf s p with slewHigh := true, pullupOff := true } else pinOf s p := by
  rw [gateAndPrepare_eq_foldl, pinOf_foldl_preparePin]
  rfl

/-- With nothing in flight, the first two steps change the gate, pins and the history only, and record the gate before
every pin in order (41 R183, R184). -/
theorem gateAndPrepare_idle (bs : List Bundle) {s : State} (hi : s.inflight = none) :
    ∃ v, gateAndPrepare bs s =
      { s with clkGate := true, pins := v,
               events := s.events ++ [.gateEnabled] ++ (bs.flatMap bundlePins).map .pinPrepared } := by
  rw [gateAndPrepare_eq_foldl]
  exact foldl_preparePin_idle _ (s := emit .gateEnabled { s with clkGate := true }) hi

/-! ### What the register programmer writes -/

/-- What `SetFields` leaves in the four registers it is used on here: the fields replaced in its own word, the others as
before (20 R76). -/
theorem setFields_words {r : Reg} {fs : List (Field × Nat)} {s t : State} (h : setFields r fs s = .done () t) :
    (t.sdcr1 = if r = .sdcr1 then insertFields s.sdcr1 fs &&& maskCR else s.sdcr1) ∧
      (t.sdcr2 = if r = .sdcr2 then insertFields s.sdcr2 fs &&& maskCR else s.sdcr2) ∧
      (t.sdtr1 = if r = .sdtr1 then insertFields s.sdtr1 fs &&& maskTR else s.sdtr1) ∧
      (t.sdtr2 = if r = .sdtr2 then insertFields s.sdtr2 fs &&& maskTR else s.sdtr2) := by
  obtain ⟨-, u, rfl, hw⟩ := setFields_done h
  cases (regWrite_done hw).2 with
  | sdcr1 hr ht | sdcr2 hr ht | sdtr1 hr ht | sdtr2 hr ht | sdrtr hr ht | sdsr hr ht | idle hr _ _ ht
  | issued _ hr _ _ _ ht =>
    subst hr ht
    simp [regValue]

/-! ### What the register programmer records and leaves alone -/

/-- The four registers of the register programmer (41 R186 to R189). -/
def programmerRegs : List Reg := [.sdcr1, .sdcr2, .sdtr1, .sdtr2]

/-- The state with the registers of the programmer and the history set aside. -/
def besideProgram (s : State) : State := { s with sdcr1 := 0, sdcr2 := 0, sdtr1 := 0, sdtr2 := 0, events := [] }

def isRegWritten : Event → Bool
  | .regWritten _ _ => true
  | _ => false

def isRegReadEv : Event → Bool
  | .regReadEv _ _ => true
  | _ => false

/-- Events that are `n` register writes and as many register reads, and nothing else. -/
structure Transactions (n : Nat) (es : List Event) : Prop where
  only : ∀ e ∈ es, ∃ r v, e = .regReadEv r v ∨ e = .regWritten r v
  writes : es.countP isRegWritten = n
  reads : es.countP isRegReadEv = n

theorem Transactions.append {m n : Nat} {es fs : List Event} (he : Transactions m es) (hf : Transactions n fs) :
    Transactions (m + n) (es ++ fs) where
  only e h := (List.mem_append.mp h).elim (he.only e) (hf.only e)
  writes := by rw [List.countP_append, he.writes, hf.writes]
  reads := by rw [List.countP_append, he.reads, hf.reads]

/-- Between the two states lie `n` reads and `n` writes of the programmer's registers, and nothing else. -/
structure Programmed (n : Nat) (s t : State) : Prop where
  beside : besideProgram t = besideProgram s
  recorded : ∃ es, t.events = s.events ++ es ∧ Transactions n es

namespace Programmed

variable {m n : Nat} {s t u : State}

theorem trans (hst : Programmed m s t) (htu : Programmed n t u) : Programmed (m + n) s u := by
  obtain ⟨es, he, hes⟩ := hst.recorded
  obtain ⟨fs, hf, hfs⟩ := htu.recorded
  exact ⟨htu.beside.trans hst.beside, es ++ fs, by rw [hf, he, List.append_assoc], hes.append hfs⟩

/-- What only the fields that are left decide is the same in both states. -/
theorem keeps (h : Programmed n s t) {γ : Type} (f : State → γ) (hf : ∀ x, f (besideProgram x) = f x) :
    f t = f s := by
  rw [← hf t, h.beside, hf s]

theorem inflight_eq (h : Programmed n s t) : t.inflight = s.inflight := h.keeps (·.inflight) fun _ => rfl

/-- `SetFields` with nothing in flight is one read and one write (20 R76). -/
theorem setFields {r : Reg} {fs : List (Field × Nat)} (hr : r ∈ programmerRegs) (hi : s.inflight = none)
    (h : setFields r fs s = .done () t) : Programmed 1 s t := by
  obtain ⟨-, u, rfl, hw⟩ := setFields_done h
  have hw := (regWrite_done hw).2
  rw [engineTurn_idle hi, engineTurn_idle (s := emit _ s) hi] at hw
  have hbeside : besideProgram t = besideProgram s := by
    cases hw with
    | sdcr1 _ ht | sdcr2 _ ht | sdtr1 _ ht | sdtr2 _ ht =>
      subst ht
      rfl
    | sdrtr hq | sdsr hq | idle hq | issued _ hq =>
      subst hq
      exact absurd hr (by decide)
  have hne : r ≠ .sdcmr := by
    rintro rfl
    exact absurd hr (by decide)
  refine ⟨hbeside, [.regReadEv r (regValue s r), .regWritten r (insertFields (regValue s r) fs)], ?_, ?_, rfl, rfl⟩
  · rw [(hw.sequencer_eq hne).1, emit_events, emit_events, List.append_assoc]
    rfl
  · simp

theorem setFields_setFields {r q : Reg} {fs gs : List (Field × Nat)} (hr : r ∈ programmerRegs)
    (hq : q ∈ programmerRegs) (hi : s.inflight = none)
    (h : actThen (Machine.setFields r fs s) (fun _ u => Machine.setFields q gs u) = .done () t) : Programmed 2 s t := by
  obtain ⟨_, u, hu, ht⟩ := actThen_done h
  have hsu : Programmed 1 s u := setFields hr hi hu
  exact hsu.trans (setFields hq (hsu.inflight_eq.trans hi) ht)

end Programmed

/-- How many registers each of the two programming steps writes (41 R186 to R189). -/
def programmerWrites : Bank → Nat
  | .bank1 => 1
  | .bank2 => 2

theorem programControl_programmed {b : Bank} {cfg : Configuration} {ba : BankAccess} {s t : State}
    (hi : s.inflight = none) (h : programControl b cfg ba s = .done () t) : Programmed (programmerWrites b) s t := by
  cases b with
  | bank1 => exact .setFields (by decide) hi h
  | bank2 => exact .setFields_setFields (by decide) (by decide) hi h

theorem programTiming_programmed {b : Bank} {tm : Timing} {s t : State} (hi : s.inflight = none)
    (h : programTiming b tm s = .done () t) : Programmed (programmerWrites b) s t := by
  cases b with
  | bank1 => exact .setFields (by decide) hi h
  | bank2 => exact .setFields_setFields (by decide) (by decide) hi h

/-! ### The run of `CONFIGURE` -/

/-- The six steps of `CONFIGURE` for a bank, given the bundles it consumes (41 R183 to R190). -/
def ConfigureRun (b : Bank) (cfg : Configuration) (ba : BankAccess) (bs : List Bundle) (s t : State) : Prop :=
  ∃ u v, programControl b cfg ba (gateAndPrepare bs s) = .done () u ∧ programTiming b cfg.timing u = .done () v ∧
    t = { takeHandle b cfg bs v with result := some (.handle b) }

/-- The gate is on when the register programmer starts, so the run comes to its end (41 R182). -/
theorem exists_configureRun (b : Bank) (cfg : Configuration) (ba : BankAccess) (bs : List Bundle) (s : State) :
    ∃ t, ConfigureRun b cfg ba bs s t := by
  obtain ⟨u, hu, gu⟩ := programControl_of_gate b cfg ba (gateAndPrepare_clkGate_true bs s)
  obtain ⟨v, hv, -⟩ := programTiming_of_gate b cfg.timing gu
  exact ⟨_, u, v, hu, hv, rfl⟩

section Configure

variable {cfg : Configuration} {ba : BankAccess} {nbl : ByteEnable} {clk ras cas : PinId} {sel : CkeCs} {we : PinId}
  {s t : State}

/-- `CONFIGURE` without a Handle is its run, if the host holds the operands (41 R182; log 8). -/
theorem exec_configure_eq (hh : s.handle = none)
    (hr : ConfigureRun sel.bank cfg ba (configureBundles cfg ba nbl clk ras cas sel we) s t) :
    exec (.configure cfg ba nbl clk ras cas sel we) s =
      if holdsConfig s cfg && (configureBundles cfg ba nbl clk ras cas sel we).all (holdsBundle s) then .next t
      else .refused .noSuchValue := by
  obtain ⟨u, v, hu, hv, rfl⟩ := hr
  simp only [exec, execConfigure, hh, hu, hv, actThen_of_done, actEnd, Option.isSome_none, Bool.false_eq_true, if_false]

/-- A `CONFIGURE` without a Handle that answers a next state has run (41 R182). -/
theorem configureRun_of_next (hh : s.handle = none) (h : exec (.configure cfg ba nbl clk ras cas sel we) s = .next t) :
    ConfigureRun sel.bank cfg ba (configureBundles cfg ba nbl clk ras cas sel we) s t := by
  obtain ⟨t', hr⟩ := exists_configureRun sel.bank cfg ba (configureBundles cfg ba nbl clk ras cas sel we) s
  rw [exec_configure_eq hh hr] at h
  split at h
  · cases h
    exact hr
  · cases h

end Configure

namespace ConfigureRun

variable {b : Bank} {cfg : Configuration} {ba : BankAccess} {bs : List Bundle} {s t : State}

/-- With Bank1 selected each of its two registers is written once, and those of Bank2 are not (41 R186, R188). -/
theorem bankOne_words (h : ConfigureRun .bank1 cfg ba bs s t) :
    t.sdcr1 = insertFields s.sdcr1 (sharedControlFields cfg ++ bankControlFields cfg ba) &&& maskCR ∧
      t.sdcr2 = s.sdcr2 ∧ t.sdtr1 = insertFields s.sdtr1 (allTimingFields cfg.timing) &&& maskTR ∧
      t.sdtr2 = s.sdtr2 := by
  obtain ⟨u, v, hu, hv, rfl⟩ := h
  obtain ⟨hu1, hu2, hu3, hu4⟩ := setFields_words hu
  obtain ⟨hv1, hv2, hv3, hv4⟩ := setFields_words hv
  simp [takeHandle, hu1, hu2, hu3, hu4, hv1, hv2, hv3, hv4]

/-- With Bank2 selected the shared fields go to the registers of Bank1, the others to those of Bank2 (41 R187, R189). -/
theorem bankTwo_words (h : ConfigureRun .bank2 cfg ba bs s t) :
    t.sdcr1 = insertFields s.sdcr1 (sharedControlFields cfg) &&& maskCR ∧
      t.sdcr2 = insertFields s.sdcr2 (bankControlFields cfg ba) &&& maskCR ∧
      t.sdtr1 = insertFields s.sdtr1 (sharedTimingFields cfg.timing) &&& maskTR ∧
      t.sdtr2 = insertFields s.sdtr2 (bankTimingFields cfg.timing) &&& maskTR := by
  obtain ⟨u, v, hu, hv, rfl⟩ := h
  obtain ⟨_, x, hx, hu⟩ := actThen_done hu
  obtain ⟨_, y, hy, hv⟩ := actThen_done hv
  obtain ⟨hx1, hx2, hx3, hx4⟩ := setFields_words hx
  obtain ⟨hu1, hu2, hu3, hu4⟩ := setFields_words hu
  obtain ⟨hy1, hy2, hy3, hy4⟩ := setFields_words hy
  obtain ⟨hv1, hv2, hv3, hv4⟩ := setFields_words hv
  simp [takeHandle, hx1, hx2, hx3, hx4, hu1, hu2, hu3, hu4, hy1, hy2, hy3, hy4, hv1, hv2, hv3, hv4]

/-- With nothing in flight only transactions lie between the first two steps and the last (41 R186 to R190). -/
theorem programmed (h : ConfigureRun b cfg ba bs s t) (hi : s.inflight = none) :
    ∃ v, Programmed (programmerWrites b + programmerWrites b) (gateAndPrepare bs s) v ∧
      t = { takeHandle b cfg bs v with result := some (.handle b) } := by
  obtain ⟨u, v, hu, hv, ht⟩ := h
  have hidle : (gateAndPrepare bs s).inflight = none := by
    obtain ⟨ps, hprep⟩ := gateAndPrepare_idle bs hi
    rw [hprep]
    exact hi
  have hcontrol := programControl_programmed hidle hu
  exact ⟨v, hcontrol.trans (programTiming_programmed (hcontrol.inflight_eq.trans hidle) hv), ht⟩

end ConfigureRun

/-- Settles O35: the Handle is looked at before any operand. -/
theorem secondConfigureIsRejected : Obligations.SecondConfigureIsRejected := by
  intro cfg ba nbl clk ras cas sel we s h
  exact if_pos (Option.isSome_iff_ne_none.mpr h)

/-- A word masked to its low bits is below the next power of two. -/
theorem toNat_and_maskCR_lt (w : Word) : (w &&& maskCR).toNat < 2 ^ 15 :=
  Nat.lt_of_le_of_lt (BitVec.toNat_and .. ▸ Nat.and_le_right) (by decide)

@[inherit_doc toNat_and_maskCR_lt]
theorem toNat_and_maskTR_lt (w : Word) : (w &&& maskTR).toNat < 2 ^ 28 :=
  Nat.lt_of_le_of_lt (BitVec.toNat_and .. ▸ Nat.and_le_right) (by decide)

/-- Settles O37: the nine and the seven fields tile the writable bits of the two words. -/
theorem configureBankOneWritesWholeWords : Obligations.ConfigureBankOneWritesWholeWords := by
  intro cfg ba nbl clk ras cas sel we s t hh hb hc h
  obtain ⟨hcr1, hcr2, htr1, htr2⟩ := (hb ▸ configureRun_of_next hh h).bankOne_words
  refine ⟨hcr2, htr2, ?control, ?timing⟩
  case control =>
    have hreads := readsAs_stored covers_maskCR (controlFields_fit ba hc) s.sdcr1
    rw [← hcr1] at hreads
    simp only [ReadsAs, sharedControlFields, bankControlFields, List.cons_append, List.nil_append,
      List.forall_mem_cons] at hreads
    obtain ⟨hsdclk, hburst, hpipe, hnc, hnr, hmwid, hnb, hcas, hwp, -⟩ := hreads
    rw [control_toNat (hcr1 ▸ toNat_and_maskCR_lt _), hsdclk, hburst, hpipe, hnc, hnr, hmwid, hnb, hcas, hwp]
  case timing =>
    have hreads := readsAs_stored covers_maskTR (timingFields_fit hc) s.sdtr1
    rw [← htr1] at hreads
    simp only [ReadsAs, allTimingFields, List.forall_mem_cons] at hreads
    obtain ⟨hmrd, hxsr, hras, hrc, hwr, hrp, hrcd, -⟩ := hreads
    rw [timing_toNat (htr1 ▸ toNat_and_maskTR_lt _), hmrd, hxsr, hras, hrc, hwr, hrp, hrcd]

/-- Settles O38: each of the four words keeps the bits beside its replaced fields, the reserved ones being 0. -/
theorem configureBankTwoKeepsOtherBits : Obligations.ConfigureBankTwoKeepsOtherBits := by
  intro cfg ba nbl clk ras cas sel we s t hh hres hb h
  obtain ⟨hcr1, hcr2, htr1, htr2⟩ := (hb ▸ configureRun_of_next hh h).bankTwo_words
  obtain ⟨rcr1, rcr2, rtr1, rtr2, -, -, -⟩ := hres
  rw [hcr1, hcr2, htr1, htr2]
  refine ⟨fun i hi => getLsbD_stored_other rcr1 ?_, fun i hi _ => getLsbD_stored_other rcr2 ?_,
    fun i htrc htrp => getLsbD_stored_other rtr1 ?_, fun i hi => getLsbD_stored_other rtr2 ?_⟩
  · simp only [sharedControlFields, List.map_cons, List.map_nil, List.forall_mem_cons,
      List.not_mem_nil, false_imp_iff, implies_true, and_true, fSDCLK, fRBURST, fRPIPE]
    omega
  · simp only [bankControlFields, List.map_cons, List.map_nil, List.forall_mem_cons,
      List.not_mem_nil, false_imp_iff, implies_true, and_true, fNC, fNR, fMWID, fNB, fCAS, fWP]
    omega
  · simp only [sharedTimingFields, List.map_cons, List.map_nil, List.forall_mem_cons,
      List.not_mem_nil, false_imp_iff, implies_true, and_true, fTRC, fTRP]
    omega
  · simp only [bankTimingFields, List.map_cons, List.map_nil, List.forall_mem_cons,
      List.not_mem_nil, false_imp_iff, implies_true, and_true, fTMRD, fTXSR, fTRAS, fTWR, fTRCD]
    omega

/-! ### The effective configuration -/

/-- The effective configuration that a Configuration and a bank access stand for, member by member (41 R192). -/
def configuredEff (cfg : Configuration) (ba : BankAccess) : Eff :=
  { sdclk := cfg.clockDivisor, rburst := bit cfg.burstRead, rpipe := cfg.pipelineDelay,
    nc := cfg.columnBits - 8, nr := cfg.rowBits - 11, mwid := widthCode cfg.dataBus.variant,
    nb := bankCountCode ba.variant, cas := cfg.timing.cas, wp := bit cfg.writeProtection,
    trc := cfg.timing.tRc - 1, trp := cfg.timing.tRp - 1, tmrd := cfg.timing.tMrd - 1,
    txsr := cfg.timing.tXsr - 1, tras := cfg.timing.tRas - 1, twr := cfg.timing.tWr - 1,
    trcd := cfg.timing.tRcd - 1 }

/-- `eff` of a bank from the fields of the registers it is read from (10 R52). -/
theorem eff_eq_configuredEff {b : Bank} {cfg : Configuration} {ba : BankAccess} {t : State}
    (hsc : ReadsAs t.sdcr1 (sharedControlFields cfg))
    (hbc : ReadsAs (regValue t (controlReg b)) (bankControlFields cfg ba))
    (hst : ReadsAs t.sdtr1 (sharedTimingFields cfg.timing))
    (hbt : ReadsAs (regValue t (timingReg b)) (bankTimingFields cfg.timing)) : eff t b = configuredEff cfg ba := by
  simp only [ReadsAs, sharedControlFields, List.forall_mem_cons] at hsc
  simp only [ReadsAs, bankControlFields, List.forall_mem_cons] at hbc
  simp only [ReadsAs, sharedTimingFields, List.forall_mem_cons] at hst
  simp only [ReadsAs, bankTimingFields, List.forall_mem_cons] at hbt
  simp only [eff, configuredEff, hsc, hbc, hst, hbt]

/-- `eff(Bank1)` when only the shared fields of its registers were replaced (41 R192). -/
theorem eff_bank1_of_shared {cfg : Configuration} {s t : State}
    (hsc : ReadsAs t.sdcr1 (sharedControlFields cfg)) (hst : ReadsAs t.sdtr1 (sharedTimingFields cfg.timing))
    (hbc : ∀ f ∈ [fNC, fNR, fMWID, fNB, fCAS, fWP], getField f t.sdcr1 = getField f s.sdcr1)
    (hbt : ∀ f ∈ [fTMRD, fTXSR, fTRAS, fTWR, fTRCD], getField f t.sdtr1 = getField f s.sdtr1) :
    eff t .bank1 =
      { eff s .bank1 with
        sdclk := cfg.clockDivisor, rburst := bit cfg.burstRead, rpipe := cfg.pipelineDelay,
        trc := cfg.timing.tRc - 1, trp := cfg.timing.tRp - 1 } := by
  simp only [ReadsAs, sharedControlFields, List.forall_mem_cons] at hsc
  simp only [ReadsAs, sharedTimingFields, List.forall_mem_cons] at hst
  simp only [List.forall_mem_cons] at hbc hbt
  simp only [eff, controlReg, timingReg, regValue, hsc, hst, hbc, hbt]

namespace ConfigureRun

variable {b : Bank} {cfg : Configuration} {ba : BankAccess} {bs : List Bundle} {s t : State}

/-- The selected bank's effective configuration is the one it was given (41 R192). -/
theorem eff_eq (h : ConfigureRun b cfg ba bs s t) (hc : configError cfg = none) : eff t b = configuredEff cfg ba := by
  have hcontrol := controlFields_fit ba hc
  have htiming := timingFields_fit hc
  cases b with
  | bank1 =>
    obtain ⟨hcr1, -, htr1, -⟩ := h.bankOne_words
    have hcr : ReadsAs t.sdcr1 _ := hcr1 ▸ readsAs_stored covers_maskCR hcontrol s.sdcr1
    have htr : ReadsAs t.sdtr1 _ := htr1 ▸ readsAs_stored covers_maskTR htiming s.sdtr1
    exact eff_eq_configuredEff (hcr.mono (List.subset_append_left ..)) (hcr.mono (List.subset_append_right ..))
      (htr.mono (sharedTimingFields_sublist _).subset) (htr.mono (bankTimingFields_sublist _).subset)
  | bank2 =>
    obtain ⟨hcr1, hcr2, htr1, htr2⟩ := h.bankTwo_words
    have hsc : ReadsAs t.sdcr1 (sharedControlFields cfg) :=
      hcr1 ▸ readsAs_stored covers_maskCR (hcontrol.sublist (List.sublist_append_left ..)) s.sdcr1
    have hbc : ReadsAs t.sdcr2 (bankControlFields cfg ba) :=
      hcr2 ▸ readsAs_stored covers_maskCR (hcontrol.sublist (List.sublist_append_right ..)) s.sdcr2
    have hst : ReadsAs t.sdtr1 (sharedTimingFields cfg.timing) :=
      htr1 ▸ readsAs_stored covers_maskTR (htiming.sublist (sharedTimingFields_sublist _)) s.sdtr1
    have hbt : ReadsAs t.sdtr2 (bankTimingFields cfg.timing) :=
      htr2 ▸ readsAs_stored covers_maskTR (htiming.sublist (bankTimingFields_sublist _)) s.sdtr2
    exact eff_eq_configuredEff hsc hbc hst hbt

/-- With Bank2 selected `eff(Bank1)` changes in the five shared members only (41 R192). -/
theorem eff_bank1 (h : ConfigureRun .bank2 cfg ba bs s t) (hc : configError cfg = none) :
    eff t .bank1 =
      { eff s .bank1 with
        sdclk := cfg.clockDivisor, rburst := bit cfg.burstRead, rpipe := cfg.pipelineDelay,
        trc := cfg.timing.tRc - 1, trp := cfg.timing.tRp - 1 } := by
  obtain ⟨hcr1, -, htr1, -⟩ := h.bankTwo_words
  have hcontrol := (controlFields_fit ba hc).sublist (List.sublist_append_left ..)
  have htiming := (timingFields_fit hc).sublist (sharedTimingFields_sublist _)
  refine eff_bank1_of_shared (hcr1 ▸ readsAs_stored covers_maskCR hcontrol s.sdcr1)
    (htr1 ▸ readsAs_stored covers_maskTR htiming s.sdtr1) (fun f hf => ?control) (fun f hf => ?timing)
  case control =>
    have hinside : ∀ g ∈ [fNC, fNR, fMWID, fNB, fCAS, fWP], g.lo + g.width ≤ 15 := by decide
    have hapart : ∀ g ∈ [fNC, fNR, fMWID, fNB, fCAS, fWP], ∀ x ∈ [fSDCLK, fRBURST, fRPIPE], Apart x g := by
      decide
    rw [hcr1]
    exact getField_stored_other (fs := sharedControlFields cfg) covers_maskCR (hinside f hf) (hapart f hf) _
  case timing =>
    have hinside : ∀ g ∈ [fTMRD, fTXSR, fTRAS, fTWR, fTRCD], g.lo + g.width ≤ 28 := by decide
    have hapart : ∀ g ∈ [fTMRD, fTXSR, fTRAS, fTWR, fTRCD], ∀ x ∈ [fTRC, fTRP], Apart x g := by decide
    rw [htr1]
    exact getField_stored_other (fs := sharedTimingFields cfg.timing) covers_maskTR (hinside f hf) (hapart f hf) _

end ConfigureRun

/-- Settles O36: the run of `CONFIGURE` by its two preparing steps, its two programming steps and its last. -/
theorem configurePostcondition : Obligations.ConfigurePostcondition := by
  intro cfg ba nbl clk ras cas sel we s hh hi hcfg hc hb
  have hheld : (holdsConfig s cfg && (configureBundles cfg ba nbl clk ras cas sel we).all (holdsBundle s)) = true := by
    simpa [holdsConfig, holdsBundle, hcfg, hc] using hb
  obtain ⟨t, hrun⟩ := exists_configureRun sel.bank cfg ba (configureBundles cfg ba nbl clk ras cas sel we) s
  have hexec := (exec_configure_eq hh hrun).trans (if_pos hheld)
  have heff := hrun.eff_eq hc
  have heff1 : sel.bank = .bank2 → _ := fun hbank => (hbank ▸ hrun).eff_bank1 hc
  have hpins := pinOf_gateAndPrepare (configureBundles cfg ba nbl clk ras cas sel we) s
  obtain ⟨v, hprog, rfl⟩ := hrun.programmed hi
  obtain ⟨ps, hprep⟩ := gateAndPrepare_idle (configureBundles cfg ba nbl clk ras cas sel we) hi
  rw [hprep] at hprog hpins
  obtain ⟨regs, hevents, hregs⟩ := hprog.recorded
  have hcount : programmerWrites sel.bank + programmerWrites sel.bank =
      (match sel.bank with | .bank1 => 2 | .bank2 => 4) := by cases sel.bank <;> rfl
  refine ⟨_, regs, hexec, rfl, hprog.keeps (·.clkGate) fun _ => rfl,
    fun p => (hprog.keeps (pinOf · p) fun _ => rfl).trans (hpins p), rfl,
    heff, heff1,
    hprog.keeps (·.sdcmr) fun _ => rfl, hprog.keeps (·.sdrtr) fun _ => rfl, hprog.keeps (·.sdsr) fun _ => rfl,
    phaseOf_congr (hprog.keeps (·.phase1) fun _ => rfl) (hprog.keeps (·.phase2) fun _ => rfl),
    delayOkOf_congr (hprog.keeps (·.delayOk1) fun _ => rfl) (hprog.keeps (·.delayOk2) fun _ => rfl),
    hprog.keeps (·.refreshProgrammed) fun _ => rfl, hprog.inflight_eq.trans hi, ?memory,
    hprog.keeps (·.faulted) fun _ => rfl, hprog.keeps (·.platform) fun _ => rfl, hprog.keeps (·.queue) fun _ => rfl,
    hprog.keeps (·.polling) fun _ => rfl, ?bundles, ?configs, hevents, hregs.only, hregs.writes.trans hcount,
    hregs.reads.trans hcount⟩
  case memory =>
    intro b o
    have hmem : memOf v b = memOf s b :=
      memOf_congr (hprog.keeps (·.mem1) fun _ => rfl) (hprog.keeps (·.mem2) fun _ => rfl) b
    exact congrArg (memByte · o) hmem
  case bundles =>
    intro b
    have hbundles : v.bundles = s.bundles := hprog.keeps (·.bundles) fun _ => rfl
    simp [takeHandle, hbundles]
  case configs =>
    have hconfigs : v.configs = s.configs := hprog.keeps (·.configs) fun _ => rfl
    rw [takeHandle, hconfigs]

end Sys2Proof.Machine

/-! The command sequencer: the phase tracker as a run, what a write of `SDCMR` issues or stores, the operations on the
Handle's registers, the poll loop, and the runs that use the spec's operations alone (42_command_sequencer). -/

namespace Sys2Proof.Machine

/-! ### The phase tracker as a run -/

/-- Settles O43, by the rows of the table; whatever is in none of them is `Violated`. -/
theorem trackerFollowsTheTable : Obligations.TrackerFollowsTheTable := by
  intro m p d
  unfold nextTrack
  split
  case h_1 | h_2 | h_3 | h_4 => rfl
  case h_5 hclk hrefresh hload hpall =>
    rw [if_neg fun ⟨hm, hp⟩ => hclk hm hp, if_neg fun ⟨hm, hp, hd⟩ => hpall hm hp hd,
      if_neg fun ⟨hm, hp⟩ => hrefresh hm hp, if_neg fun ⟨hm, hp⟩ => hload hm hp]

theorem trackerRun_append (as bs : List TrackerAction) (x : Phase × Bool) :
    trackerRun (as ++ bs) x = trackerRun bs (trackerRun as x) := List.foldl_append

theorem trackerRun_cons (a : TrackerAction) (as : List TrackerAction) (x : Phase × Bool) :
    trackerRun (a :: as) x = trackerRun as (trackerStep x a) := rfl

theorem onlyDelays_nil : OnlyDelays [] := fun _ h => nomatch h

theorem onlyDelays_cons {n : Nat} {as : List TrackerAction} (h : OnlyDelays as) : OnlyDelays (.delay n :: as) :=
  List.forall_mem_cons.mpr ⟨⟨n, rfl⟩, h⟩

/-- A sequence is delays alone, or it has a first command. -/
theorem onlyDelays_or_first_command (acts : List TrackerAction) :
    OnlyDelays acts ∨ ∃ as m rest, OnlyDelays as ∧ acts = as ++ .command m :: rest := by
  induction acts with
  | nil => exact .inl onlyDelays_nil
  | cons a acts ih =>
    cases a with
    | command m => exact .inr ⟨[], m, acts, onlyDelays_nil, rfl⟩
    | delay n =>
      refine ih.imp onlyDelays_cons ?_
      rintro ⟨as, m, rest, has, rfl⟩
      exact ⟨.delay n :: as, m, rest, onlyDelays_cons has, rfl⟩

/-- Delays move no phase (42 R217). -/
theorem trackerRun_delays_phase {as : List TrackerAction} (h : OnlyDelays as) (x : Phase × Bool) :
    (trackerRun as x).1 = x.1 := by
  induction as generalizing x with
  | nil => rfl
  | cons a as ih =>
    obtain ⟨⟨n, rfl⟩, has⟩ := List.forall_mem_cons.mp h
    exact ih has _

/-- Outside `ClockEnabled` delays do nothing (42 R217). -/
theorem trackerRun_delays_of_ne {as : List TrackerAction} (h : OnlyDelays as) {p : Phase} (hp : p ≠ .clockEnabled)
    (d : Bool) : trackerRun as (p, d) = (p, d) := by
  induction as with
  | nil => rfl
  | cons a as ih =>
    obtain ⟨⟨n, rfl⟩, has⟩ := List.forall_mem_cons.mp h
    have hstep : trackerStep (p, d) (.delay n) = (p, d) := by simp [trackerStep, hp]
    rw [trackerRun_cons, hstep, ih has]

/-- In `ClockEnabled` delays make `delay_ok` true exactly when one of them has a tick (42 R217). -/
theorem trackerRun_delays_ok {as : List TrackerAction} (h : OnlyDelays as) (d : Bool) :
    (trackerRun as (.clockEnabled, d)).2 = true ↔ d = true ∨ HasDelay as := by
  induction as generalizing d with
  | nil => simp [trackerRun, HasDelay]
  | cons a as ih =>
    obtain ⟨⟨n, rfl⟩, has⟩ := List.forall_mem_cons.mp h
    have hcons : HasDelay (.delay n :: as) ↔ 1 ≤ n ∨ HasDelay as := by
      simp only [HasDelay, List.mem_cons, TrackerAction.delay.injEq, and_or_left, exists_or, exists_eq_right]
    have hstep : trackerStep (.clockEnabled, d) (.delay n) = (.clockEnabled, d || decide (1 ≤ n)) := by
      simp [trackerStep]
    rw [trackerRun_cons, hstep, ih has, hcons, Bool.or_eq_true, decide_eq_true_iff, or_assoc]

/-- No action leads out of `Violated` (42 R216). -/
theorem trackerRun_violated (acts : List TrackerAction) (d : Bool) :
    (trackerRun acts (.violated, d)).1 = .violated := by
  induction acts generalizing d with
  | nil => rfl
  | cons a acts ih =>
    cases a with
    | command m => cases m <;> exact ih d
    | delay n => exact ih _

/-- From a phase that is not `ModeLoaded` the run goes on through a first command. -/
theorem loads_iff_first_command {p : Phase} (hp : p ≠ .modeLoaded) (acts : List TrackerAction) (d : Bool) :
    (trackerRun acts (p, d)).1 = .modeLoaded ↔
      ∃ as m rest, OnlyDelays as ∧ acts = as ++ .command m :: rest ∧
        (trackerRun rest (nextTrack m p (trackerRun as (p, d)).2)).1 = .modeLoaded := by
  have hsplit {as rest : List TrackerAction} {m : CmdMode} (has : OnlyDelays as) :
      trackerRun (as ++ .command m :: rest) (p, d) =
        trackerRun rest (nextTrack m p (trackerRun as (p, d)).2) := by
    rw [trackerRun_append, trackerRun_cons, trackerStep, trackerRun_delays_phase has]
  constructor
  · intro h
    rcases onlyDelays_or_first_command acts with hd | ⟨as, m, rest, has, rfl⟩
    · exact absurd ((trackerRun_delays_phase hd (p, d)).symm.trans h) hp
    · exact ⟨as, m, rest, has, rfl, hsplit has ▸ h⟩
  · rintro ⟨as, m, rest, has, rfl, h⟩
    rw [hsplit has, h]

/-- The one command that may come next in a phase (42 R216). -/
def required : Phase → Option CmdMode
  | .powerUp => some .clockEnable
  | .clockEnabled => some .prechargeAll
  | .precharged => some .autoRefresh
  | .refreshed => some .loadModeRegister
  | .modeLoaded | .violated => none

theorem nextTrack_of_not_required {m : CmdMode} {p : Phase} (h : required p ≠ some m) (d : Bool) :
    nextTrack m p d = (.violated, d) := by
  unfold nextTrack
  split
  case h_1 | h_2 | h_3 | h_4 => exact absurd rfl h
  case h_5 => rfl

/-- The required command comes first, after delays that meet its condition `P`. -/
theorem loads_iff_of_required {p q : Phase} {m : CmdMode} {d e : Bool} {P : List TrackerAction → Prop}
    (hm : required p = some m)
    (hmissed : ∀ as, OnlyDelays as → ¬ P as → (nextTrack m p (trackerRun as (p, d)).2).1 = .violated)
    (hnext : ∀ as, OnlyDelays as → P as → nextTrack m p (trackerRun as (p, d)).2 = (q, e))
    (acts : List TrackerAction) :
    (trackerRun acts (p, d)).1 = .modeLoaded ↔
      ∃ as rest, OnlyDelays as ∧ P as ∧ acts = as ++ .command m :: rest ∧
        (trackerRun rest (q, e)).1 = .modeLoaded := by
  have hlost {x : Phase × Bool} {rest : List TrackerAction} (hx : x.1 = .violated) :
      (trackerRun rest x).1 ≠ .modeLoaded := by
    rw [← Prod.mk.eta (p := x), hx, trackerRun_violated]
    decide
  have hp : p ≠ .modeLoaded := by
    rintro rfl
    cases hm
  rw [loads_iff_first_command hp]
  constructor
  · rintro ⟨as, m', rest, has, hacts, h⟩
    have hm' : m = m' := by
      by_contra hne
      have hnot : required p ≠ some m' := by simpa [hm] using hne
      exact hlost (congrArg Prod.fst (nextTrack_of_not_required hnot _)) h
    subst hm'
    have hP : P as := by_contra fun hP => hlost (hmissed as has hP) h
    exact ⟨as, rest, has, hP, hacts, hnext as has hP ▸ h⟩
  · rintro ⟨as, rest, has, hP, hacts, h⟩
    exact ⟨as, m, rest, has, hacts, hnext as has hP ▸ h⟩

/-- Where the required command has no condition on the delays before it. -/
theorem loads_iff_of_required_anyway {p q : Phase} {m : CmdMode} {d e : Bool} (hm : required p = some m)
    (hp : p ≠ .clockEnabled) (hnext : nextTrack m p d = (q, e)) (acts : List TrackerAction) :
    (trackerRun acts (p, d)).1 = .modeLoaded ↔
      ∃ as rest, OnlyDelays as ∧ acts = as ++ .command m :: rest ∧ (trackerRun rest (q, e)).1 = .modeLoaded := by
  rw [loads_iff_of_required (P := fun _ => True) hm (fun _ _ h => absurd trivial h) fun as has _ => by
    rw [trackerRun_delays_of_ne has hp, hnext]]
  simp only [true_and]

theorem loads_from_modeLoaded (acts : List TrackerAction) (d : Bool) :
    (trackerRun acts (.modeLoaded, d)).1 = .modeLoaded ↔ OnlyDelays acts := by
  refine ⟨fun h => ?_, fun h => trackerRun_delays_phase h _⟩
  rcases onlyDelays_or_first_command acts with hd | ⟨as, m, rest, has, rfl⟩
  · exact hd
  · rw [trackerRun_append, trackerRun_cons, trackerRun_delays_of_ne has (by decide), trackerStep,
      nextTrack_of_not_required (p := .modeLoaded) nofun, trackerRun_violated] at h
    cases h

/-- In `ClockEnabled` the delays before the precharge have to hold one of at least one tick (42 R217). -/
theorem loads_from_clockEnabled (acts : List TrackerAction) :
    (trackerRun acts (.clockEnabled, false)).1 = .modeLoaded ↔
      ∃ as rest, OnlyDelays as ∧ HasDelay as ∧ acts = as ++ .command .prechargeAll :: rest ∧
        (trackerRun rest (.precharged, true)).1 = .modeLoaded := by
  have hok {as : List TrackerAction} (has : OnlyDelays as) :
      (trackerRun as (.clockEnabled, false)).2 = true ↔ HasDelay as := by
    rw [trackerRun_delays_ok has]
    simp
  refine loads_iff_of_required rfl (fun as has hno => ?_) (fun as has hd => ?_) acts
  · rw [Bool.eq_false_iff.mpr (mt (hok has).mp hno)]
    rfl
  · rw [(hok has).mpr hd]
    rfl

/-- Settles O44: phase by phase, the required command and the delays before it. -/
theorem onlyTheRequiredOrderLoadsTheMode : Obligations.OnlyTheRequiredOrderLoadsTheMode := by
  intro acts d
  rw [loads_iff_of_required_anyway rfl (by decide) rfl]
  simp only [loads_from_clockEnabled, loads_from_modeLoaded,
    loads_iff_of_required_anyway (p := .precharged) rfl (by decide) rfl,
    loads_iff_of_required_anyway (p := .refreshed) rfl (by decide) rfl]
  constructor
  · rintro ⟨a0, _, h0, rfl, a1, _, h1, hd, rfl, a2, _, h2, rfl, a3, a4, h3, rfl, h4⟩
    exact ⟨a0, a1, a2, a3, a4, h0, h1, h2, h3, h4, hd, by simp⟩
  · rintro ⟨a0, a1, a2, a3, a4, h0, h1, h2, h3, h4, hd, rfl⟩
    exact ⟨a0, _, h0, by simp, a1, _, h1, hd, rfl, a2, _, h2, rfl, a3, a4, h3, rfl, h4⟩

/-! ### What `DELAY` leaves -/

theorem exec_delay_idle (n : Nat) {s : State} (hi : s.inflight = none) :
    exec (.delay n) s =
      .next { (if 1 ≤ n then observeDelay .bank2 (observeDelay .bank1 (emit (.delayed n) s))
               else emit (.delayed n) s) with result := some .unit } := by
  simp only [exec, execDelay, engineTurn_idle hi]

/-- Both banks see the delay, each by its own phase (42 R217). -/
theorem track_observeDelays (s : State) (b : Bank) :
    (phaseOf (observeDelay .bank2 (observeDelay .bank1 s)) b,
        delayOkOf (observeDelay .bank2 (observeDelay .bank1 s)) b) =
      (phaseOf s b, delayOkOf s b || decide (phaseOf s b = .clockEnabled)) := by
  cases b <;> simp

/-- Settles O45, by whether the delay has a tick. -/
theorem delayMarksClockEnabledBanks : Obligations.DelayMarksClockEnabledBanks := by
  intro n s hi
  refine ⟨_, exec_delay_idle n hi, ?_⟩
  by_cases hn : 1 ≤ n
  · simp only [if_pos hn]
    refine ⟨by simp, fun b => ?track, ⟨fun r => ?registers, by simp⟩, fun p => pinOf_congr (by simp) p,
      fun b o => congrArg (memByte · o) (memOf_congr (by simp) (by simp) b),
      ⟨by simp, by simp, by simp, by simp, by simp⟩, by simp, by simp, by simpa using hi, by simp⟩
    case track =>
      refine (track_observeDelays (emit (.delayed n) s) b).trans ?_
      rw [trackerStep, decide_eq_true hn, Bool.true_and]
      cases b <;> rfl
    case registers => cases r <;> simp [regValue]
  · simp only [if_neg hn]
    refine ⟨rfl, fun b => ?track, ⟨fun r => by cases r <;> rfl, rfl⟩, fun p => rfl, fun b o => by cases b <;> rfl,
      ⟨rfl, rfl, rfl, rfl, rfl⟩, rfl, rfl, hi, rfl⟩
    case track =>
      rw [trackerStep, decide_eq_false hn, Bool.false_and, Bool.or_false]
      cases b <;> rfl

/-! ### Masks that cover a field -/

/-- The bits of a word that a field's mask leaves are the field's value at its place. -/
theorem toNat_and_fieldMask {f : Field} (hf : f.lo + f.width ≤ 32) (w : Word) :
    (w &&& fieldMask f).toNat = getField f w * 2 ^ f.lo := by
  refine Nat.eq_of_testBit_eq fun i => ?_
  have hbit : (w &&& fieldMask f).toNat.testBit i = (w.getLsbD i && decide (f.lo ≤ i ∧ i < f.lo + f.width)) := by
    rw [← fieldMask_getLsbD hf, ← BitVec.getLsbD_and]
    rfl
  rw [hbit, Nat.testBit_mul_two_pow, getField_testBit]
  by_cases hlo : f.lo ≤ i
  · have hlt : i - f.lo < f.width ↔ i < f.lo + f.width := by omega
    simp [hlo, hlt, Bool.and_comm]
  · simp [hlo]

theorem fieldMask_cmr : fieldMask ⟨5, 20⟩ = maskCMR := by decide

theorem fieldMask_rtr : fieldMask fCOUNT = maskRTR := by decide

/-- What `SDCMR` stores of a command word: `NRFS` and `MRD` alone (10 R31, 42 R213). -/
theorem toNat_assembleCmd_and_maskCMR (mode : BitVec 3) (ops : CmdOperands) :
    (assembleCmd mode ops &&& maskCMR).toNat = ops.mrd.toNat * 2 ^ 9 + ops.nrfs.toNat * 2 ^ 5 := by
  have hstored := toNat_and_fieldMask (f := ⟨5, 20⟩) (by decide) (assembleCmd mode ops)
  rw [fieldMask_cmr, getField, Nat.shiftRight_eq_div_pow, assembleCmd_toNat] at hstored
  have hmode := mode.isLt
  have hctb2 := bit_lt_two ops.ctb2
  have hctb1 := bit_lt_two ops.ctb1
  have hnrfs := ops.nrfs.isLt
  have hmrd := ops.mrd.isLt
  simp only at hstored
  omega

/-! ### Writes of `SDCMR` that issue a command -/

/-- What the write of a command word leaves when it issues the command (42 R213). -/
structure Issued (w : Word) (c : Command) (s t : State) : Prop where
  events : t.events = s.events ++ [.regWritten .sdcmr w, .cmdIssued c]
  inflight : t.inflight = some c
  busy : busy t = true
  status : t.sdsr = s.sdsr ||| busyWord
  busyLeft : t.busyLeft = Config.busyDuration s.draws
  draws : t.draws = s.draws + 1
  stored : t.sdcmr = w &&& maskCMR
  track : ∀ b, (phaseOf t b, delayOkOf t b) =
    if targets c b then nextTrack c.mode (phaseOf s b) (delayOkOf s b) else (phaseOf s b, delayOkOf s b)
  registers : ∀ r, r ≠ .sdcmr → r ≠ .sdsr → regValue t r = regValue s r
  gate : t.clkGate = true
  handle : t.handle = s.handle
  refresh : t.refreshProgrammed = s.refreshProgrammed
  faulted : t.faulted = s.faulted
  pins : SamePins s t
  memory : SameMemory s t
  host : SameHost s t

/-- A write of `SDCMR` while nothing is in flight and `BUSY` is 0 (20 R73). -/
theorem regWrite_sdcmr_idle (w : Word) {s : State} (hg : s.clkGate = true) (hi : s.inflight = none) :
    regWrite .sdcmr w s = writeCommand w (emit (.regWritten .sdcmr w) s) := by
  simp [regWrite, hi, hg]

theorem writeCommand_of_command {w : Word} {c : Command} {s : State} (hb : busy s = false) (hc : commandOf w = some c) :
    writeCommand w s = .done () (issueCommand c { s with sdcmr := w &&& maskCMR }) := by
  simp only [writeCommand, hb, hc, Bool.false_eq_true, if_false, if_neg (cmdModeBits_ne_zero_of_command hc)]

/-- A command word written while nothing is in flight and `BUSY` is 0 issues its command (20 R73, 42 R213). -/
theorem regWrite_issues {w : Word} {c : Command} {s : State} (hg : s.clkGate = true) (hi : s.inflight = none)
    (hb : busy s = false) (hc : commandOf w = some c) : ∃ t, regWrite .sdcmr w s = .done () t ∧ Issued w c s t := by
  have hd := (regWrite_sdcmr_idle w hg hi).trans (writeCommand_of_command hb hc)
  obtain ⟨hpins, hmemory, hhost⟩ := (regWrite_done hd).2.frame
  rw [engineTurn_idle hi] at hpins hmemory hhost
  refine ⟨_, hd, ?_⟩
  exact
    { events := by simp
      inflight := issueCommand_inflight ..
      busy := busy_issueCommand ..
      status := issueCommand_sdsr ..
      busyLeft := issueCommand_busyLeft ..
      draws := issueCommand_draws ..
      stored := issueCommand_sdcmr ..
      track := fun b => (track_issueCommand ..).trans (by cases b <;> rfl)
      registers := fun r hr hs => by cases r <;> simp_all [regValue]
      gate := (issueCommand_clkGate ..).trans hg
      handle := issueCommand_handle ..
      refresh := issueCommand_refreshProgrammed ..
      faulted := issueCommand_faulted ..
      pins := hpins
      memory := hmemory
      host := hhost }

theorem writeCommand_of_idleWord {w : Word} {s : State} (hb : busy s = false) (hm : cmdModeBits w = 0) :
    writeCommand w s = .done () { s with sdcmr := w &&& maskCMR } := by
  simp only [writeCommand, hb, hm, Bool.false_eq_true, if_false, if_true]

theorem exec_sendCommand_of_done {c : Command} {s t : State} (hh : s.handle ≠ none)
    (hd : regWrite .sdcmr (encodeCmd c) s = .done () t) :
    exec (.sendCommand c) s = .next { t with polling := true, result := none } := by
  obtain ⟨b, hb⟩ := Option.ne_none_iff_exists'.mp hh
  simp only [exec, execSendCommand, hb, hd]

/-- Settles O40: the write of the assembled word issues the command, and the host begins to poll. -/
theorem sendCommandIssues : Obligations.SendCommandIssues := by
  intro c s hh hg hi hb
  obtain ⟨t, hd, h⟩ := regWrite_issues hg hi hb (commandOf_encodeCmd c)
  obtain ⟨hbundles, hconfigs, hplatform, hqueue, -⟩ := h.host
  exact ⟨_, exec_sendCommand_of_done hh hd, rfl, h.events, h.inflight, h.busy, h.status, h.busyLeft, h.draws,
    (congrArg _ h.stored).trans (toNat_assembleCmd_and_maskCMR ..), h.track, h.registers, h.gate, h.handle, h.refresh,
    h.faulted, h.pins, h.memory, hbundles, hconfigs, hplatform, hqueue⟩

theorem writeRawCommand_of_done {mode : BitVec 3} {ops : CmdOperands} {s t : State}
    (hd : regWrite .sdcmr (assembleCmd mode ops) s = .done () t) :
    writeRawCommand mode ops s = .next { t with result := some .unit } := by
  simp only [writeRawCommand, hd, actThen_of_done, actEnd]

theorem commandOf_assembleCmd (m : CmdMode) (ops : CmdOperands) :
    commandOf (assembleCmd (modeCode m) ops) = some (commandWith m ops) := by
  rw [commandOf_eq_map, cmdModeBits_assembleCmd, cmdOperands_assembleCmd, modeOfCode_modeCode, Option.map_some]

/-- Settles O56: a word of mode 1 to 4 is the word of its command. -/
theorem rawCommandWordIssues : Obligations.RawCommandWordIssues := by
  intro m ops s hg hi hb
  obtain ⟨t, hd, h⟩ := regWrite_issues hg hi hb (commandOf_assembleCmd m ops)
  exact ⟨_, (exec_rawInstr m ops s).trans (writeRawCommand_of_done hd), h.inflight, h.busy, h.status, h.busyLeft,
    h.draws, (congrArg _ h.stored).trans (toNat_assembleCmd_and_maskCMR ..), h.events, h.track, h.registers, h.gate,
    h.handle, h.refresh, h.faulted, h.pins, h.memory, h.host⟩

/-- Settles O57: the three instructions have no meaning but their refusal. -/
theorem reservedModesAreRefused : Obligations.ReservedModesAreRefused :=
  fun _ _ => ⟨rfl, rfl, rfl⟩

/-! ### Writes that only store a word -/

/-- What a write leaves that stores a word in one register and issues nothing (20 R73). -/
structure Stored (r : Reg) (w : Word) (s t : State) : Prop where
  value : regValue t r = w
  others : ∀ q, q ≠ r → regValue t q = regValue s q
  gate : t.clkGate = s.clkGate
  handle : t.handle = s.handle
  phase : ∀ b, phaseOf t b = phaseOf s b
  delayOk : ∀ b, delayOkOf t b = delayOkOf s b
  refresh : t.refreshProgrammed = (s.refreshProgrammed || decide (r = .sdrtr))
  inflight : t.inflight = s.inflight
  faulted : t.faulted = s.faulted
  pins : SamePins s t
  memory : SameMemory s t
  host : SameHost s t

/-- A write of `SDRTR` alone touches the refresh mark (10 R43). -/
theorem Stored.sequencer {r : Reg} {w : Word} {s t : State} (h : Stored r w s t) (hr : r ≠ .sdrtr) :
    SameSequencer s t :=
  ⟨h.handle, h.phase, h.delayOk, by rw [h.refresh, decide_eq_false hr, Bool.or_false], h.inflight, h.faulted⟩

/-- An event recorded before the write is no part of what the write leaves alone. -/
theorem Stored.of_emit {r : Reg} {w : Word} {e : Event} {s t : State} (h : Stored r w (emit e s) t) :
    Stored r w s t where
  value := h.value
  others := h.others
  gate := h.gate
  handle := h.handle
  phase := h.phase
  delayOk := h.delayOk
  refresh := h.refresh
  inflight := h.inflight
  faulted := h.faulted
  pins := h.pins
  memory := h.memory
  host := h.host

/-- A completed write of `SDCMR` with a word of mode 0 stores its writable bits and no more (42 R218). -/
theorem RegWritten.eq_of_idleWord {w : Word} {s t : State} (hw : RegWritten .sdcmr w s t) (hm : cmdModeBits w = 0) :
    t = { s with sdcmr := w &&& maskCMR } := by
  cases hw with
  | idle _ _ _ ht => exact ht
  | issued _ _ _ hne _ _ => exact absurd hm hne
  | sdcr1 hr | sdcr2 hr | sdtr1 hr | sdtr2 hr | sdrtr hr | sdsr hr => cases hr

theorem RegWritten.stored {r : Reg} {v : Word} {s t : State} (hw : RegWritten r v s t)
    (hm : r = .sdcmr → cmdModeBits v = 0) : Stored r (storedWord s v r) s t := by
  by_cases hr : r = .sdcmr
  · subst hr
    obtain rfl := hw.eq_of_idleWord (hm rfl)
    exact
      { value := rfl
        others := fun q hq => by cases q <;> simp_all [regValue]
        gate := rfl
        handle := rfl
        phase := fun b => by cases b <;> rfl
        delayOk := fun b => by cases b <;> rfl
        refresh := by simp
        inflight := rfl
        faulted := rfl
        pins := fun _ => rfl
        memory := fun b _ => by cases b <;> rfl
        host := ⟨rfl, rfl, rfl, rfl, rfl⟩ }
  · obtain ⟨-, hinflight, hrefresh⟩ := hw.sequencer_eq hr
    obtain ⟨hpins, hmemory, hhost⟩ := hw.frame
    exact
      { value := (hw.regValue_eq hr r).trans (if_pos rfl)
        others := fun q hq => (hw.regValue_eq hr q).trans (if_neg hq)
        gate := hw.keeps (·.clkGate) fun _ => rfl
        handle := hw.handle_eq
        phase := fun b => (hw.track_eq hr b).1
        delayOk := fun b => (hw.track_eq hr b).2
        refresh := hrefresh
        inflight := hinflight
        faulted := hw.keeps (·.faulted) fun _ => rfl
        pins := hpins
        memory := hmemory
        host := hhost }

/-- A write that issues nothing, while nothing is in flight, comes to its end; of `SDCMR` that is a word of mode 0 while
`BUSY` is 0 (20 R73, 42 R218). -/
theorem regWrite_stores {r : Reg} {v : Word} {s : State} (hg : s.clkGate = true) (hi : s.inflight = none)
    (hm : r = .sdcmr → busy s = false ∧ cmdModeBits v = 0) :
    ∃ t, regWrite r v s = .done () t ∧ t.events = s.events ++ [.regWritten r v] ∧
      Stored r (storedWord s v r) s t := by
  by_cases hr : r = .sdcmr
  · subst hr
    obtain ⟨hb, hz⟩ := hm rfl
    have hd : regWrite .sdcmr v s = .done () { emit (.regWritten .sdcmr v) s with sdcmr := v &&& maskCMR } :=
      (regWrite_sdcmr_idle v hg hi).trans (writeCommand_of_idleWord hb hz)
    have hw := (regWrite_done hd).2
    rw [engineTurn_idle hi] at hw
    exact ⟨_, hd, rfl, (hw.stored fun _ => hz).of_emit⟩
  · obtain ⟨t, hd, hw⟩ := regWrite_idle v hr hg hi
    exact ⟨t, hd, (hw.sequencer_eq hr).1, (hw.stored fun h => absurd h hr).of_emit⟩

/-- Settles O55: a word of mode 0 is stored, and issues nothing. -/
theorem idleWordIssuesNothing : Obligations.IdleWordIssuesNothing := by
  intro ops s hg hi hb
  obtain ⟨t, hd, hevents, h⟩ := regWrite_stores (r := .sdcmr) hg hi fun _ => ⟨hb, cmdModeBits_assembleCmd 0 ops⟩
  exact ⟨_, writeRawCommand_of_done hd, (congrArg _ h.value).trans (toNat_assembleCmd_and_maskCMR 0 ops), hevents,
    h.others, h.gate.trans hg, h.sequencer (by decide), h.pins, h.memory, h.host⟩

/-! ### One field of a register -/

/-- A field inside a writable mask, replaced in a word without reserved bits, leaves none (10 R31, 20 R75). -/
theorem insertField_and_of_reserved {w m : Word} {f : Field} (hw : w &&& ~~~ m = 0)
    (hf : ∀ i, m.getLsbD i = false → ¬ (f.lo ≤ i ∧ i < f.lo + f.width)) (n : Nat) :
    insertField w f n &&& m = insertField w f n := by
  refine and_mask_of_reserved ((and_not_eq_zero_iff _ m).mpr fun i hm => ?_)
  by_cases hi : i < 32
  · rw [insertField_getLsbD _ _ _ _ hi, if_neg (hf i hm)]
    exact (and_not_eq_zero_iff w m).mp hw i hm
  · exact BitVec.getLsbD_of_ge _ _ (Nat.le_of_not_lt hi)

/-- One field of a register replaced while nothing is in flight: one read, one write, and no command (20 R75). -/
theorem setField_stores {r : Reg} {f : Field} {n : Nat} {s : State} (hg : s.clkGate = true) (hi : s.inflight = none)
    (hm : r = .sdcmr → busy s = false ∧ cmdModeBits (insertField (regValue s r) f n) = 0)
    (hfit : storedWord s (insertField (regValue s r) f n) r = insertField (regValue s r) f n) :
    ∃ t, setField r f n s = .done () t ∧
      t.events = s.events ++ [.regReadEv r (regValue s r), .regWritten r (regValue t r)] ∧
      Stored r (insertField (regValue s r) f n) s t := by
  obtain ⟨t, hd, hevents, h⟩ := regWrite_stores (v := insertField (regValue s r) f n)
    (s := emit (.regReadEv r (regValue s r)) s) hg hi hm
  have h : Stored r (insertField (regValue s r) f n) s t := hfit ▸ h.of_emit
  refine ⟨t, (setFields_idle r [(f, n)] hg hi).trans hd, ?_, h⟩
  rw [hevents, h.value, emit_events, List.append_assoc]
  rfl

/-- A word without reserved bits of `SDCMR` has mode 0 (10 R31). -/
theorem cmdModeBits_of_stored {w : Word} (h : w &&& maskCMR = w) : cmdModeBits w = 0 := by
  have hw := toNat_and_fieldMask (f := ⟨5, 20⟩) (by decide) w
  rw [fieldMask_cmr, h] at hw
  refine BitVec.eq_of_toNat_eq ?_
  rw [cmdModeBits_toNat, hw]
  exact Nat.mod_eq_zero_of_dvd (Dvd.dvd.mul_left (by decide) _)

/-! The three operations on a field of the Handle's registers are `SetField`, told to the host (42 R222, R226, R229). -/

theorem exec_setWriteProtection_of_done {e : Bool} {b : Bank} {s t : State} (hh : s.handle = some b)
    (hd : setField (controlReg b) fWP (bit e) s = .done () t) :
    exec (.setWriteProtection e) s = .next { t with result := some .unit } := by
  simp only [exec, execSetWriteProtection, hh, hd, actThen_of_done, actEnd]

theorem exec_setAutoRefreshCount_above {n : Nat} {s : State} (hh : s.handle ≠ none) (hn : 15 < n) :
    exec (.setAutoRefreshCount n) s = reject .fieldOutOfRange s := by
  obtain ⟨b, hb⟩ := Option.ne_none_iff_exists'.mp hh
  simp only [exec, execSetAutoRefreshCount, hb, if_pos hn]

theorem exec_setAutoRefreshCount_of_done {n : Nat} {s t : State} (hh : s.handle ≠ none) (hn : n ≤ 15)
    (hd : setField .sdcmr fNRFS n s = .done () t) :
    exec (.setAutoRefreshCount n) s = .next { t with result := some .unit } := by
  obtain ⟨b, hb⟩ := Option.ne_none_iff_exists'.mp hh
  simp only [exec, execSetAutoRefreshCount, hb, if_neg (Nat.not_lt.mpr hn), hd, actThen_of_done, actEnd]

theorem exec_setRefreshInterval_above {n : Nat} {s : State} (hh : s.handle ≠ none) (hn : 8191 < n) :
    exec (.setRefreshInterval n) s = reject .fieldOutOfRange s := by
  obtain ⟨b, hb⟩ := Option.ne_none_iff_exists'.mp hh
  simp only [exec, execSetRefreshInterval, hb, if_pos hn]

theorem exec_setRefreshInterval_of_done {n : Nat} {s t : State} (hh : s.handle ≠ none) (hn : n ≤ 8191)
    (hd : setField .sdrtr fCOUNT n s = .done () t) :
    exec (.setRefreshInterval n) s = .next { t with result := some .unit } := by
  obtain ⟨b, hb⟩ := Option.ne_none_iff_exists'.mp hh
  simp only [exec, execSetRefreshInterval, hb, if_neg (Nat.not_lt.mpr hn), hd, actThen_of_done, actEnd]

theorem controlReg_reserved {s : State} (h : ReservedBitsZero s) (b : Bank) :
    regValue s (controlReg b) &&& ~~~ maskCR = 0 := by
  obtain ⟨h1, h2, -⟩ := h
  cases b with
  | bank1 => exact h1
  | bank2 => exact h2

/-- Settles O46: `WP` replaced in the control register of the Handle's bank. -/
theorem setWriteProtectionChangesOneBit : Obligations.SetWriteProtectionChangesOneBit := by
  intro e s
  refine ⟨fun hn => ?noHandle, fun b hb hg hi hres => ?_⟩
  case noHandle =>
    obtain ⟨-, h, -⟩ := noHandleComesFirst s hn
    exact h e
  have hcmr : controlReg b ≠ .sdcmr := by cases b <;> decide
  have hrtr : controlReg b ≠ .sdrtr := by cases b <;> decide
  have hfit : storedWord s (insertField (regValue s (controlReg b)) fWP (bit e)) (controlReg b) =
      insertField (regValue s (controlReg b)) fWP (bit e) := by
    have hmask := insertField_and_of_reserved (f := fWP) (controlReg_reserved hres b)
      (fun i hi hin => by rw [maskCR_getLsbD, decide_eq_false_iff_not] at hi; simp only [fWP] at hin; omega) (bit e)
    cases b <;> exact hmask
  obtain ⟨t, hd, hevents, h⟩ := setField_stores hg hi (fun hr => absurd hr hcmr) hfit
  refine ⟨_, exec_setWriteProtection_of_done hb hd, fun i hi => ?bits, h.others, h.gate.trans hg, h.sequencer hrtr,
    h.pins, h.memory, h.host, hevents⟩
  case bits =>
    refine (congrArg (·.getLsbD i) h.value).trans ((insertField_getLsbD _ _ _ _ hi).trans ?_)
    have hin : fWP.lo ≤ i ∧ i < fWP.lo + fWP.width ↔ i = 9 := by simp only [fWP]; omega
    simp only [hin]
    split
    · subst i
      cases e <;> rfl
    · rfl

/-- Settles O47: `NRFS` replaced in a word of mode 0. -/
theorem setAutoRefreshCountIssuesNothing : Obligations.SetAutoRefreshCountIssuesNothing := by
  intro n s
  refine ⟨fun hn => ?noHandle, exec_setAutoRefreshCount_above, fun hh hn hg hi hb hres => ?_⟩
  case noHandle =>
    obtain ⟨-, -, h, -⟩ := noHandleComesFirst s hn
    exact h n
  obtain ⟨-, -, -, -, hcmr, -, -⟩ := hres
  have hfit : insertField s.sdcmr fNRFS n &&& maskCMR = insertField s.sdcmr fNRFS n :=
    insertField_and_of_reserved hcmr
      (fun i hi hin => by rw [maskCMR_getLsbD, decide_eq_false_iff_not] at hi; simp only [fNRFS] at hin; omega) n
  have hmode : cmdModeBits (insertField s.sdcmr fNRFS n) = 0 := cmdModeBits_of_stored hfit
  obtain ⟨t, hd, hevents, h⟩ := setField_stores (r := .sdcmr) hg hi (fun _ => ⟨hb, hmode⟩) hfit
  have hword : t.sdcmr = insertField s.sdcmr fNRFS n := h.value
  refine ⟨_, exec_setAutoRefreshCount_of_done hh hn hd, ?count, ?mrd, ?reserved, h.others, h.gate.trans hg,
    h.sequencer (by decide), h.pins, h.memory, h.host, hevents⟩
  case count => exact hword ▸ getField_insertField_same _ fNRFS n (by decide) (Nat.lt_succ_of_le hn)
  case mrd => exact hword ▸ getField_insertField_other _ fNRFS fMRD n (by decide) (by decide)
  case reserved => exact hword ▸ hfit ▸ and_mask_not _ maskCMR

/-- Settles O48: `COUNT` replaced in a word that has no other writable bits. -/
theorem setRefreshIntervalProgramsTheTimer : Obligations.SetRefreshIntervalProgramsTheTimer := by
  intro n s
  refine ⟨fun hn => ?noHandle, exec_setRefreshInterval_above, fun hh hn hg hi hres => ?_⟩
  case noHandle =>
    obtain ⟨-, -, -, h, -⟩ := noHandleComesFirst s hn
    exact h n
  obtain ⟨-, -, -, -, -, hrtr, -⟩ := hres
  have hfit : insertField s.sdrtr fCOUNT n &&& maskRTR = insertField s.sdrtr fCOUNT n :=
    insertField_and_of_reserved hrtr
      (fun i hi hin => by rw [maskRTR_getLsbD, decide_eq_false_iff_not] at hi; simp only [fCOUNT] at hin; omega) n
  obtain ⟨t, hd, hevents, h⟩ := setField_stores (r := .sdrtr) hg hi (fun hr => by cases hr) hfit
  have hword : t.sdrtr = insertField s.sdrtr fCOUNT n := h.value
  refine ⟨_, exec_setRefreshInterval_of_done hh hn hd, ?timer, h.refresh.trans (Bool.or_true _), h.others,
    h.gate.trans hg, h.handle, h.phase, h.delayOk, h.inflight.trans hi, h.faulted, h.pins, h.memory, h.host, hevents⟩
  case timer =>
    calc t.sdrtr.toNat = (insertField s.sdrtr fCOUNT n &&& fieldMask fCOUNT).toNat := by
          rw [fieldMask_rtr, hfit, hword]
      _ = getField fCOUNT (insertField s.sdrtr fCOUNT n) * 2 ^ 1 := toNat_and_fieldMask (by decide) _
      _ = 2 * n := by
        rw [getField_insertField_same _ fCOUNT n (by decide) (Nat.lt_succ_of_le hn), pow_one, Nat.mul_comm]

/-! ### The accessors -/

theorem exec_bank_of_handle {b : Bank} {s : State} (hb : s.handle = some b) :
    exec .bank s = .next { s with result := some (.bank b) } := by
  simp only [exec, execBank, hb]

theorem exec_writeProtection_of_handle {b : Bank} {s : State} (hb : s.handle = some b) (hg : s.clkGate = true)
    (hi : s.inflight = none) :
    exec .writeProtection s = .next
      { emit (.regReadEv (controlReg b) (regValue s (controlReg b))) s with
        result := some (.flag ((regValue s (controlReg b)).getLsbD 9)) } := by
  simp only [exec, execWriteProtection, hb, regRead_idle (controlReg b) hg hi, actThen_of_done, actEnd]

/-- Settles O49: both accessors by the Handle. -/
theorem accessorsReportTheHandle : Obligations.AccessorsReportTheHandle := by
  intro s
  refine ⟨fun hn => ?_, fun b hb => ⟨exec_bank_of_handle hb, exec_writeProtection_of_handle hb⟩⟩
  obtain ⟨-, -, -, -, hflag, hbank, -⟩ := noHandleComesFirst s hn
  exact ⟨hbank, hflag⟩

/-! ### The poll loop -/

/-- A poll with the gate on is decided by `BUSY` after the engine's turn (42 R214). -/
theorem pollOnce_of_gate {s : State} (hg : s.clkGate = true) :
    pollOnce s =
      if busy (engineTurn s) then .next (emit (.regReadEv .sdsr (engineTurn s).sdsr) (engineTurn s))
      else .next { emit (.regReadEv .sdsr (engineTurn s).sdsr) (engineTurn s) with
                   polling := false, result := some .unit } := by
  rw [pollOnce, regRead_eq, if_pos hg]
  rfl

/-- A host inside the poll loop of a command whose engine has not reported the end (42 R214). -/
structure Polling (c : Command) (s : State) : Prop where
  faultFree : s.faulted = none
  platform : platformOk s.platform = true
  polling : s.polling = true
  gate : s.clkGate = true
  inflight : s.inflight = some c
  status : s.sdsr = busyWord

/-- The state after `k` polls that read `BUSY` = 1, with this much of the duration left. -/
def polled (k : Nat) (left : Option Nat) (s : State) : State :=
  { s with busyLeft := left, events := s.events ++ List.replicate k (.regReadEv .sdsr busyWord) }

theorem Polling.after_polls {c : Command} {s : State} (h : Polling c s) (k : Nat) (left : Option Nat) :
    Polling c (polled k left s) :=
  ⟨h.faultFree, h.platform, h.polling, h.gate, h.inflight, h.status⟩

theorem polled_polled (j k : Nat) (l l' : Option Nat) (s : State) :
    polled k l' (polled j l s) = polled (j + k) l' s := by
  simp only [polled, List.append_assoc, List.replicate_append_replicate]

/-- With none of its polls made, a state is as it is. -/
theorem polled_zero {l : Option Nat} {s : State} (h : s.busyLeft = l) : polled 0 l s = s := by
  subst h
  simp [polled]

theorem Polling.step_eq {c : Command} {s : State} (h : Polling c s) : step s = pollOnce s := by
  rw [step_eq_hostTurn h.faultFree h.platform, hostTurn_of_polling h.polling]

/-- A poll at which the engine does not finish reads `BUSY` = 1, and the host polls on (42 R214). -/
theorem Polling.step_lasting {c : Command} {s : State} {left : Option Nat} (h : Polling c s)
    (ht : engineTurn s = { s with busyLeft := left }) : step s = .next (polled 1 left s) := by
  have hstatus : (engineTurn s).sdsr = busyWord := by
    rw [ht]
    exact h.status
  have hbusy : busy (engineTurn s) = true := by
    rw [busy, hstatus]
    decide
  rw [h.step_eq, pollOnce_of_gate h.gate, if_pos hbusy, hstatus, ht]
  rfl

/-- The poll at which the engine finishes reads `BUSY` = 0 and is the last (42 R214, R215). -/
theorem Polling.step_last {c : Command} {s : State} (h : Polling c s) (hl : s.busyLeft = some 0) :
    step s = .next { emit (.regReadEv .sdsr 0) (engineStep s) with polling := false, result := some .unit } := by
  have ht : engineTurn s = engineStep s := by simp only [engineTurn, h.inflight, hl]
  have hzero : (engineStep s).sdsr = 0 := by
    rw [engineStep_sdsr, h.status]
    decide
  rw [h.step_eq, pollOnce_of_gate h.gate, ht, if_neg (by rw [busy_engineStep]; decide), hzero]

theorem runSteps_succ_of_next {s t : State} (h : step s = .next t) (k : Nat) : runSteps (k + 1) s = runSteps k t := by
  simp only [runSteps, h]

/-- A run that goes on for `j` steps goes on from where they lead. -/
theorem runSteps_add_of_next {j : Nat} {s t : State} (h : runSteps j s = .next t) (k : Nat) :
    runSteps (j + k) s = runSteps k t := by
  induction j generalizing s with
  | zero =>
    cases h
    rw [Nat.zero_add]
  | succ j ih =>
    unfold runSteps at h
    split at h
    · rename_i u hu
      rw [Nat.succ_add, runSteps_succ_of_next hu, ih h]
    · cases h
    · cases h

/-- While the duration lasts, `k` steps are `k` polls that read `BUSY` = 1. -/
theorem Polling.run_lasting {c : Command} {m : Nat} (k : Nat) {s : State} (h : Polling c s)
    (hl : s.busyLeft = some (k + m)) : runSteps k s = .next (polled k (some m) s) := by
  induction k generalizing s with
  | zero => rw [polled_zero (by rw [hl, Nat.zero_add])]; rfl
  | succ k ih =>
    have ht : engineTurn s = { s with busyLeft := some (k + m) } := by
      simp [engineTurn, h.inflight, hl, Nat.add_right_comm]
    rw [runSteps_succ_of_next (h.step_lasting ht), ih (h.after_polls 1 _) rfl, polled_polled, Nat.add_comm 1 k]

/-- Settles O41: `n` polls while the duration lasts, then the one at which the engine finishes. -/
theorem pollsExactlyOneMoreThanBusy : Obligations.PollsExactlyOneMoreThanBusy := by
  intro s c n hf hp hpoll hg hi hs hl
  have h : Polling c s := ⟨hf, hp, hpoll, hg, hi, hs⟩
  constructor
  · intro k hk
    obtain ⟨m, rfl⟩ := Nat.exists_eq_add_of_le hk
    exact ⟨_, h.run_lasting k hl, hpoll, rfl⟩
  · have hrun := h.run_lasting (m := 0) n hl
    have hlast := (h.after_polls n (some 0)).step_last rfl
    refine ⟨_, (runSteps_add_of_next hrun 1).trans (runSteps_succ_of_next hlast 0), rfl, rfl,
      busy_engineStep (polled n (some 0) s), ?_⟩
    simp [polled]

/-- Settles O42: a duration of never does not pass. -/
theorem stuckBusyPollsForEver : Obligations.StuckBusyPollsForEver := by
  intro s c k hf hp hpoll hg hi hs hl
  have h : Polling c s := ⟨hf, hp, hpoll, hg, hi, hs⟩
  suffices hrun : runSteps k s = .next (polled k none s) by rw [hrun, polled, ← hl]
  clear hf hp hpoll hg hi hs
  induction k generalizing s with
  | zero => rw [polled_zero hl]; rfl
  | succ k ih =>
    have hstay : engineTurn s = s := by simp only [engineTurn, h.inflight, hl]
    have ht : engineTurn s = { s with busyLeft := none } := hstay.trans (by rw [← hl])
    rw [runSteps_succ_of_next (h.step_lasting ht), ih _ rfl (h.after_polls 1 none), polled_polled, Nat.add_comm 1 k]

/-! ### Host operations are no raw command words -/

/-- A raw command word (30 R110), which is no host operation (30 R100; log 14). -/
def isRawWord : Instr → Bool
  | .cmdIdle _ | .cmdClkEnable _ | .cmdPall _ | .cmdAutoRefresh _ | .cmdLoadMode _ | .cmdSelfRefresh _
  | .cmdPowerDown _ | .cmdReserved7 _ => true
  | _ => false

theorem getConfigure_yields_hostOp : Yields getConfigure (isRawWord · = false) :=
  yields_after fun _ => yields_after fun _ => yields_after fun _ => yields_after fun _ => yields_after fun _ =>
    yields_after fun _ => yields_after fun _ => yields_after fun _ => yields_done rfl

/-- The row of an op number is a host operation (30 R100). -/
theorem getOperands_yields_hostOp (op : Nat) : Yields (getOperands op) (isRawWord · = false) := by
  unfold getOperands
  split
  -- CONFIGURE
  case h_13 => exact getConfigure_yields_hostOp
  -- no operation
  case h_22 => exact yields_error _ _
  -- WRITE_PROTECTION, BANK: no operand
  case h_18 | h_19 => exact yields_done rfl
  -- one operand
  case h_9 | h_10 | h_11 | h_12 | h_14 | h_15 | h_16 | h_17 | h_20 => exact yields_after fun _ => yields_done rfl
  -- two operands
  all_goals exact yields_after fun _ => yields_after fun _ => yields_done rfl

theorem isRawWord_of_hostOp {bs : List Byte} {i : Instr} (h : decode (.hostOp bs) = .ok i) : isRawWord i = false := by
  change decodeHostOp bs = .ok i at h
  unfold decodeHostOp at h
  split at h
  · cases h
  · split at h
    · rename_i j rest hj
      split at h
      · cases h
        exact getOperands_yields_hostOp _ _ _ _ hj
      · cases h
    · cases h

/-! ### What a host operation of an admitted run leaves -/

/-- Where the host begins an operation: no fault, nothing in flight (42 R232), and what the invariant says of the
registers and the gate. -/
structure Settled (s : State) : Prop where
  faultFree : s.faulted = none
  idle : s.inflight = none
  notBusy : busy s = false
  reserved : ReservedBitsZero s
  gate : GateIffHandle s

/-- What a step of an admitted run leaves: the queue, no fault, and a command in flight only for a host that polls. -/
structure Served (s t : State) : Prop where
  queue : t.queue = s.queue
  faultFree : t.faulted = none
  waits : t.inflight.isSome = true → t.polling = true

/-- Every state the outcome answers is `Served`. -/
def Answers (s : State) (o : Host.Outcome State Fault Refusal) : Prop := ∀ t, o = .next t → Served s t

theorem answers_of_next {s t : State} {o : Host.Outcome State Fault Refusal} (h : Served s t) (ho : o = .next t) :
    Answers s o := by
  rintro u rfl
  cases ho
  exact h

theorem answers_refused (s : State) (r : Refusal) : Answers s (.refused r) := fun _ h => nomatch h

namespace Settled

variable {s t : State} (h : Settled s)
include h

theorem gate_of_handle {b : Bank} (hb : s.handle = some b) : s.clkGate = true := by
  rw [h.gate, hb, Option.isSome_some]

/-- An update that leaves the command in flight, the fault mark and the queue as they are. -/
theorem served (hq : t.queue = s.queue) (hf : t.faulted = s.faulted) (hi : t.inflight = s.inflight) : Served s t where
  queue := hq
  faultFree := hf.trans h.faultFree
  waits hin := by
    rw [hi, h.idle] at hin
    cases hin

theorem served_of_frame (hseq : SameSequencer s t) (hhost : SameHost s t) : Served s t := by
  obtain ⟨-, -, -, -, hi, hf⟩ := hseq
  obtain ⟨-, -, -, hq, -⟩ := hhost
  exact h.served hq hf hi

theorem answers_next (hq : t.queue = s.queue) (hf : t.faulted = s.faulted) (hi : t.inflight = s.inflight) :
    Answers s (.next t) :=
  answers_of_next (h.served hq hf hi) rfl

theorem answers_reject (code : Rejection) : Answers s (reject code s) := h.answers_next rfl rfl rfl

theorem answers_bindPin (p : PinId) (r : Role) : Answers s (exec (.bindPin p r) s) := by
  simp only [exec, execBindPin, updatePin_idle h.idle]
  split
  · split
    · exact h.answers_next rfl rfl rfl
    · exact h.answers_reject _
  · exact h.answers_reject _

theorem answers_makeBundle (b : Bundle) : Answers s (makeBundle b s) := by
  rcases makeBundle_cases b s with ⟨e, he⟩ | ⟨-, he⟩
  · exact he ▸ h.answers_reject e
  · obtain ⟨v, hv⟩ := markPins_idle (bundlePins b) h.idle
    rw [he, hv]
    exact h.answers_next rfl rfl rfl

theorem answers_constructor {i : Instr} {b : Bundle} (hb : constructedBundle i = some b) : Answers s (exec i s) := by
  obtain ⟨hother, hown⟩ := exec_constructor s hb
  by_cases ho : OtherBankPin s b
  · exact hother ho ▸ h.answers_reject _
  · exact hown ho ▸ h.answers_makeBundle b

theorem answers_preparePins (b : Bundle) : Answers s (exec (.preparePins b) s) := by
  obtain ⟨v, hv⟩ := prepareBundle_idle b h.idle
  simp only [exec, execPreparePins, hv]
  split
  · exact h.answers_next rfl rfl rfl
  · exact answers_refused s _

theorem answers_width (b : DataBus) : Answers s (exec (.width b) s) := by
  simp only [exec, execWidth]
  split
  · exact h.answers_next rfl rfl rfl
  · exact answers_refused s _

theorem answers_bankOfPins (b : CkeCs) : Answers s (exec (.bankOfPins b) s) := by
  simp only [exec, execBankOfPins]
  split
  · exact h.answers_next rfl rfl rfl
  · exact answers_refused s _

theorem answers_makeConfig (c : Configuration) : Answers s (exec (.makeConfig c) s) := by
  simp only [exec, execMakeConfig]
  split
  · exact h.answers_reject _
  · split
    · exact h.answers_next rfl rfl rfl
    · exact answers_refused s _

/-- The register programmer writes with the gate on and issues nothing (41 R183 to R189). -/
theorem answers_configure (cfg : Configuration) (ba : BankAccess) (nbl : ByteEnable) (clk ras cas : PinId)
    (sel : CkeCs) (we : PinId) : Answers s (exec (.configure cfg ba nbl clk ras cas sel we) s) := by
  by_cases hn : s.handle = none
  · intro t hx
    obtain ⟨v, hprog, rfl⟩ := (configureRun_of_next hn hx).programmed h.idle
    obtain ⟨ps, hprep⟩ := gateAndPrepare_idle (configureBundles cfg ba nbl clk ras cas sel we) h.idle
    rw [hprep] at hprog
    exact h.served (hprog.keeps (·.queue) fun _ => rfl) (hprog.keeps (·.faulted) fun _ => rfl) hprog.inflight_eq
  · exact secondConfigureIsRejected cfg ba nbl clk ras cas sel we s hn ▸ h.answers_reject _

theorem answers_sendCommand (c : Command) : Answers s (exec (.sendCommand c) s) := by
  rcases hb : s.handle with _ | b
  · obtain ⟨hn, -⟩ := noHandleComesFirst s hb
    exact hn c ▸ h.answers_reject _
  · obtain ⟨t, hd, hissued⟩ := regWrite_issues (h.gate_of_handle hb) h.idle h.notBusy (commandOf_encodeCmd c)
    obtain ⟨-, -, -, hq, -⟩ := hissued.host
    refine answers_of_next ?_ (exec_sendCommand_of_done (by rw [hb]; nofun) hd)
    exact ⟨hq, hissued.faulted.trans h.faultFree, fun _ => rfl⟩

theorem answers_setWriteProtection (e : Bool) : Answers s (exec (.setWriteProtection e) s) := by
  obtain ⟨hn, hsome⟩ := setWriteProtectionChangesOneBit e s
  rcases hb : s.handle with _ | b
  · exact hn hb ▸ h.answers_reject _
  · obtain ⟨t, hx, -, -, -, hseq, -, -, hhost, -⟩ := hsome b hb (h.gate_of_handle hb) h.idle h.reserved
    exact answers_of_next (h.served_of_frame hseq hhost) hx

theorem answers_setAutoRefreshCount (n : Nat) : Answers s (exec (.setAutoRefreshCount n) s) := by
  obtain ⟨hn, habove, hset⟩ := setAutoRefreshCountIssuesNothing n s
  rcases hb : s.handle with _ | b
  · exact hn hb ▸ h.answers_reject _
  · have hsome : s.handle ≠ none := by rw [hb]; nofun
    rcases Nat.lt_or_ge 15 n with hlt | hle
    · exact habove hsome hlt ▸ h.answers_reject _
    · obtain ⟨t, hx, -, -, -, -, -, hseq, -, -, hhost, -⟩ :=
        hset hsome hle (h.gate_of_handle hb) h.idle h.notBusy h.reserved
      exact answers_of_next (h.served_of_frame hseq hhost) hx

theorem answers_setRefreshInterval (n : Nat) : Answers s (exec (.setRefreshInterval n) s) := by
  obtain ⟨hn, habove, hset⟩ := setRefreshIntervalProgramsTheTimer n s
  rcases hb : s.handle with _ | b
  · exact hn hb ▸ h.answers_reject _
  · have hsome : s.handle ≠ none := by rw [hb]; nofun
    rcases Nat.lt_or_ge 8191 n with hlt | hle
    · exact habove hsome hlt ▸ h.answers_reject _
    · obtain ⟨t, hx, -, -, -, -, -, -, -, hi, hf, -, -, ⟨-, -, -, hq, -⟩, -⟩ :=
        hset hsome hle (h.gate_of_handle hb) h.idle h.reserved
      exact answers_of_next (h.served hq hf (hi.trans h.idle.symm)) hx

theorem answers_writeProtection : Answers s (exec .writeProtection s) := by
  obtain ⟨hn, hsome⟩ := accessorsReportTheHandle s
  rcases hb : s.handle with _ | b
  · obtain ⟨-, hx⟩ := hn hb
    exact hx ▸ h.answers_reject _
  · obtain ⟨-, hx⟩ := hsome b hb
    exact hx (h.gate_of_handle hb) h.idle ▸ h.answers_next rfl rfl rfl

theorem answers_bank : Answers s (exec .bank s) := by
  obtain ⟨hn, hsome⟩ := accessorsReportTheHandle s
  rcases hb : s.handle with _ | b
  · obtain ⟨hx, -⟩ := hn hb
    exact hx ▸ h.answers_reject _
  · obtain ⟨hx, -⟩ := hsome b hb
    exact hx ▸ h.answers_next rfl rfl rfl

theorem answers_delay (n : Nat) : Answers s (exec (.delay n) s) := by
  obtain ⟨t, hx, -, -, -, -, -, ⟨-, -, -, hq, -⟩, -, -, hi, hf⟩ := delayMarksClockEnabledBanks n s h.idle
  exact answers_of_next (h.served hq hf (hi.trans h.idle.symm)) hx

theorem answers_memoryView (e n : Nat) : Answers s (exec (.memoryView e n) s) := by
  simp only [exec, execMemoryView]
  split
  · exact h.answers_reject _
  · split
    · exact h.answers_reject _
    · exact h.answers_next rfl rfl rfl

/-- Every host operation, by its row of 30 R100. -/
theorem answers_exec {i : Instr} (hi : isRawWord i = false) : Answers s (exec i s) := by
  cases i with
  | bindPin p r => exact h.answers_bindPin p r
  | makeAddrBus | makeDataBus | makeBankAccess | makeByteEnable | makeCkecsBank1 | makeCkecsBank2 | makeSingle =>
    exact h.answers_constructor rfl
  | preparePins b => exact h.answers_preparePins b
  | width b => exact h.answers_width b
  | bankOfPins b => exact h.answers_bankOfPins b
  | makeConfig c => exact h.answers_makeConfig c
  | configure cfg ba nbl clk ras cas sel we => exact h.answers_configure cfg ba nbl clk ras cas sel we
  | sendCommand c => exact h.answers_sendCommand c
  | setWriteProtection e => exact h.answers_setWriteProtection e
  | setAutoRefreshCount n => exact h.answers_setAutoRefreshCount n
  | setRefreshInterval n => exact h.answers_setRefreshInterval n
  | writeProtection => exact h.answers_writeProtection
  | bank => exact h.answers_bank
  | delay n => exact h.answers_delay n
  | memoryView e n => exact h.answers_memoryView e n
  | cmdIdle | cmdClkEnable | cmdPall | cmdAutoRefresh | cmdLoadMode | cmdSelfRefresh | cmdPowerDown | cmdReserved7 =>
    cases hi

theorem answers_windowRead (a n : Nat) : Answers s (windowRead a n s) := by
  intro t hx
  obtain ⟨b, o, -, rfl⟩ := windowRead_next hx
  obtain ⟨-, -, hseq, hhost⟩ := memRead_frame b o a n h.idle
  exact h.served_of_frame hseq hhost

theorem answers_windowWrite (a n v : Nat) : Answers s (windowWrite a n v s) := by
  intro t hx
  obtain ⟨b, o, -, rfl⟩ := windowWrite_next hx
  obtain ⟨-, -, hseq, hhost⟩ := memWrite_frame b o a n v h.idle
  exact h.served_of_frame hseq hhost

/-- Every request the spec gives the host (30 R100, 43 R262, 20 R82, R83). -/
theorem answers_serve {r : Request} (ha : admitted s.platform r = true) : Answers s (serve r s) := by
  cases r with
  | packet p =>
    cases p with
    | hostOp bs =>
      simp only [serve, servePacket]
      split
      · rename_i i hd
        exact h.answers_exec (isRawWord_of_hostOp hd)
      · exact answers_refused s _
    | cmdWord w => cases ha
  | read a n =>
    obtain ⟨hread, -⟩ := hostAccess_of_inside 0 (Option.isSome_iff_ne_none.mp ha)
    exact fun t hx => h.answers_windowRead a.toNat n t (hread ▸ hx)
  | write a n v =>
    obtain ⟨-, hwrite⟩ := hostAccess_of_inside v (Option.isSome_iff_ne_none.mp ha)
    exact fun t hx => h.answers_windowWrite a.toNat n v t (hwrite ▸ hx)
  | readElement v i =>
    intro t hx
    obtain ⟨-, -, hread⟩ := readElement_next hx
    exact h.answers_windowRead _ _ t hread
  | writeElement v i x =>
    intro t hx
    obtain ⟨-, -, hwrite⟩ := writeElement_next hx
    exact h.answers_windowWrite _ _ _ t hwrite

end Settled

/-! ### Admitted runs -/

/-- A host that neither polls nor finds a fault begins its next request settled (42 R232). -/
theorem settled_of_admittedRun {s : State} (hinv : Inv s) (hrun : AdmittedRun s) (hp : s.polling = false)
    (rest : List Request) : Settled { s with queue := rest } := by
  have hidle : s.inflight = none := by
    cases hi : s.inflight with
    | none => rfl
    | some c =>
      have hpoll := hrun.idle (by rw [hi]; rfl)
      rw [hp] at hpoll
      cases hpoll
  have hbusy : busy s = false := by rw [hinv.busyInflight, hidle]; rfl
  exact ⟨hrun.faultFree, hidle, hbusy, hinv.reserved, hinv.gate⟩

/-- A poll finds the gate on, and ends the loop only where the engine has finished (42 R212, R214; 20 R71). -/
theorem answers_pollOnce {s : State} (hinv : Inv s) (hf : s.faulted = none) (hp : s.polling = true) :
    Answers s (pollOnce s) := by
  have hg : s.clkGate = true := hinv.gate.trans (hinv.polling hp)
  have hturn : BusyIffInflight (engineTurn s) := busyIffInflight_engineTurn hinv.busyInflight
  have hq := engineTurn_queue s
  have hf := (engineTurn_faulted s).trans hf
  intro t hx
  rw [pollOnce_of_gate hg] at hx
  split at hx
  · cases hx
    exact ⟨hq, hf, fun _ => (engineTurn_polling s).trans hp⟩
  · rename_i hb
    cases hx
    exact ⟨hq, hf, fun hi => absurd (hturn.trans hi) hb⟩

/-- The requests left were left before the step. -/
theorem admittedRun_of_served {s t : State} {q : List Request} (hrun : AdmittedRun s) (hq : q ⊆ s.queue)
    (hp : t.platform = s.platform) (h : Served { s with queue := q } t) : AdmittedRun t where
  requests r hr := by
    rw [h.queue] at hr
    rw [hp]
    exact hrun.requests r (hq hr)
  faultFree := h.faultFree
  idle := h.waits

/-- Settles O25: an unmarked state answers no fault; a poll, an idle step and a request each leave an admitted run. -/
theorem admittedRunsNeverFault : Obligations.AdmittedRunsNeverFault := by
  intro s hinv hrun
  refine ⟨fun f hf => ?fault, fun t hs => ?next⟩
  case fault =>
    have hmark := (faultedStateEndsTheRun s f).mp hf
    rw [hrun.faultFree] at hmark
    cases hmark
  case next =>
    have hp := platformNeverChanges s t hs
    obtain ⟨-, -, ⟨hpoll, hx⟩ | ⟨hpoll, -, rfl⟩ | ⟨r, rest, hpoll, hq, hx⟩⟩ := step_next hs
    · exact admittedRun_of_served hrun (List.Subset.refl _) hp (answers_pollOnce hinv hrun.faultFree hpoll t hx)
    · have hsettled := settled_of_admittedRun hinv hrun hpoll s.queue
      rw [engineTurn_idle hsettled.idle]
      exact hrun
    · have ha : admitted s.platform r = true := hrun.requests r (hq ▸ List.mem_cons_self)
      have hserved := (settled_of_admittedRun hinv hrun hpoll rest).answers_serve ha t hx
      exact admittedRun_of_served hrun (hq ▸ List.subset_cons_self r rest) hp hserved

end Sys2Proof.Machine

/-! The memory view: what `MEMORY_VIEW` answers with a Handle (43_memory_view R260, R261). Without one it is E8, with the
other operations on the Handle (`noHandleComesFirst`). -/

namespace Sys2Proof.Machine

section
variable {s : State} {b : Bank} (h : s.handle = some b)
include h

theorem exec_memoryView_zero (n : Nat) : exec (.memoryView 0 n) s = reject .elementSizeZero s := by
  simp only [exec, execMemoryView, h, if_true]

theorem exec_memoryView_of_ne_zero {e : Nat} (he : e ≠ 0) (n : Nat) : exec (.memoryView e n) s =
    .next { s with result := some (.view (bankBase s.platform b) (n / e)) } := by
  simp only [exec, execMemoryView, h, if_neg he]

end

/-- Settles O50, by the checks in their order; the count is the floor quotient, which the two inequalities say. -/
theorem memoryViewBaseAndCount : Obligations.MemoryViewBaseAndCount := by
  intro e n s
  refine ⟨fun h => ?noHandle, fun b h => ⟨fun he => ?sizeZero, fun he => ?view⟩⟩
  case noHandle =>
    obtain ⟨-, -, -, -, -, -, hview⟩ := noHandleComesFirst s h
    exact hview e n
  case sizeZero =>
    subst he
    exact exec_memoryView_zero h n
  case view =>
    have hle : n / e * e ≤ n := Nat.div_mul_le_self n e
    have hlt : n < n / e * e + e := Nat.lt_div_mul_add (Nat.pos_of_ne_zero he)
    exact ⟨n / e, exec_memoryView_of_ne_zero h he n, hle, hlt⟩

end Sys2Proof.Machine

/-! Rejections (60_exceptions R270, R274): `reject` is the only way an instruction comes to answer a rejection code. -/

namespace Sys2Proof.Machine

/-- Of all that an instruction can do, only the rejection leaves a rejection code for the host: every other effect ends
with a value of its own or, marked faulted or still polling, with none. -/
theorem Effect.reject_of_result {i : Instr} {s t : State} {code : Rejection} (h : Effect s i t)
    (hr : t.result = some (.rejected code)) : reject code s = .next t := by
  cases h with
  | rejected _ c =>
    cases hr
    rfl
  | told _ r hne =>
    cases hr
    exact absurd rfl (hne code)
  | bound | taken | prepared | configMade | configured | fieldSet | flagRead | delayed | rawWritten => cases hr
  | sent | readFaulted | writeFaulted | fieldFaulted => cases hr

/-- Settles O26: the numbers code by code; and an instruction that answers a code has done what `reject` does. -/
theorem rejectionIsPrecise : Obligations.RejectionIsPrecise := by
  refine ⟨fun code s => ?numbers, fun i s t code hx hr => ?precise⟩
  case numbers => cases code <;> rfl
  case precise => exact reject_next ((exec_next hx).reject_of_result hr)

end Sys2Proof.Machine
